-- ==== Sys2Proof/Word.lean ====
section
/-! DEFINITION. The widths of the core's values: spec/00_scope.md R5 and R9. -/

namespace Sys2Proof

/-- A 32-bit register or table word (00 R5). -/
abbrev Word := BitVec 32

/-- A byte of either byte stream (00 R5). -/
abbrev Byte := BitVec 8

/-- A 9-bit element of `SYM_IN`, and the register `SYM` (30 R82, 10 R23). -/
abbrev SymCode := BitVec 9

/-- A 2-bit element of `CMD` (30 R81). -/
abbrev CmdCode := BitVec 2

/-- A symbol of the closed alphabet: 0 to 255 are byte values, 256 is the end-of-stream marker (30 R82). -/
abbrev Symbol := Fin 257

/-- An index of the table `CF[0..257]`: no other index exists (20 R51). -/
abbrev TableIndex := Fin 258

/-- The table contents, 258 unsigned 32-bit words (40 R110, 00 R6). -/
abbrev Table := Vector Word 258

end Sys2Proof
end

