-- ==== Sys2Proof/Config.lean ====
section
/-! DEFINITION. What one instance of the core fixes, and the free values: the parameters of spec/00_scope.md R6
(`CF`, `UFC_BITS`), and what each register holds after a RESET, which spec/10_state.md R37 leaves unspecified. -/

namespace Sys2Proof

/-- The two parameters of the core (00 R6, 92 "Open parameters"). They are data that the state carries, so a claim
about every state is a claim for every table and every counter width (log 3). -/
structure Config where
  /-- `CF[0..257]` (40 R110). -/
  cf : Table
  /-- `UFC_BITS`, at least 1 (92 D7). -/
  ufcBits : Nat
  deriving DecidableEq, Repr

/-! Free values (log 2): what each register that RESET does not set holds after the `n`-th RESET. The spec says
"unspecified" and asks that no proof lean on a value (10 R37, 70 R271), so no body stands here and none may be assumed. -/

opaque Config.freeLower : Nat → Word
opaque Config.freeUpper : Nat → Word
/-- Cut to `UFC_BITS` bits where it is used. -/
opaque Config.freeUfc : Nat → Nat
opaque Config.freeWindow : Nat → Word
opaque Config.freeSym : Nat → SymCode
opaque Config.freeLow : Nat → Word
opaque Config.freeHigh : Nat → Word
opaque Config.freeRange : Nat → BitVec 33
opaque Config.freeScaled : Nat → Word
opaque Config.freeFillcnt : Nat → BitVec 6
/-- `true` stands for DEC. -/
opaque Config.freeMode : Nat → Bool
opaque Config.freeAcc : Nat → Byte
opaque Config.freeNbits : Nat → BitVec 3
opaque Config.freeIbuf : Nat → Byte
opaque Config.freeIcnt : Nat → BitVec 4
opaque Config.freeLastbit : Nat → Bool
opaque Config.freeHavelast : Nat → Bool

end Sys2Proof
end

