-- ==== Sys2Proof/Machine/Tables.lean ====
section
/-! DEFINITION. The two named tables of spec/40_frequency_model.md: `CF_LETTERS52` (R115, the default, total 329) and
`CF_RANGE58` (R116, total 335). -/

namespace Sys2Proof.Machine

/-- The boundaries of `CF_LETTERS52`, sixteen a row, as R115 prints them. -/
def letters52Boundaries : List Nat :=
  [0, 1, 2, 3, 4, 5, 6, 7, 8, 9, 10, 11, 12, 13, 14, 15]
    ++ [16, 17, 18, 19, 20, 21, 22, 23, 24, 25, 26, 27, 28, 29, 30, 31]
    ++ [32, 33, 34, 35, 36, 37, 38, 39, 40, 41, 42, 43, 44, 45, 46, 47]
    ++ [48, 49, 50, 51, 52, 53, 54, 55, 56, 57, 58, 59, 60, 61, 62, 63]
    ++ [64, 65, 69, 71, 73, 75, 79, 81, 83, 85, 89, 91, 93, 95, 97, 99]
    ++ [103, 105, 107, 109, 111, 113, 117, 119, 121, 123, 125, 127, 128, 129, 130, 131]
    ++ [132, 133, 137, 139, 141, 143, 147, 149, 151, 153, 157, 159, 161, 163, 165, 167]
    ++ [171, 173, 175, 177, 179, 181, 185, 187, 189, 191, 193, 195, 196, 197, 198, 199]
    ++ [200, 201, 202, 203, 204, 205, 206, 207, 208, 209, 210, 211, 212, 213, 214, 215]
    ++ [216, 217, 218, 219, 220, 221, 222, 223, 224, 225, 226, 227, 228, 229, 230, 231]
    ++ [232, 233, 234, 235, 236, 237, 238, 239, 240, 241, 242, 243, 244, 245, 246, 247]
    ++ [248, 249, 250, 251, 252, 253, 254, 255, 256, 257, 258, 259, 260, 261, 262, 263]
    ++ [264, 265, 266, 267, 268, 269, 270, 271, 272, 273, 274, 275, 276, 277, 278, 279]
    ++ [280, 281, 282, 283, 284, 285, 286, 287, 288, 289, 290, 291, 292, 293, 294, 295]
    ++ [296, 297, 298, 299, 300, 301, 302, 303, 304, 305, 306, 307, 308, 309, 310, 311]
    ++ [312, 313, 314, 315, 316, 317, 318, 319, 320, 321, 322, 323, 324, 325, 326, 327]
    ++ [328, 329]

/-- The table of 258 given boundaries. -/
def tableOf (l : List Nat) (h : l.length = 258) : Table := ⟨(l.map (BitVec.ofNat 32)).toArray, by simpa using h⟩

/-- 40 R115, the default table. -/
def cfLetters52 : Table := tableOf letters52Boundaries (by decide +kernel)

/-- 40 R116: equal to `CF_LETTERS52` up to index 91, then more by `i - 91` up to index 97, then more by 6. -/
def range58Boundaries : List Nat :=
  letters52Boundaries.zipIdx.map fun (b, i) => if i ≤ 91 then b else if i ≤ 97 then b + (i - 91) else b + 6

/-- 40 R116. -/
def cfRange58 : Table := tableOf range58Boundaries (by decide +kernel)

/-- The parameters of the default build (00 R6): `CF_LETTERS52` and a 32-bit underflow counter. -/
def defaultConfig : Config where
  cf := cfLetters52
  ufcBits := 32

end Sys2Proof.Machine
end

