-- ==== Sys2Proof/Syntax.lean ====
section
/-! DEFINITION. The operations of the core: one constructor per row of spec/opcode_table.json, in the table's order. -/

namespace Sys2Proof

/-- The 32 operations. The first four are command codes, the next three symbol codes, the next six patterns of the
renormaliser, the next eleven phase codes; the last eight are the sub-operations that no code selects (30 R80). -/
inductive Instr where
  /-- Command `00` (45 R225). -/
  | nop
  /-- Command `01` (45 R223). -/
  | startEnc
  /-- Command `10` (45 R224). -/
  | startDec
  /-- Command `11`, reserved (45 R225). -/
  | cmdReserved
  /-- Symbol code `0vvvvvvvv` (42 R162, 30 R82). -/
  | fetchByte (v : Byte)
  /-- Symbol code `100000000` (42 R162, 30 R82). -/
  | fetchEof
  /-- Symbol code `1vvvvvvvv` with `v` not 0 (30 R83). -/
  | symIllegal (v : Byte)
  /-- Pattern `0x0y` (41 R136, `b = 0`). -/
  | rnE1b0 (x y : Bool)
  /-- Pattern `1x1y` (41 R136, `b = 1`). -/
  | rnE1b1 (x y : Bool)
  /-- Pattern `0110` (41 R138). -/
  | rnE3
  /-- Pattern `001y` (41 R140). -/
  | rnTerm001 (y : Bool)
  /-- Pattern `0111` (41 R140). -/
  | rnTerm0111
  /-- Pattern `1x0y` (41 R142). -/
  | rnUnreachable (x y : Bool)
  /-- Phase code 0 (45 R222). -/
  | phIdle
  /-- Phase code 1 (42 R162). -/
  | phFetch
  /-- Phase code 2 (41 R131). -/
  | phNarrow
  /-- Phase code 3 (30 R85). -/
  | phRenorm
  /-- Phase code 4 (42 R167). -/
  | phFinish
  /-- Phase code 5 (43 R182). -/
  | phFill
  /-- Phase code 6 (43 R183). -/
  | phScale
  /-- Phase code 7 (43 R185). -/
  | phSearch
  /-- Phase code 8 (45 R222). -/
  | phDone
  /-- Phase code 15 (60 R247). -/
  | phFault
  /-- Phase code `1ppp`, 9 to 14, unused (30 R86). -/
  | phUnused (p : BitVec 3)
  /-- `LOOKUP(s)` (40 R118). -/
  | lookup (s : Symbol)
  /-- `PUTBIT(b)` (44 R201). -/
  | putbit (b : Bool)
  /-- `PADFLUSH` (44 R203). -/
  | padflush
  /-- `GETBIT` (44 R205). -/
  | getbit
  /-- `EMIT(b)` (42 R163). -/
  | emit (b : Bool)
  /-- `DEFER` (42 R164). -/
  | defer
  /-- `CONSUME_SHIFT` (43 R187). -/
  | consumeShift
  /-- `CONSUME_SPLICE` (43 R188). -/
  | consumeSplice
  deriving DecidableEq, Repr

end Sys2Proof
end

