-- ==== Sys2Proof/Machine/State.lean ====
section
/-! DEFINITION. The architectural state of spec/10_state.md, the ports, the host's moves, and the state after reset. -/

namespace Sys2Proof.Machine

/-- The ten legal values of `PHASE` (10 R26, 30 R86): an enumeration, so that codes 9 to 14 cannot be held. -/
inductive Phase where
  | idle
  | fetch
  | narrow
  | renorm
  | finish
  | fill
  | scale
  | search
  | done
  | fault
  deriving DecidableEq, Repr

/-- `MODE` (10 R27): 0 is encode, 1 is decode. -/
inductive Mode where
  | enc
  | dec
  deriving DecidableEq, Repr

/-- The seven legal values of `FCODE` (10 R28, 60 R241); code 7 is never written. -/
inductive FCode where
  | none
  | config
  | illsym
  | ufcovf
  | nobits
  | invariant
  | illcmd
  deriving DecidableEq, Repr

/-- What the host may do between two steps of the core (45 R232, 10 R37). -/
inductive HostAction where
  /-- Assert `RESET`. -/
  | reset
  /-- Push a command code to `CMD`. -/
  | cmd (c : CmdCode)
  /-- Push a 9-bit code to `SYM_IN`. -/
  | sym (c : SymCode)
  /-- Push a byte to `CODE_IN`. -/
  | code (b : Byte)
  /-- Set `CODE_IN_END`. -/
  | codeEnd
  /-- Pop the oldest byte of `CODE_OUT`. -/
  | popCodeOut
  /-- Pop the oldest byte of `BYTE_OUT`. -/
  | popByteOut
  /-- Empty the four data ports and clear `CODE_IN_END`. -/
  | emptyPorts
  /-- Replace the table. -/
  | loadTable (t : Table)
  /-- Read `STATUS`. -/
  | readStatus
  deriving DecidableEq, Repr

/-- Who moves: the core, or the host with an action (45 R229: the moves interleave in any order). -/
inductive Move where
  | core
  | host (a : HostAction)
  deriving DecidableEq, Repr

/-- The state of one core and its ports. The field names are the register names of 10 section 8 in lower case.
`low` and `high` are the latches of 10 R23, `lower` and `upper` the interval of 10 R20. -/
structure State where
  /-- `LOWER[31:0]`, 10 R20. -/
  lower : Word
  /-- `UPPER[31:0]`, 10 R20. -/
  upper : Word
  /-- `UFC[UFC_BITS-1:0]`, 10 R21: below `2 ^ cfg.ufcBits` (log 11). -/
  ufc : Nat
  /-- `WINDOW[31:0]`, 10 R22. -/
  window : Word
  /-- `SYM[8:0]`, 10 R23. -/
  sym : SymCode
  /-- `LOW[31:0]`, 10 R23. -/
  low : Word
  /-- `HIGH[31:0]`, 10 R23. -/
  high : Word
  /-- `RANGE[32:0]`, 10 R24. -/
  range : BitVec 33
  /-- `SCALED[31:0]`, 10 R24. -/
  scaled : Word
  /-- `FILLCNT[5:0]`, 10 R25. -/
  fillcnt : BitVec 6
  /-- `PHASE[3:0]`, the program counter, 10 R26. -/
  phase : Phase
  /-- `MODE`, 10 R27. -/
  mode : Mode
  /-- `FCODE[2:0]`, 10 R28. -/
  fcode : FCode
  /-- `ACC[7:0]`, 10 R31. -/
  acc : Byte
  /-- `NBITS[2:0]`, 10 R31. -/
  nbits : BitVec 3
  /-- `IBUF[7:0]`, 10 R32. -/
  ibuf : Byte
  /-- `ICNT[3:0]`, 10 R32. -/
  icnt : BitVec 4
  /-- `LASTBIT`, 10 R32. -/
  lastbit : Bool
  /-- `HAVELAST`, 10 R32. -/
  havelast : Bool
  /-- Port `SYM_IN`, oldest first, 10 R33. -/
  symIn : List SymCode
  /-- Port `CODE_OUT`, oldest first, 10 R33. -/
  codeOut : List Byte
  /-- Port `CODE_IN`, oldest first, 10 R33. -/
  codeIn : List Byte
  /-- Flag `CODE_IN_END`, 10 R33. -/
  codeInEnd : Bool
  /-- Port `BYTE_OUT`, oldest first, 10 R33. -/
  byteOut : List Byte
  /-- Port `CMD`, oldest first, 10 R33. -/
  cmd : List CmdCode
  /-- The parameters `CF` and `UFC_BITS`, 10 R34, 00 R6 (log 3). -/
  cfg : Config
  /-- The model's own: the moves to come, oldest first; with none left the core moves (log 5). -/
  schedule : List Move
  /-- The model's own: how many `RESET`s there have been, the argument of the free values (log 2). -/
  resets : Nat
  deriving DecidableEq, Repr

/-- Outcomes outside the architecture. There is none: every fault of 60 R241 is a next state with `FCODE` written and
`PHASE = FAULT` (60 R246), so no operation raises a `Fault` and this type has no constructor. -/
inductive Fault where
  deriving DecidableEq, Repr

/-- Why a move has no meaning. -/
inductive Refusal where
  /-- Raised by an arm of `exec` whose operation has no meaning yet. Safe: nothing is claimed of it. -/
  | notModelled (mnemonic : String)
  /-- Raised by PH_UNUSED: no rule gives phase codes 9 to 14 an effect (30 R86, R88). Safe: no state holds such a code. -/
  | unusedPhaseCode
  /-- Raised by the host's `loadTable` when `PHASE` is not IDLE or DONE: what happens is unsaid (20 R65, 70 R273).
  Safe: no claim covers such a run. -/
  | tableReplacedInSession
  /-- Raised by the host's `code` after it has set `CODE_IN_END`: the effect is unsaid (44 R205, 93 U15).
  Safe: no claim covers such a run. -/
  | codeAfterEnd
  /-- Raised by the host's `emptyPorts` while the core is BUSY: the spec has the host empty the ports between
  sessions only (45 R232). Safe: no claim covers such a run. -/
  | portsEmptiedInSession
  deriving DecidableEq, Repr

/-- The machine right after reset. The spec gives `PHASE = IDLE`, `FCODE = 0` and an empty `CMD` (10 R37, 70 R270);
the other registers, unspecified there, hold the values log 1 names; the host-owned data ports are empty (log 22);
the parameters are the spec's defaults (log 3). -/
def State.reset : State where
  lower := 0
  upper := 0
  ufc := 0
  window := 0
  sym := 0
  low := 0
  high := 0
  range := 0
  scaled := 0
  fillcnt := 0
  phase := .idle
  mode := .enc
  fcode := .none
  acc := 0
  nbits := 0
  ibuf := 0
  icnt := 0
  lastbit := false
  havelast := false
  symIn := []
  codeOut := []
  codeIn := []
  codeInEnd := false
  byteOut := []
  cmd := []
  cfg := defaultConfig
  schedule := []
  resets := 0

end Sys2Proof.Machine
end

