-- ==== Sys2Proof/Machine/FrequencyModel.lean ====
section
/-! DEFINITION. The table's contract and its check: spec/40_frequency_model.md R110 to R114. -/

namespace Sys2Proof.Machine

/-- `CF[i]` (20 R51). -/
def cfAt (t : Table) (i : TableIndex) : Word := t.get i

/-- `TOTAL`, that is `CF[257]` (40 R117). -/
def total (t : Table) : Word := cfAt t (Fin.last 257)

/-- `CFValid` (40 R111): (a) is the table's type, (d) holds of any 32-bit word. -/
abbrev CFValid (t : Table) : Prop := cfAt t 0 = 0 ∧ ∀ s : Symbol, cfAt t s.castSucc < cfAt t s.succ

/-- `CFSafe` (40 R113): `CFValid` and `TOTAL <= 2^30 + 2`. -/
abbrev CFSafe (t : Table) : Prop := CFValid t ∧ (total t).toNat ≤ 2 ^ 30 + 2

/-- The symbol of a byte value (30 R82). -/
def symbolOfByte (v : Byte) : Symbol := ⟨v.toNat, by have := v.isLt; omega⟩

/-- `EOF_SYM` = 256 (00 R5). -/
def eofSymbol : Symbol := Fin.last 256

/-- `CF[s]`, the lower end of a symbol's range. -/
def lowOf (t : Table) (s : Symbol) : Word := cfAt t s.castSucc

/-- `CF[s + 1]`, the upper end of a symbol's range. -/
def highOf (t : Table) (s : Symbol) : Word := cfAt t s.succ

/-- LOOKUP(s) (40 R118). -/
def lookup (t : Table) (s : Symbol) : Word × Word := (lowOf t s, highOf t s)

/-- The least `n` with `CF[n + 1] > x`, the upward scan of 43 R186; 257 when there is none. -/
def searchIndex (t : Table) (x : Word) : Nat := (t.toList.drop 1).findIdx fun b => x < b

end Sys2Proof.Machine
end

