-- ==== Sys2Proof/Machine/Ops.lean ====
section
/-! DEFINITION. The named operations over registers and ports: taking a fault (spec/60_exceptions.md R246), the hold
(45 R231), the queues (00 R11), the one-bit shifts (41 R148), the bit packer and unpacker (44), and the parts of the
renormaliser that differ between the modes (42 R163, R164; 43 R187, R188). -/

namespace Sys2Proof.Machine

/-- The outcomes of this machine. -/
abbrev Out := Host.Outcome State Fault Refusal

/-! ## Taking a fault, and holding -/

/-- `raise Fault(c)` on the state before the step, less the element the step popped (60 R246): every other write is
discarded, `FCODE` takes the code, `PHASE` becomes FAULT. There is no return from a fault; its only exit is the
host's RESET, `State.afterReset`. -/
def State.raise (c : FCode) (s : State) : State := { s with fcode := c, phase := .fault }

/-- A step whose only effect is a fault. -/
def raiseFault (c : FCode) (s : State) : Out := .next (s.raise c)

/-- A held step: waiting costs no architectural state change (45 R231, 60 R255; log 4). -/
def hold (s : State) : Out := .next s

/-- What RESET leaves (10 R37): `PHASE`, `FCODE` and `CMD` as the spec says, the data ports and the parameters as they
were, and every other register a free value (log 2). -/
def State.afterReset (s : State) : State :=
  { s with
    phase := .idle
    fcode := .none
    cmd := []
    lower := Config.freeLower s.resets
    upper := Config.freeUpper s.resets
    ufc := Config.freeUfc s.resets % 2 ^ s.cfg.ufcBits
    window := Config.freeWindow s.resets
    sym := Config.freeSym s.resets
    low := Config.freeLow s.resets
    high := Config.freeHigh s.resets
    range := Config.freeRange s.resets
    scaled := Config.freeScaled s.resets
    fillcnt := Config.freeFillcnt s.resets
    mode := if Config.freeMode s.resets then .dec else .enc
    acc := Config.freeAcc s.resets
    nbits := Config.freeNbits s.resets
    ibuf := Config.freeIbuf s.resets
    icnt := Config.freeIcnt s.resets
    lastbit := Config.freeLastbit s.resets
    havelast := Config.freeHavelast s.resets
    resets := s.resets + 1 }

/-! ## The ports as queues -/

/-- Remove the oldest command (45 R222). -/
def State.popCmd (s : State) : State := { s with cmd := s.cmd.tail }

/-- Remove the oldest symbol code (42 R162). -/
def State.popSym (s : State) : State := { s with symIn := s.symIn.tail }

/-- `push(CODE_OUT, b)`. -/
def State.pushCodeOut (b : Byte) (s : State) : State := { s with codeOut := s.codeOut ++ [b] }

/-- `push(BYTE_OUT, b)`. -/
def State.pushByteOut (b : Byte) (s : State) : State := { s with byteOut := s.byteOut ++ [b] }

/-! ## The one-bit shifts -/

/-- `{w[30:0], b}` (41 R136, 43 R182, R187). -/
def shiftIn (w : Word) (b : Bool) : Word := (w.setWidth 31).concat b

/-- `{top, w[29:0], b}` (41 R138, 43 R188). -/
def spliceIn (top : Bool) (w : Word) (b : Bool) : Word := (BitVec.cons top (w.setWidth 30)).concat b

/-- The interval's shift in RN_E1: 0 into `LOWER[0]`, 1 into `UPPER[0]` (41 R136). -/
def State.shiftInterval (s : State) : State :=
  { s with lower := shiftIn s.lower false, upper := shiftIn s.upper true, phase := .renorm }

/-- The interval's splice in RN_E3: bit 30 is dropped, bit 31 becomes 0 in `LOWER` and 1 in `UPPER`, and the low end
is filled as in RN_E1 (41 R138). -/
def State.spliceInterval (s : State) : State :=
  { s with lower := spliceIn false s.lower false, upper := spliceIn true s.upper true, phase := .renorm }

/-! ## The bit packer -/

/-- `ACC[n] <- b`. -/
def setBit (acc : Byte) (n : BitVec 3) (b : Bool) : Byte :=
  if b then acc ||| (1#8 <<< n.toNat) else acc &&& ~~~(1#8 <<< n.toNat)

/-- PUTBIT(b) (44 R201). -/
def putBit (b : Bool) (s : State) : State :=
  if s.nbits = 7#3 then
    { s with codeOut := s.codeOut ++ [setBit s.acc s.nbits b], acc := 0, nbits := 0 }
  else
    { s with acc := setBit s.acc s.nbits b, nbits := s.nbits + 1 }

/-- `n` times PUTBIT(b). -/
def putBits : Nat → Bool → State → State
  | 0, _, s => s
  | n + 1, b, s => putBits n b (putBit b s)

/-- How many padding bits complete the byte in progress (44 R203). -/
def padCount (s : State) : Nat := (8 - s.nbits.toNat) % 8

/-- PADFLUSH (44 R203): one-bits until `NBITS = 0`. -/
def padFlush (s : State) : State := putBits (padCount s) true s

/-- EMIT(b) (42 R163): `b`, then `UFC` complements, then `UFC <- 0`. -/
def emit (b : Bool) (s : State) : State :=
  { putBits s.ufc (!b) (putBit b s) with ufc := 0 }

/-- DEFER (42 R164): none when the counter is at its maximum, which is the fault of 42 R165. -/
def defer (s : State) : Option State :=
  if s.ufc + 1 < 2 ^ s.cfg.ufcBits then some { s with ufc := s.ufc + 1 } else none

/-! ## The bit unpacker -/

/-- How an operation that takes a stream bit ends. -/
inductive BitRead where
  /-- A bit, and the state with it taken. -/
  | bit (b : Bool) (s : State)
  /-- The fault `F_NOBITS` (44 R206). -/
  | noBits
  /-- No bit yet: the step is held (45 R231). -/
  | held
  deriving DecidableEq, Repr

/-- Take the next real bit: `IBUF[0]` (44 R205). -/
def takeBit (s : State) : BitRead :=
  .bit (s.ibuf.getLsbD 0)
    { s with
      ibuf := s.ibuf >>> 1
      icnt := s.icnt - 1
      lastbit := s.ibuf.getLsbD 0
      havelast := true }

/-- GETBIT (44 R205), with its hold condition (45 R231 (c)). -/
def getBit (s : State) : BitRead :=
  if s.icnt = 0 then
    match s.codeIn with
    | b :: rest => takeBit { s with ibuf := b, icnt := 8, codeIn := rest }
    | [] =>
      if s.codeInEnd then
        if s.havelast then .bit s.lastbit s else .noBits
      else .held
  else takeBit s

/-- CONSUME_SHIFT (43 R187). -/
def consumeShift (s : State) : BitRead :=
  match getBit s with
  | .bit b t => .bit b { t with window := shiftIn t.window b }
  | .noBits => .noBits
  | .held => .held

/-- CONSUME_SPLICE (43 R188). -/
def consumeSplice (s : State) : BitRead :=
  match getBit s with
  | .bit b t => .bit b { t with window := spliceIn t.window.msb t.window b }
  | .noBits => .noBits
  | .held => .held

/-- End a step that takes a stream bit: what follows the bit, or the fault, or the hold. -/
def afterBit (r : BitRead) (s : State) (f : Bool → State → State) : Out :=
  match r with
  | .bit b t => .next (f b t)
  | .noBits => raiseFault .nobits s
  | .held => hold s

end Sys2Proof.Machine
end

