-- ==== Sys2Proof/Machine/Cmd.lean ====
section
/-! DEFINITION. The command codes: spec/45_sequencer.md R222 to R225. Each removes the oldest command, which stays
removed when the command raises a fault (60 R246). -/

namespace Sys2Proof.Machine

/-- NOP (45 R225): consumed, and nothing else. -/
def execNop (s : State) : Out := .next s.popCmd

/-- START_ENC (45 R223): the table is checked before anything is written. -/
def execStartEnc (s : State) : Out :=
  if CFSafe s.cfg.cf then
    .next { s.popCmd with
      mode := .enc
      lower := 0
      upper := 0xFFFFFFFF
      ufc := 0
      acc := 0
      nbits := 0
      phase := .fetch }
  else raiseFault .config s.popCmd

/-- START_DEC (45 R224): the table is checked before anything is written. -/
def execStartDec (s : State) : Out :=
  if CFSafe s.cfg.cf then
    .next { s.popCmd with
      mode := .dec
      lower := 0
      upper := 0xFFFFFFFF
      window := 0
      fillcnt := 0
      icnt := 0
      havelast := false
      phase := .fill }
  else raiseFault .config s.popCmd

/-- Command `11` (45 R225): `F_ILLCMD`. -/
def execCmdReserved (s : State) : Out := raiseFault .illcmd s.popCmd

end Sys2Proof.Machine
end

