-- ==== Sys2Proof/Machine/Fetch.lean ====
section
/-! DEFINITION. FETCH and the symbol codes: spec/42_encoder.md R162, spec/30_encoding.md R82 and R83. Each removes the
oldest element of `SYM_IN`, which stays removed when it raises a fault (60 R246). -/

namespace Sys2Proof.Machine

/-- FETCH of the symbol `x` (42 R162). -/
def fetchSymbol (x : Symbol) (s : State) : Out :=
  .next { s.popSym with
    sym := BitVec.ofNat 9 x.val
    low := (lookup s.cfg.cf x).1
    high := (lookup s.cfg.cf x).2
    phase := .narrow }

/-- FETCH of byte symbol `v`. -/
def execFetchByte (v : Byte) (s : State) : Out := fetchSymbol (symbolOfByte v) s

/-- FETCH of `EOF_SYM`. -/
def execFetchEof (s : State) : Out := fetchSymbol eofSymbol s

/-- FETCH of a code 257 to 511: `F_ILLSYM`, before `SYM` is written (60 R245). -/
def execSymIllegal (s : State) : Out := raiseFault .illsym s.popSym

end Sys2Proof.Machine
end

