-- ==== Sys2Proof/WellFormed.lean ====
section
/-! DEFINITION. Which terms of `Instr` stand for a code of the hardware: the operand limits of spec/30_encoding.md
R83 (an illegal symbol code has `v` not 0) and R86 (an unused phase code is 9 to 14). -/

namespace Sys2Proof

/-- The operand limits of the two rows whose pattern another row of the same format narrows. -/
def Instr.wellFormed : Instr → Bool
  | .nop => true
  | .startEnc => true
  | .startDec => true
  | .cmdReserved => true
  | .fetchByte _ => true
  | .fetchEof => true
  | .symIllegal v => v != 0
  | .rnE1b0 _ _ => true
  | .rnE1b1 _ _ => true
  | .rnE3 => true
  | .rnTerm001 _ => true
  | .rnTerm0111 => true
  | .rnUnreachable _ _ => true
  | .phIdle => true
  | .phFetch => true
  | .phNarrow => true
  | .phRenorm => true
  | .phFinish => true
  | .phFill => true
  | .phScale => true
  | .phSearch => true
  | .phDone => true
  | .phFault => true
  | .phUnused p => p != 0 && p != 7
  | .lookup _ => true
  | .putbit _ => true
  | .padflush => true
  | .getbit => true
  | .emit _ => true
  | .defer => true
  | .consumeShift => true
  | .consumeSplice => true

end Sys2Proof
end

