-- ==== Sys2Proof/Decode.lean ====
section
/-! DEFINITION. The four code formats of spec/30_encoding.md R80: which operation each code selects, and the code of
each operation. The format of a code is known from the port or register it is read from, never from the code. -/

namespace Sys2Proof

/-- The formats of 30 R80. `prim` is the format name of the operations that no code selects. -/
inductive Format where
  | cmd
  | sym
  | rn
  | ph
  | prim
  deriving DecidableEq, Repr

/-- The width of a code, in bits (30 R80). -/
def Format.width : Format → Nat
  | .cmd => 2
  | .sym => 9
  | .rn => 4
  | .ph => 4
  | .prim => 0

/-- What a command code selects (30 R81). -/
inductive CmdOp where
  | nop
  | startEnc
  | startDec
  | reserved
  deriving DecidableEq, Repr

/-- What a symbol code selects (30 R82, R83). -/
inductive SymOp where
  | byte (v : Byte)
  | eof
  | illegal (v : Byte)
  deriving DecidableEq, Repr

/-- What a pattern `RN` selects (30 R85), with the bits `x = LOWER[30]` and `y = UPPER[30]` the row leaves free. -/
inductive RnOp where
  | e1b0 (x y : Bool)
  | e1b1 (x y : Bool)
  | e3
  | term001 (y : Bool)
  | term0111
  | unreachable (x y : Bool)
  deriving DecidableEq, Repr

def CmdOp.toInstr : CmdOp → Instr
  | .nop => .nop
  | .startEnc => .startEnc
  | .startDec => .startDec
  | .reserved => .cmdReserved

def SymOp.toInstr : SymOp → Instr
  | .byte v => .fetchByte v
  | .eof => .fetchEof
  | .illegal v => .symIllegal v

def RnOp.toInstr : RnOp → Instr
  | .e1b0 x y => .rnE1b0 x y
  | .e1b1 x y => .rnE1b1 x y
  | .e3 => .rnE3
  | .term001 y => .rnTerm001 y
  | .term0111 => .rnTerm0111
  | .unreachable x y => .rnUnreachable x y

/-- 30 R81. -/
def decodeCmd (c : CmdCode) : CmdOp :=
  if c = 0b00#2 then .nop
  else if c = 0b01#2 then .startEnc
  else if c = 0b10#2 then .startDec
  else .reserved

/-- 30 R82 and R83, the rows tested in the order of their priority (30 R91): bit 8 is `e`, bits 7 to 0 are `v`. -/
def decodeSym (c : SymCode) : SymOp :=
  if c.msb = false then .byte (c.setWidth 8)
  else if c = 0b100000000#9 then .eof
  else .illegal (c.setWidth 8)

/-- 30 R85: `a = c` is tested first, whatever `x` and `y` are, then the patterns with `a = 1`, `c = 0`, which mean
`LOWER > UPPER`, then E3, and what is left is terminal. -/
def decodeRn (p : BitVec 4) : RnOp :=
  let a := p.getLsbD 3
  let x := p.getLsbD 2
  let c := p.getLsbD 1
  let y := p.getLsbD 0
  if a = c then (if a then .e1b1 x y else .e1b0 x y)
  else if a then .unreachable x y
  else if x = true ∧ y = false then .e3
  else if x then .term0111
  else .term001 y

/-- 30 R86. -/
def decodePh (p : BitVec 4) : Instr :=
  if p = 0#4 then .phIdle
  else if p = 1#4 then .phFetch
  else if p = 2#4 then .phNarrow
  else if p = 3#4 then .phRenorm
  else if p = 4#4 then .phFinish
  else if p = 5#4 then .phFill
  else if p = 6#4 then .phScale
  else if p = 7#4 then .phSearch
  else if p = 8#4 then .phDone
  else if p = 15#4 then .phFault
  else .phUnused (p.setWidth 3)

/-- Why a code is not decoded. -/
inductive DecodeError where
  /-- The number does not fit the format's width. -/
  | tooWide
  /-- The format `PRIM` has an empty pattern: no code selects its operations (30 R80). -/
  | noCode
  deriving DecidableEq, Repr

/-- The operation a code of format `f` selects. -/
def decode (f : Format) (w : Nat) : Except DecodeError Instr :=
  if f = .prim then .error .noCode
  else if 2 ^ f.width ≤ w then .error .tooWide
  else match f with
    | .cmd => .ok (decodeCmd (BitVec.ofNat 2 w)).toInstr
    | .sym => .ok (decodeSym (BitVec.ofNat 9 w)).toInstr
    | .rn => .ok (decodeRn (BitVec.ofNat 4 w)).toInstr
    | .ph => .ok (decodePh (BitVec.ofNat 4 w))
    | .prim => .error .noCode

/-- The format a row of the table has (30 R91). -/
def Instr.format : Instr → Format
  | .nop => .cmd
  | .startEnc => .cmd
  | .startDec => .cmd
  | .cmdReserved => .cmd
  | .fetchByte _ => .sym
  | .fetchEof => .sym
  | .symIllegal _ => .sym
  | .rnE1b0 _ _ => .rn
  | .rnE1b1 _ _ => .rn
  | .rnE3 => .rn
  | .rnTerm001 _ => .rn
  | .rnTerm0111 => .rn
  | .rnUnreachable _ _ => .rn
  | .phIdle => .ph
  | .phFetch => .ph
  | .phNarrow => .ph
  | .phRenorm => .ph
  | .phFinish => .ph
  | .phFill => .ph
  | .phScale => .ph
  | .phSearch => .ph
  | .phDone => .ph
  | .phFault => .ph
  | .phUnused _ => .ph
  | .lookup _ => .prim
  | .putbit _ => .prim
  | .padflush => .prim
  | .getbit => .prim
  | .emit _ => .prim
  | .defer => .prim
  | .consumeShift => .prim
  | .consumeSplice => .prim

/-- The four bits `a x c y` of a pattern as a number (30 R84). -/
def rnBits (a x c y : Bool) : Nat := 8 * a.toNat + 4 * x.toNat + 2 * c.toNat + y.toNat

/-- The code of an operation, written from the tables of 30 R81 to R86; the operations of format `PRIM` have the
empty code. -/
def encode : Instr → Nat
  | .nop => 0b00
  | .startEnc => 0b01
  | .startDec => 0b10
  | .cmdReserved => 0b11
  | .fetchByte v => v.toNat
  | .fetchEof => 0b100000000
  | .symIllegal v => 0b100000000 + v.toNat
  | .rnE1b0 x y => rnBits false x false y
  | .rnE1b1 x y => rnBits true x true y
  | .rnE3 => 0b0110
  | .rnTerm001 y => rnBits false false true y
  | .rnTerm0111 => 0b0111
  | .rnUnreachable x y => rnBits true x false y
  | .phIdle => 0
  | .phFetch => 1
  | .phNarrow => 2
  | .phRenorm => 3
  | .phFinish => 4
  | .phFill => 5
  | .phScale => 6
  | .phSearch => 7
  | .phDone => 8
  | .phFault => 15
  | .phUnused p => 8 + p.toNat
  | .lookup _ => 0
  | .putbit _ => 0
  | .padflush => 0
  | .getbit => 0
  | .emit _ => 0
  | .defer => 0
  | .consumeShift => 0
  | .consumeSplice => 0

/-- The format of a code of which only the number of bits is known, in whole bytes or in the table's own width. Three
formats share the one-byte numbers, and such a number is read as a phase code, since `PHASE` is what selects a step
(10 R26); the other two formats are read where their own width is given (log 12). -/
def formatOfWidth (nbits : Nat) : Option Format :=
  if nbits = 2 then some .cmd
  else if nbits = 4 ∨ nbits = 8 then some .ph
  else if nbits = 9 ∨ nbits = 16 then some .sym
  else none

/-- What the decoder reads from a row's code `w` of `nbits` bits. -/
def decodeTableWord (nbits w : Nat) : Option Instr :=
  match formatOfWidth nbits with
  | none => none
  | some f =>
    match decode f w with
    | .ok i => some i
    | .error _ => none

end Sys2Proof
end

