-- ==== Sys2Proof/Machine/Flags.lean ====
section
/-! DEFINITION. What is derived from the registers: `STATUS`, BUSY, DONE and FAULTED (spec/10_state.md R29), the
pattern `RN` (30 R84), and which steps are held (45 R231). No operation has a flag side effect (10 R29). -/

namespace Sys2Proof.Machine

/-- The phase codes of 30 R86. -/
def Phase.code : Phase → BitVec 4
  | .idle => 0
  | .fetch => 1
  | .narrow => 2
  | .renorm => 3
  | .finish => 4
  | .fill => 5
  | .scale => 6
  | .search => 7
  | .done => 8
  | .fault => 15

/-- `MODE` as a bit (10 R27). -/
def Mode.bit : Mode → BitVec 1
  | .enc => 0
  | .dec => 1

/-- The fault codes of 10 R28. -/
def FCode.code : FCode → BitVec 3
  | .none => 0
  | .config => 1
  | .illsym => 2
  | .ufcovf => 3
  | .nobits => 4
  | .invariant => 5
  | .illcmd => 6

/-- `STATUS[7:0] = {FCODE, MODE, PHASE}` (10 R29). -/
def State.status (s : State) : BitVec 8 := s.fcode.code ++ s.mode.bit ++ s.phase.code

/-- BUSY: `PHASE` is not IDLE, DONE or FAULT (10 R29). -/
def State.busy (s : State) : Bool := s.phase != .idle && s.phase != .done && s.phase != .fault

/-- FAULTED: `FCODE` is not 0 (10 R29). -/
def State.faulted (s : State) : Bool := s.fcode != .none

/-- `RN = {LOWER[31], LOWER[30], UPPER[31], UPPER[30]}` (30 R84). -/
def rnPattern (l u : Word) : BitVec 4 :=
  BitVec.ofBool (l.getLsbD 31) ++ BitVec.ofBool (l.getLsbD 30) ++ BitVec.ofBool (u.getLsbD 31)
    ++ BitVec.ofBool (u.getLsbD 30)

/-- A step that takes a stream bit is enabled (45 R231 (c), 44 R205). -/
def State.bitAvailable (s : State) : Bool := s.icnt != 0 || !s.codeIn.isEmpty || s.codeInEnd

/-- The pattern selects RN_E1 or RN_E3, which take a stream bit in decode mode. -/
def RnOp.takesBit : RnOp → Bool
  | .e1b0 _ _ => true
  | .e1b1 _ _ => true
  | .e3 => true
  | .term001 _ => false
  | .term0111 => false
  | .unreachable _ _ => false

/-- The core is held: the cases (a), (b), (c) of 45 R231. -/
def State.held (s : State) : Bool :=
  match s.phase with
  | .idle => s.cmd.isEmpty
  | .done => s.cmd.isEmpty
  | .fetch => s.symIn.isEmpty
  | .fill => !s.bitAvailable
  | .renorm => s.mode == .dec && RnOp.takesBit (decodeRn (rnPattern s.lower s.upper)) && !s.bitAvailable
  | .narrow => false
  | .finish => false
  | .scale => false
  | .search => false
  | .fault => false

end Sys2Proof.Machine
end

