-- ==== Sys2Proof/Machine/Operands.lean ====
section
/-! DEFINITION. How the operands and results of NARROW and SCALE are formed: spec/30_encoding.md R87,
spec/41_interval_coder.md R131 and R147, spec/43_decoder.md R183. Everything is computed exactly over the natural
numbers from zero-extended operands and narrowed once at the end. -/

namespace Sys2Proof.Machine

/-- `upper - lower + 1`, 1 to `2^32` (41 R131); 0 only where `lower > upper`, which no run reaches (log 9). -/
def intervalRange (l u : Word) : Nat := u.toNat + 1 - l.toNat

/-- `lower'`, from the old `LOWER` (41 R131). -/
def narrowLow (l u low tot : Word) : Nat := l.toNat + intervalRange l u * low.toNat / tot.toNat

/-- `upper' + 1`, from the old `LOWER` (41 R131). -/
def narrowEnd (l u high tot : Word) : Nat := l.toNat + intervalRange l u * high.toNat / tot.toNat

/-- NARROW's two results, `lower'` then `upper'`. None where `lower' > upper'` (41 R133). DESIGN CHOICE (log 9), in
states no run reaches: none also where `upper'` does not fit its register, which a latch `HIGH` above `TOTAL` could give,
and where `TOTAL` is 0, since both quotients are then 0. -/
def narrowed (l u low high tot : Word) : Option (Word × Word) :=
  if narrowLow l u low tot < narrowEnd l u high tot ∧ narrowEnd l u high tot ≤ 2 ^ 32 then
    some (BitVec.ofNat 32 (narrowLow l u low tot), BitVec.ofNat 32 (narrowEnd l u high tot - 1))
  else none

/-- SCALE's quotient (43 R183). -/
def scaledPosition (l u w tot : Word) : Nat :=
  ((w.toNat + 1 - l.toNat) * tot.toNat - 1) / intervalRange l u

end Sys2Proof.Machine
end

