-- ==== Sys2Proof/Machine/Renorm.lean ====
section
/-! DEFINITION. The renormaliser's patterns: spec/41_interval_coder.md R136, R138, R140, R142. -/

namespace Sys2Proof.Machine

/-- RN_E1 with determinate bit `b` (41 R136). -/
def renormE1 (b : Bool) (s : State) : Out :=
  match s.mode with
  | .enc => .next (emit b s).shiftInterval
  | .dec => afterBit (consumeShift s) s fun _ t => t.shiftInterval

/-- RN_E3 (41 R138). -/
def renormE3 (s : State) : Out :=
  match s.mode with
  | .enc =>
    match defer s with
    | some t => .next t.spliceInterval
    | none => raiseFault .ufcovf s
  | .dec => afterBit (consumeSplice s) s fun _ t => t.spliceInterval

/-- RN_TERM (41 R140): writes `PHASE` and nothing else. -/
def renormTerm (s : State) : Out :=
  match s.mode with
  | .enc => .next { s with phase := if s.sym = 256#9 then .finish else .fetch }
  | .dec => .next { s with phase := .scale }

/-- Pattern `0x0y`. -/
def execRnE1b0 (s : State) : Out := renormE1 false s

/-- Pattern `1x1y`. -/
def execRnE1b1 (s : State) : Out := renormE1 true s

/-- Pattern `0110`. -/
def execRnE3 (s : State) : Out := renormE3 s

/-- Pattern `001y`. -/
def execRnTerm001 (s : State) : Out := renormTerm s

/-- Pattern `0111`. -/
def execRnTerm0111 (s : State) : Out := renormTerm s

/-- Pattern `1x0y`: `F_INVARIANT`, and `UFC` is not examined (41 R142, 60 R245). -/
def execRnUnreachable (s : State) : Out := raiseFault .invariant s

end Sys2Proof.Machine
end

