-- ==== Sys2Proof/Machine/Phases.lean ====
section
/-! DEFINITION. What each phase does: spec/30_encoding.md R86 and spec/45_sequencer.md R221. -/

namespace Sys2Proof.Machine

/-- In IDLE and DONE: held with no command, else the oldest command (45 R222). -/
def consumeCommand (s : State) : Out :=
  match s.cmd with
  | [] => hold s
  | c :: _ =>
    match decodeCmd c with
    | .nop => execNop s
    | .startEnc => execStartEnc s
    | .startDec => execStartDec s
    | .reserved => execCmdReserved s

/-- PHASE = IDLE. -/
def execPhIdle (s : State) : Out := consumeCommand s

/-- PHASE = DONE. -/
def execPhDone (s : State) : Out := consumeCommand s

/-- PHASE = FETCH (42 R162): held with no symbol, else the oldest code. -/
def execPhFetch (s : State) : Out :=
  match s.symIn with
  | [] => hold s
  | c :: _ =>
    match decodeSym c with
    | .byte v => execFetchByte v s
    | .eof => execFetchEof s
    | .illegal _ => execSymIllegal s

/-- PHASE = NARROW (41 R131): `F_INVARIANT` where `narrowed` has no result (41 R133, 60 R241, log 9). -/
def execPhNarrow (s : State) : Out :=
  match narrowed s.lower s.upper s.low s.high (total s.cfg.cf) with
  | some (l, u) => .next { s with lower := l, upper := u, phase := .renorm }
  | none => raiseFault .invariant s

/-- PHASE = RENORM (30 R85): the operation the pattern selects. -/
def execPhRenorm (s : State) : Out :=
  match decodeRn (rnPattern s.lower s.upper) with
  | .e1b0 _ _ => execRnE1b0 s
  | .e1b1 _ _ => execRnE1b1 s
  | .e3 => execRnE3 s
  | .term001 _ => execRnTerm001 s
  | .term0111 => execRnTerm0111 s
  | .unreachable _ _ => execRnUnreachable s

/-- PHASE = FINISH (42 R167): the marker bits are put directly, not through EMIT. -/
def execPhFinish (s : State) : Out :=
  .next { padFlush (putBit true (putBit false s)) with phase := .done }

/-- PHASE = FILL (43 R182). -/
def execPhFill (s : State) : Out :=
  afterBit (getBit s) s fun b t =>
    { t with
      window := shiftIn t.window b
      fillcnt := t.fillcnt + 1
      phase := if t.fillcnt.toNat + 1 = 32 then .scale else .fill }

/-- PHASE = SCALE (43 R183): `F_INVARIANT` with `WINDOW` outside the interval, and with `TOTAL = 0`, where the
numerator would be below zero and which no run reaches (log 9). -/
def execPhScale (s : State) : Out :=
  if s.lower ≤ s.window ∧ s.window ≤ s.upper ∧ total s.cfg.cf ≠ 0 then
    .next { s with
      range := BitVec.ofNat 33 (intervalRange s.lower s.upper)
      scaled := BitVec.ofNat 32 (scaledPosition s.lower s.upper s.window (total s.cfg.cf))
      phase := .search }
  else raiseFault .invariant s

/-- SEARCH's end when it finds the byte symbol `v` (43 R185): the byte is pushed before the interval is narrowed. -/
def foundByte (v : Byte) (s : State) : State :=
  { s.pushByteOut v with
    sym := v.setWidth 9
    low := (lookup s.cfg.cf (symbolOfByte v)).1
    high := (lookup s.cfg.cf (symbolOfByte v)).2
    phase := .narrow }

/-- PHASE = SEARCH (43 R185). Below `TOTAL` the scan ends at 256 at the latest. -/
def execPhSearch (s : State) : Out :=
  if s.scaled < total s.cfg.cf then
    if searchIndex s.cfg.cf s.scaled < 256 then
      .next (foundByte (BitVec.ofNat 8 (searchIndex s.cfg.cf s.scaled)) s)
    else .next { s with sym := 256#9, phase := .done }
  else raiseFault .invariant s

/-- PHASE = FAULT (60 R247): no operation, ever. -/
def execPhFault (s : State) : Out := .next s

/-- Phase codes 9 to 14 (30 R86, R88): no rule. -/
def execPhUnused (_s : State) : Out := .refused .unusedPhaseCode

end Sys2Proof.Machine
end

