-- ==== Sys2Proof/Machine/Prim.lean ====
section
/-! DEFINITION. The sub-operations that no code selects, each as an operation by itself: spec/30_encoding.md R80 and
the rules cited at each. None writes `PHASE`, but for a fault. -/

namespace Sys2Proof.Machine

/-- LOOKUP(x) (40 R118): "Writes nothing itself"; the pair it returns is `lookup`, which the caller stores (log 14). -/
def execLookup (x : Symbol) (s : State) : Out :=
  match lookup s.cfg.cf x with
  | (_, _) => .next s

/-- PUTBIT(b) (44 R201). -/
def execPutbit (b : Bool) (s : State) : Out := .next (putBit b s)

/-- PADFLUSH (44 R203). -/
def execPadflush (s : State) : Out := .next (padFlush s)

/-- GETBIT (44 R205). The bit it returns is `LASTBIT` afterwards. -/
def execGetbit (s : State) : Out := afterBit (getBit s) s fun _ t => t

/-- EMIT(b) (42 R163). -/
def execEmit (b : Bool) (s : State) : Out := .next (emit b s)

/-- DEFER (42 R164, R165). -/
def execDefer (s : State) : Out :=
  match defer s with
  | some t => .next t
  | none => raiseFault .ufcovf s

/-- CONSUME_SHIFT (43 R187). -/
def execConsumeShift (s : State) : Out := afterBit (consumeShift s) s fun _ t => t

/-- CONSUME_SPLICE (43 R188). -/
def execConsumeSplice (s : State) : Out := afterBit (consumeSplice s) s fun _ t => t

end Sys2Proof.Machine
end

