-- ==== Sys2Proof/Machine/Dispatch.lean ====
section
/-! DEFINITION. One arm per row of spec/opcode_table.json. -/

namespace Sys2Proof.Machine

/-- The effect of one operation. -/
def exec (i : Instr) (s : State) : Host.Outcome State Fault Refusal :=
  match i with
  | .nop => Sys2Proof.Machine.execNop s
  | .startEnc => Sys2Proof.Machine.execStartEnc s
  | .startDec => Sys2Proof.Machine.execStartDec s
  | .cmdReserved => Sys2Proof.Machine.execCmdReserved s
  | .fetchByte v => Sys2Proof.Machine.execFetchByte v s
  | .fetchEof => Sys2Proof.Machine.execFetchEof s
  | .symIllegal _ => Sys2Proof.Machine.execSymIllegal s
  | .rnE1b0 _ _ => Sys2Proof.Machine.execRnE1b0 s
  | .rnE1b1 _ _ => Sys2Proof.Machine.execRnE1b1 s
  | .rnE3 => Sys2Proof.Machine.execRnE3 s
  | .rnTerm001 _ => Sys2Proof.Machine.execRnTerm001 s
  | .rnTerm0111 => Sys2Proof.Machine.execRnTerm0111 s
  | .rnUnreachable _ _ => Sys2Proof.Machine.execRnUnreachable s
  | .phIdle => Sys2Proof.Machine.execPhIdle s
  | .phFetch => Sys2Proof.Machine.execPhFetch s
  | .phNarrow => Sys2Proof.Machine.execPhNarrow s
  | .phRenorm => Sys2Proof.Machine.execPhRenorm s
  | .phFinish => Sys2Proof.Machine.execPhFinish s
  | .phFill => Sys2Proof.Machine.execPhFill s
  | .phScale => Sys2Proof.Machine.execPhScale s
  | .phSearch => Sys2Proof.Machine.execPhSearch s
  | .phDone => Sys2Proof.Machine.execPhDone s
  | .phFault => Sys2Proof.Machine.execPhFault s
  | .phUnused _ => Sys2Proof.Machine.execPhUnused s
  | .lookup x => Sys2Proof.Machine.execLookup x s
  | .putbit b => Sys2Proof.Machine.execPutbit b s
  | .padflush => Sys2Proof.Machine.execPadflush s
  | .getbit => Sys2Proof.Machine.execGetbit s
  | .emit b => Sys2Proof.Machine.execEmit b s
  | .defer => Sys2Proof.Machine.execDefer s
  | .consumeShift => Sys2Proof.Machine.execConsumeShift s
  | .consumeSplice => Sys2Proof.Machine.execConsumeSplice s

end Sys2Proof.Machine
end

