-- ==== Sys2Proof/Machine/HostMoves.lean ====
section
/-! DEFINITION. The host's moves: spec/45_sequencer.md R232, spec/10_state.md R37, spec/93_implementation_defined.md
U15. The ports are queues, so a push is never lost (10 R33, 90 C8, log 7). Where the spec leaves a move's effect
unsaid the model chooses: three moves are refused by name (log 6), and a pop of an empty output port changes nothing
(log 23). -/

namespace Sys2Proof.Machine

/-- The effect of one host action. DESIGN CHOICE (log 23): `popCodeOut` and `popByteOut` on an empty queue change
nothing; the spec gives a pop only as removing the oldest element (00 R11, 45 R232 "drain"). -/
def hostAct (a : HostAction) (s : State) : Out :=
  match a with
  | .reset => .next s.afterReset
  | .cmd c => .next { s with cmd := s.cmd ++ [c] }
  | .sym c => .next { s with symIn := s.symIn ++ [c] }
  | .code b => if s.codeInEnd then .refused .codeAfterEnd else .next { s with codeIn := s.codeIn ++ [b] }
  | .codeEnd => .next { s with codeInEnd := true }
  | .popCodeOut => .next { s with codeOut := s.codeOut.tail }
  | .popByteOut => .next { s with byteOut := s.byteOut.tail }
  | .emptyPorts =>
    if s.busy then .refused .portsEmptiedInSession
    else .next { s with symIn := [], codeIn := [], codeOut := [], byteOut := [], codeInEnd := false }
  | .loadTable t =>
    if s.phase = .idle ∨ s.phase = .done then .next { s with cfg := { s.cfg with cf := t } }
    else .refused .tableReplacedInSession
  | .readStatus => .next s

end Sys2Proof.Machine
end

