-- ==== Sys2Proof/Machine/Sequencer.lean ====
section
/-! DEFINITION. Which operation the next step performs (spec/45_sequencer.md R229, spec/10_state.md R26), who moves
next, and how a code is put where the next step reads it. -/

namespace Sys2Proof.Machine

/-- The operation a phase names (30 R86). -/
def Phase.instr : Phase → Instr
  | .idle => .phIdle
  | .fetch => .phFetch
  | .narrow => .phNarrow
  | .renorm => .phRenorm
  | .finish => .phFinish
  | .fill => .phFill
  | .scale => .phScale
  | .search => .phSearch
  | .done => .phDone
  | .fault => .phFault

/-- The operation of the core's next step: none where `FCODE` is not 0 (45 R229), else the one `PHASE` names. -/
def currentInstr (s : State) : Instr := if s.fcode = .none then s.phase.instr else .phFault

/-- The next move, and the state with it taken from the schedule: the core's when the schedule is empty (log 5). -/
def nextMove (s : State) : Move × State :=
  match s.schedule with
  | [] => (.core, s)
  | m :: rest => (m, { s with schedule := rest })

/-- The phase a code names; none for 9 to 14 (30 R86). -/
def phaseOfCode (p : BitVec 4) : Option Phase :=
  if p = 0#4 then some .idle
  else if p = 1#4 then some .fetch
  else if p = 2#4 then some .narrow
  else if p = 3#4 then some .renorm
  else if p = 4#4 then some .finish
  else if p = 5#4 then some .fill
  else if p = 6#4 then some .scale
  else if p = 7#4 then some .search
  else if p = 8#4 then some .done
  else if p = 15#4 then some .fault
  else none

/-- A register with its two top bits replaced. -/
def withTopBits (b31 b30 : Bool) (w : Word) : Word := BitVec.cons b31 (BitVec.cons b30 (w.setWidth 30))

/-- The state in which the core's next step reads the code `w` of format `f` (log 12): the code stands in its port or
register, the phase is the one that reads it, no fault is recorded and the core moves next. The operations of `prim`
have no code, and no state holds the phase codes 9 to 14. -/
def placeCode (f : Format) (w : Nat) (s : State) : State :=
  match f with
  | .cmd =>
    { s with
      phase := if s.phase = .done then .done else .idle
      cmd := BitVec.ofNat 2 w :: s.cmd
      fcode := .none
      schedule := [] }
  | .sym => { s with phase := .fetch, symIn := BitVec.ofNat 9 w :: s.symIn, fcode := .none, schedule := [] }
  | .rn =>
    { s with
      phase := .renorm
      lower := withTopBits (w.testBit 3) (w.testBit 2) s.lower
      upper := withTopBits (w.testBit 1) (w.testBit 0) s.upper
      fcode := .none
      schedule := [] }
  | .ph =>
    match phaseOfCode (BitVec.ofNat 4 w) with
    | some p => { s with phase := p, fcode := .none, schedule := [] }
    | none => s
  | .prim => s

end Sys2Proof.Machine
end

