-- ==== Sys2Proof/Machine/Step.lean ====
section
/-! DEFINITION. One move of the machine: a step of the core (spec/45_sequencer.md R229), or a move of the host where
the schedule says so (R232). -/

namespace Sys2Proof.Machine

/-- One move. -/
def step (s : State) : Host.Outcome State Fault Refusal :=
  match nextMove s with
  | (.core, t) => exec (currentInstr t) t
  | (.host a, t) => hostAct a t

/-- `s` with the code `w` where the next step reads it (log 12). -/
def State.withFetchWord (s : State) (nbits w : Nat) : State :=
  match formatOfWidth nbits with
  | some f => placeCode f w s
  | none => s

end Sys2Proof.Machine
end

