-- ==== Sys2Proof/Machine/Session.lean ====
section
/-! DEFINITION. The sessions as functions: `Encode(M)` (spec/45_sequencer.md R227), `Decode(C)` (R228), and the bit
streams of spec/44_bit_channel.md R204 and R208. No step calls them: they say what a session computes. -/

namespace Sys2Proof.Machine

/-! ## Bits and bytes -/

/-- The bits of a byte in stream order, least significant first (20 R54). -/
def byteBits (b : Byte) : List Bool :=
  [b.getLsbD 0, b.getLsbD 1, b.getLsbD 2, b.getLsbD 3, b.getLsbD 4, b.getLsbD 5, b.getLsbD 6, b.getLsbD 7]

/-- The bits of a byte sequence in stream order (20 R54). -/
def bytesBits (l : List Byte) : List Bool := l.flatMap byteBits

/-- The byte whose bits in stream order are the given ones. -/
def bitsByte (b0 b1 b2 b3 b4 b5 b6 b7 : Bool) : Byte :=
  BitVec.ofNat 8 (b0.toNat + 2 * b1.toNat + 4 * b2.toNat + 8 * b3.toNat + 16 * b4.toNat + 32 * b5.toNat
    + 64 * b6.toNat + 128 * b7.toNat)

/-- The bytes `B` with `B[j][i] = bits[8j + i]` (45 R227); bits after the last whole byte are left out. -/
def packBits : List Bool → List Byte
  | b0 :: b1 :: b2 :: b3 :: b4 :: b5 :: b6 :: b7 :: rest => bitsByte b0 b1 b2 b3 b4 b5 b6 b7 :: packBits rest
  | _ => []

/-! ## Encode -/

/-- `(L, U, k, bits)` of 45 R227. -/
structure Encoder where
  l : Word
  u : Word
  k : Nat
  bits : List Bool
  deriving DecidableEq, Repr

/-- The encoder at the start of a session. -/
def Encoder.start : Encoder := { l := 0, u := 0xFFFFFFFF, k := 0, bits := [] }

/-- One pass of the loop of 45 R227; none when it exits. -/
def encIter (e : Encoder) : Option Encoder :=
  if e.l.getLsbD 31 = e.u.getLsbD 31 then
    some { l := shiftIn e.l false
           u := shiftIn e.u true
           k := 0
           bits := e.bits ++ e.l.getLsbD 31 :: List.replicate e.k (!e.l.getLsbD 31) }
  else if e.l.getLsbD 30 = true ∧ e.u.getLsbD 30 = false then
    some { l := spliceIn false e.l false, u := spliceIn true e.u true, k := e.k + 1, bits := e.bits }
  else none

/-- The loop of 45 R227, RENORMALIZE (30 R90), at most `n` passes. -/
def encRenorm : Nat → Encoder → Encoder
  | 0, e => e
  | n + 1, e =>
    match encIter e with
    | some e' => encRenorm n e'
    | none => e

/-- CODE_SYMBOL(x) (30 R90): none where NARROW has no result, which `CFSafe` excludes (41 R132). Thirty-two passes
are enough (41 R143). -/
def encSymbol (t : Table) (x : Symbol) (e : Encoder) : Option Encoder :=
  match narrowed e.l e.u (lowOf t x) (highOf t x) (total t) with
  | some (l, u) => some (encRenorm 32 { e with l := l, u := u })
  | none => none

/-- The symbols of a sequence, one after the other. -/
def encSymbols (t : Table) : List Symbol → Encoder → Option Encoder
  | [], e => some e
  | x :: xs, e =>
    match encSymbol t x e with
    | some e' => encSymbols t xs e'
    | none => none

/-- The symbols of a message: its bytes, then `EOF_SYM` (42 R161). -/
def messageSymbols (m : List Byte) : List Symbol := m.map symbolOfByte ++ [eofSymbol]

/-- The marker and the padding (42 R167, 20 R57). -/
def finishBits (bits : List Bool) : List Bool :=
  bits ++ [false, true] ++ List.replicate ((8 - (bits.length + 2) % 8) % 8) true

/-- `Encode(M)` (45 R227). -/
def encodeMessage (t : Table) (m : List Byte) : Option (List Byte) :=
  match encSymbols t (messageSymbols m) Encoder.start with
  | some e => some (packBits (finishBits e.bits))
  | none => none

/-! ## Decode -/

/-- The `t`-th bit a decode session obtains from the stream `c`, which has at least one byte (44 R208). -/
def streamBit (c : List Byte) (t : Nat) : Bool :=
  if t < 8 * c.length then (c.getD (t / 8) 0).getLsbD (t % 8) else (c.getLastD 0).getLsbD 7

/-- `(L, U, W, t)` of 45 R228. -/
structure Decoder where
  l : Word
  u : Word
  w : Word
  t : Nat
  deriving DecidableEq, Repr

/-- The window after `n` bits, bit 0 of the stream oldest (43 R182, 20 R55). -/
def fillWindow (c : List Byte) : Nat → Word
  | 0 => 0
  | n + 1 => shiftIn (fillWindow c n) (streamBit c n)

/-- The decoder after the fill. -/
def Decoder.start (c : List Byte) : Decoder := { l := 0, u := 0xFFFFFFFF, w := fillWindow c 32, t := 32 }

/-- One pass of the inner loop of 45 R228; none when it exits. -/
def decIter (c : List Byte) (d : Decoder) : Option Decoder :=
  if d.l.getLsbD 31 = d.u.getLsbD 31 then
    some { l := shiftIn d.l false, u := shiftIn d.u true, w := shiftIn d.w (streamBit c d.t), t := d.t + 1 }
  else if d.l.getLsbD 30 = true ∧ d.u.getLsbD 30 = false then
    some { l := spliceIn false d.l false
           u := spliceIn true d.u true
           w := spliceIn d.w.msb d.w (streamBit c d.t)
           t := d.t + 1 }
  else none

/-- The inner loop of 45 R228, at most `n` passes. -/
def decRenorm (c : List Byte) : Nat → Decoder → Decoder
  | 0, d => d
  | n + 1, d =>
    match decIter c d with
    | some d' => decRenorm c n d'
    | none => d

/-- The outer loop of 45 R228, at most `n` symbols: none where the end-of-stream symbol is not reached by then, since
`Decode` is partial (43 R191), or where NARROW has no result, which `CFSafe` excludes. -/
def decodeFrom (tb : Table) (c : List Byte) : Nat → Decoder → List Byte → Option (List Byte)
  | 0, _, _ => none
  | n + 1, d, out =>
    let x := searchIndex tb (BitVec.ofNat 32 (scaledPosition d.l d.u d.w (total tb)))
    if x < 256 then
      match narrowed d.l d.u (lowOf tb (symbolOfByte (BitVec.ofNat 8 x))) (highOf tb (symbolOfByte (BitVec.ofNat 8 x)))
          (total tb) with
      | some (l, u) => decodeFrom tb c n (decRenorm c 32 { d with l := l, u := u }) (out ++ [BitVec.ofNat 8 x])
      | none => none
    else some out

/-- `Decode(C)` (45 R228), given up after `n` symbols. -/
def decodeStream (tb : Table) (n : Nat) (c : List Byte) : Option (List Byte) := decodeFrom tb c n (Decoder.start c) []

end Sys2Proof.Machine
end

