-- ==== Sys2Proof/Safety.lean ====
section
/-! DEFINITION. What the claims speak of: the invariants of spec/41_interval_coder.md R141 and R144 and
spec/43_decoder.md R190, the streams of spec/44_bit_channel.md seen as bit sequences, the end of a run
(spec/45_sequencer.md R226), and the registers a phase still depends on (spec/10_state.md R39). -/

namespace Sys2Proof.Machine

/-- The state of an outcome that is a next state. -/
def nextState? (o : Out) : Option State :=
  match o with
  | .next s => some s
  | .fault _ => none
  | .refused _ => none

/-- The operations of a list, one after the other; none where one has no next state. -/
def execAll : List Instr → State → Option State
  | [], s => some s
  | i :: is, s =>
    match nextState? (exec i s) with
    | some t => execAll is t
    | none => none

/-! ## The interval -/

/-- The fixed point of the renormaliser (41 R140, R144): top bits 0 and 1, and not the straddle of RN_E3. -/
abbrev Terminal (l u : Word) : Prop :=
  l.getLsbD 31 = false ∧ u.getLsbD 31 = true ∧ (l.getLsbD 30 = false ∨ u.getLsbD 30 = true)

/-- The condition of RN_E1 with determinate bit `b` (41 R136). -/
abbrev Determinate (b : Bool) (l u : Word) : Prop := l.getLsbD 31 = b ∧ u.getLsbD 31 = b

/-- The condition of RN_E3 (41 R138): `LOWER = 01…`, `UPPER = 10…`. -/
abbrev Straddles (l u : Word) : Prop :=
  l.getLsbD 31 = false ∧ l.getLsbD 30 = true ∧ u.getLsbD 31 = true ∧ u.getLsbD 30 = false

/-- `LOWER <= WINDOW <= UPPER` (43 R190). -/
abbrev WindowInside (s : State) : Prop := s.lower ≤ s.window ∧ s.window ≤ s.upper

/-! ## The streams as bit sequences -/

/-- The bits an encode session has put, in stream order: those on `CODE_OUT`, then those in `ACC` (44 R204). -/
def bitsOut (s : State) : List Bool := bytesBits s.codeOut ++ (byteBits s.acc).take s.nbits.toNat

/-- The bits of `ACC` at `NBITS` and above are 0 (10 R31). -/
abbrev PackerClean (s : State) : Prop := ∀ i : Fin 8, s.nbits.toNat ≤ i.val → s.acc.getLsbD i.val = false

/-- The real bits a decode session has still to take: those in `IBUF`, then those on `CODE_IN` (44 R208). -/
def bitsIn (s : State) : List Bool := (byteBits s.ibuf).take s.icnt.toNat ++ bytesBits s.codeIn

/-- A stream bit can be had (45 R231 (c)), and it is not the missing bit of 44 R206. -/
abbrev BitReady (s : State) : Prop :=
  s.icnt.toNat ≤ 8 ∧ (bitsIn s ≠ [] ∨ (s.codeInEnd = true ∧ s.havelast = true))

/-- `t` is `s` after the bit `b` was taken from the stream (44 R205): the next real bit, and only the unpacker and
`CODE_IN` change; or, when there is none, the last real bit again, and nothing changes. -/
def TookBit (s : State) (b : Bool) (t : State) : Prop :=
  match bitsIn s with
  | b' :: rest =>
    b = b' ∧ bitsIn t = rest ∧ t.icnt.toNat ≤ 8 ∧
      t = { s with ibuf := t.ibuf, icnt := t.icnt, codeIn := t.codeIn, lastbit := b, havelast := true }
  | [] => b = s.lastbit ∧ t = s

/-! ## The invariant of the machine -/

/-- The symbol in `SYM` and its range in `LOW`, `HIGH` (10 R23). -/
def LatchesHold (s : State) (x : Symbol) : Prop :=
  s.sym.toNat = x.val ∧ s.low = lowOf s.cfg.cf x ∧ s.high = highOf s.cfg.cf x

/-- What an encode session keeps in every phase. -/
def EncodeKeeps (s : State) : Prop := s.mode = .enc ∧ PackerClean s

/-- What a decode session keeps in every phase after the fill (43 R190). -/
def DecodeKeeps (s : State) : Prop :=
  s.mode = .dec ∧ s.icnt.toNat ≤ 8 ∧ s.havelast = true ∧ WindowInside s

/-- What holds at the start of a step of a session, phase by phase. -/
def SessionInv (s : State) : Prop :=
  match s.phase with
  | .idle => True
  | .done => True
  | .fault => True
  | .fetch => EncodeKeeps s ∧ Terminal s.lower s.upper
  | .narrow =>
    Terminal s.lower s.upper ∧ ∃ x : Symbol, LatchesHold s x ∧
      (EncodeKeeps s ∨
        (DecodeKeeps s ∧ x ≠ eofSymbol ∧
          s.low.toNat ≤ scaledPosition s.lower s.upper s.window (total s.cfg.cf) ∧
          scaledPosition s.lower s.upper s.window (total s.cfg.cf) < s.high.toNat))
  | .renorm => s.lower ≤ s.upper ∧ ((EncodeKeeps s ∧ s.sym.toNat ≤ 256) ∨ DecodeKeeps s)
  | .finish => EncodeKeeps s ∧ Terminal s.lower s.upper ∧ s.sym = 256#9
  | .fill =>
    s.mode = .dec ∧ s.icnt.toNat ≤ 8 ∧ s.lower = 0 ∧ s.upper = 0xFFFFFFFF ∧ s.fillcnt.toNat < 32 ∧
      (s.fillcnt.toNat ≠ 0 → s.havelast = true)
  | .scale => DecodeKeeps s ∧ Terminal s.lower s.upper
  | .search =>
    DecodeKeeps s ∧ Terminal s.lower s.upper ∧
      s.scaled.toNat = scaledPosition s.lower s.upper s.window (total s.cfg.cf)

/-- The invariant: `FCODE` is 0 exactly outside FAULT (10 R29), the fault of the unreachable arms is not recorded
(60 R244), `UFC` fits its register (10 R21), and in a session the table is safe (40 R114) and `SessionInv` holds. -/
def MachineInv (s : State) : Prop :=
  (s.fcode = .none ↔ s.phase ≠ .fault) ∧ s.fcode ≠ .invariant ∧ s.ufc < 2 ^ s.cfg.ufcBits ∧
    (s.busy = true → CFSafe s.cfg.cf) ∧ SessionInv s

/-- A state the spec's reset can leave (10 R37): `PHASE`, `FCODE` and `CMD` as given, every other register anything
that fits it. -/
def ResetState (s : State) : Prop :=
  s.phase = .idle ∧ s.fcode = .none ∧ s.cmd = [] ∧ s.ufc < 2 ^ s.cfg.ufcBits

/-! ## Runs and sessions -/

/-- The end of a run (45 R226). -/
def EndOfRun (s : State) : Prop := s.phase = .done ∧ s.fcode = .none

/-- `s` is held or the run goes on: from `s`, `n` steps of the core lead to `t`. -/
def Reaches (s t : State) : Prop := ∃ n, Host.Core.run Sys2Proof.core n s = .next t

/-! ## Interleavings of the host with the core (45 R229, R232) -/

/-- The host's moves that feed and drain the ports, and the read of `STATUS`: what it does while a session runs. A
reset, emptying the ports and replacing the table are not among them. -/
def HostAction.feedsOrDrains : HostAction → Bool
  | .reset => false
  | .cmd _ => true
  | .sym _ => true
  | .code _ => true
  | .codeEnd => true
  | .popCodeOut => true
  | .popByteOut => true
  | .emptyPorts => false
  | .loadTable _ => false
  | .readStatus => true

/-- A step of the core, or a move of the host that feeds or drains. -/
def Move.feedsOrDrains : Move → Bool
  | .core => true
  | .host a => a.feedsOrDrains

/-- The commands that a schedule pushes, in order. -/
def pushedCmd (l : List Move) : List CmdCode :=
  l.filterMap fun m => match m with
    | .host (.cmd c) => some c
    | _ => none

/-- The symbol codes that a schedule pushes, in order. -/
def pushedSym (l : List Move) : List SymCode :=
  l.filterMap fun m => match m with
    | .host (.sym c) => some c
    | _ => none

/-- The stream bytes that a schedule pushes, in order. -/
def pushedCode (l : List Move) : List Byte :=
  l.filterMap fun m => match m with
    | .host (.code b) => some b
    | _ => none

/-- A schedule sets `CODE_IN_END`. -/
def endsStream (l : List Move) : Bool := l.any (· == .host .codeEnd)

/-- No byte is pushed to `CODE_IN` once its end flag is set, which it is at the start where `e` holds: the host's duty of
45 R232. -/
def noCodeAfterEnd : Bool → List Move → Bool
  | _, [] => true
  | e, m :: rest =>
    match m with
    | .host (.code _) => !e && noCodeAfterEnd e rest
    | .host .codeEnd => noCodeAfterEnd true rest
    | _ => noCodeAfterEnd e rest

/-- The moves to come are steps of the core, in any places, and moves of the host that feed and drain the ports and keep
the duty about the end of the stream. -/
abbrev HostFeedsAndDrains (s : State) : Prop :=
  s.schedule.all Move.feedsOrDrains = true ∧ noCodeAfterEnd s.codeInEnd s.schedule = true

/-- The state with all that its schedule pushes pushed at once, and no move of the host left. -/
def fedWhole (s : State) : State :=
  { s with
    schedule := []
    cmd := s.cmd ++ pushedCmd s.schedule
    symIn := s.symIn ++ pushedSym s.schedule
    codeIn := s.codeIn ++ pushedCode s.schedule
    codeInEnd := s.codeInEnd || endsStream s.schedule }

/-- The bytes that the host takes from the output `q` in the first `n` moves, `a` being its pop of that output. -/
def drained (a : HostAction) (q : State → List Byte) : Nat → State → List Byte
  | 0, _ => []
  | n + 1, s =>
    (if s.schedule.head? = some (.host a) then (q s).take 1 else []) ++
      match nextState? (step s) with
      | some t => drained a q n t
      | none => []

/-- All bytes that stand on `CODE_OUT` at the start or are pushed to it in the first `n` moves and that the host has
popped by then, in order. -/
def codeDrained (n : Nat) (s : State) : List Byte := drained .popCodeOut State.codeOut n s

/-- The same of `BYTE_OUT`. -/
def byteDrained (n : Nat) (s : State) : List Byte := drained .popByteOut State.byteOut n s

/-- The symbol codes of a message, as the host pushes them: the bytes, then 256 (42 R161). -/
def messageCodes (m : List Byte) : List SymCode := m.map (fun b => b.setWidth 9) ++ [256#9]

/-! ## The registers a phase still depends on -/

/-- The two states agree on everything a claim about outputs may look at whatever the phase: the ports, `PHASE`,
`FCODE`, the parameters and the model's own fields. -/
def SameFrame (s t : State) : Prop :=
  s.phase = t.phase ∧ s.fcode = t.fcode ∧ s.symIn = t.symIn ∧ s.codeOut = t.codeOut ∧ s.codeIn = t.codeIn ∧
    s.codeInEnd = t.codeInEnd ∧ s.byteOut = t.byteOut ∧ s.cmd = t.cmd ∧ s.cfg = t.cfg ∧ s.schedule = t.schedule ∧
    s.resets = t.resets

/-- The registers an encode session has written by START_ENC (10 R39). -/
def SameEncoder (s t : State) : Prop :=
  s.mode = .enc ∧ t.mode = .enc ∧ s.lower = t.lower ∧ s.upper = t.upper ∧ s.ufc = t.ufc ∧ s.acc = t.acc ∧
    s.nbits = t.nbits

/-- The registers a decode session has written by START_DEC (10 R39), `IBUF` and `LASTBIT` only where they will be
read. -/
def SameDecoder (s t : State) : Prop :=
  s.mode = .dec ∧ t.mode = .dec ∧ s.lower = t.lower ∧ s.upper = t.upper ∧ s.window = t.window ∧ s.icnt = t.icnt ∧
    s.havelast = t.havelast ∧ (s.icnt ≠ 0 → s.ibuf = t.ibuf) ∧ (s.havelast = true → s.lastbit = t.lastbit)

/-- `SYM`, `LOW` and `HIGH` agree. -/
def SameLatches (s t : State) : Prop := s.sym = t.sym ∧ s.low = t.low ∧ s.high = t.high

/-- The two states agree on every register that a later step of the session can read before it is written (10 R39). -/
def SameLive (s t : State) : Prop :=
  SameFrame s t ∧
    match s.phase with
    | .idle => True
    | .done => True
    | .fault => True
    | .fetch => SameEncoder s t
    | .finish => SameEncoder s t
    | .narrow => SameLatches s t ∧ (SameEncoder s t ∨ SameDecoder s t)
    | .renorm => (s.sym = t.sym ∧ SameEncoder s t) ∨ SameDecoder s t
    | .fill => SameDecoder s t ∧ s.fillcnt = t.fillcnt
    | .scale => SameDecoder s t
    | .search => SameDecoder s t ∧ s.scaled = t.scaled

end Sys2Proof.Machine
end

