-- ==== Sys2Proof/Certificates/Slice0/Obligations.lean ====
section
/-! DEFINITION. The statements for the provers, each from the numbered rules of spec/ its docstring names. Statements
that quantify over all states hold in states no run reaches as well; where they would not, the premise `MachineInv` stands. -/

open Sys2Proof Sys2Proof.Machine

/-! ## The step -/

/-- 45 R229, 10 R26: a step of the core runs the operation `PHASE` names, none where `FCODE` is not 0; the schedule
(the model's own, log 5) only says who moves. -/
def Obligations.StepRunsSelectedOperation : Prop :=
  ∀ s : State,
    (s.schedule = [] → step s = exec (currentInstr s) s) ∧
    (∀ rest, s.schedule = .core :: rest → step s = exec (currentInstr s) { s with schedule := rest }) ∧
    (∀ a rest, s.schedule = .host a :: rest → step s = hostAct a { s with schedule := rest }) ∧
    (s.fcode = .none → currentInstr s = decodePh s.phase.code) ∧
    (s.fcode ≠ .none → currentInstr s = .phFault)

/-- 45 R222, 42 R162, 30 R85: in IDLE and DONE the oldest command, in FETCH the oldest symbol code, in RENORM the
pattern of the interval registers selects the operation, and the phase's effect is that operation's. -/
def Obligations.PhaseRunsDecodedCode : Prop :=
  ∀ s : State,
    (∀ c rest, s.cmd = c :: rest →
      exec .phIdle s = exec (decodeCmd c).toInstr s ∧ exec .phDone s = exec (decodeCmd c).toInstr s) ∧
    (∀ c rest, s.symIn = c :: rest → exec .phFetch s = exec (decodeSym c).toInstr s) ∧
    exec .phRenorm s = exec (decodeRn (rnPattern s.lower s.upper)).toInstr s

/-- 30 R80, R91, log 12: a code put in its port or register is the one the next step runs. -/
def Obligations.PlacedCodeIsRunNext : Prop :=
  ∀ (f : Format) (w : Nat) (i : Instr) (s : State), decode f w = .ok i → (∀ p, i ≠ .phUnused p) →
    step (placeCode f w s) = exec i (placeCode f w s)

/-- 45 R231: with no fault recorded, a step of the core leaves the state as it is exactly in the cases (a), (b), (c),
and in FAULT. -/
def Obligations.HeldExactlyWhenWaiting : Prop :=
  ∀ s : State, s.fcode = .none → s.phase ≠ .fault →
    (exec (currentInstr s) s = .next s ↔
      ((s.phase = .idle ∨ s.phase = .done) ∧ s.cmd = []) ∨
      (s.phase = .fetch ∧ s.symIn = []) ∨
      ((s.phase = .fill ∨
          (s.phase = .renorm ∧ s.mode = .dec ∧
            ((∃ b, Determinate b s.lower s.upper) ∨ Straddles s.lower s.upper))) ∧
        s.icnt = 0 ∧ s.codeIn = [] ∧ s.codeInEnd = false))

/-- 45 R221, 40 R114, 43 R182: every transition of `PHASE` from a state the invariant allows, row by row. That a
held step is an unchanged next state is the model's choice (log 4). -/
def Obligations.PhaseGraph : Prop :=
  ∀ s t : State, MachineInv s → exec (currentInstr s) s = .next t →
    match s.phase with
    | .idle | .done =>
      match s.cmd with
      | [] => t.phase = s.phase
      | c :: _ =>
        (c = 0b00#2 ∧ t.phase = s.phase) ∨
        (c = 0b01#2 ∧ CFSafe s.cfg.cf ∧ t.phase = .fetch) ∨
        (c = 0b10#2 ∧ CFSafe s.cfg.cf ∧ t.phase = .fill) ∨
        ((c = 0b01#2 ∨ c = 0b10#2) ∧ ¬ CFSafe s.cfg.cf ∧ t.phase = .fault ∧ t.fcode = .config) ∨
        (c = 0b11#2 ∧ t.phase = .fault ∧ t.fcode = .illcmd)
    | .fetch =>
      match s.symIn with
      | [] => t.phase = .fetch
      | c :: _ =>
        (c.toNat ≤ 256 ∧ t.phase = .narrow) ∨ (256 < c.toNat ∧ t.phase = .fault ∧ t.fcode = .illsym)
    | .narrow => t.phase = .renorm
    | .renorm =>
      ((∃ b, Determinate b s.lower s.upper) ∧ t.phase = .renorm) ∨
      (Straddles s.lower s.upper ∧ ¬ (s.mode = .enc ∧ s.ufc = 2 ^ s.cfg.ufcBits - 1) ∧ t.phase = .renorm) ∨
      (Straddles s.lower s.upper ∧ s.mode = .enc ∧ s.ufc = 2 ^ s.cfg.ufcBits - 1 ∧ t.phase = .fault ∧
        t.fcode = .ufcovf) ∨
      (Terminal s.lower s.upper ∧ s.mode = .enc ∧ s.sym ≠ 256#9 ∧ t.phase = .fetch) ∨
      (Terminal s.lower s.upper ∧ s.mode = .enc ∧ s.sym = 256#9 ∧ t.phase = .finish) ∨
      (Terminal s.lower s.upper ∧ s.mode = .dec ∧ t.phase = .scale)
    | .finish => t.phase = .done
    | .fill =>
      (bitsIn s = [] ∧ s.codeInEnd = false ∧ t = s) ∨
      (bitsIn s = [] ∧ s.codeInEnd = true ∧ s.havelast = false ∧ t.phase = .fault ∧ t.fcode = .nobits) ∨
      (BitReady s ∧ s.fillcnt.toNat + 1 < 32 ∧ t.phase = .fill) ∨
      (BitReady s ∧ s.fillcnt.toNat + 1 = 32 ∧ t.phase = .scale)
    | .scale => t.phase = .search
    | .search => (t.sym ≠ 256#9 ∧ t.phase = .narrow) ∨ (t.sym = 256#9 ∧ t.phase = .done)
    | .fault => t.phase = .fault

/-- 45 R229, R232, 10 R33: the order in which the host's moves and the core's steps interleave does not matter. One by
one: a push may be exchanged with a step of the core that is not held, a pop of an output that is not empty and a read of
`STATUS` with any step. Over a whole run: take any schedule of steps and of moves that feed and drain the ports, no byte
after the end of the stream. Where the core comes to rest in `n` steps when everything is pushed at once, every run that
follows the schedule, of any length from the schedule's plus `n` on, is at that same state, but for the output bytes the
host has popped, which with those still queued are the same bytes in the same order. The model's choices in it: the
interleaving is the field `schedule` (log 5), a core at rest goes on in unchanged next states (log 4), a command pushed in
a session stays queued (log 7), and a pop of an empty output changes nothing (log 23). -/
def Obligations.HostMovesCommuteWithSteps : Prop :=
  (∀ (s t u : State) (a : HostAction),
    (((∃ c, a = .cmd c) ∨ (∃ c, a = .sym c) ∨ (∃ b, a = .code b) ∨ a = .codeEnd) ∧ s.held = false) ∨
      (a = .popCodeOut ∧ s.codeOut ≠ []) ∨ (a = .popByteOut ∧ s.byteOut ≠ []) ∨ a = .readStatus →
    exec (currentInstr s) s = .next t → hostAct a s = .next u →
    ∃ v, exec (currentInstr u) u = .next v ∧ hostAct a t = .next v) ∧
  ∀ (s t : State) (n : Nat), HostFeedsAndDrains s → Host.Core.run Sys2Proof.core n (fedWhole s) = .next t →
    exec (currentInstr t) t = .next t →
    ∀ k, s.schedule.length + n ≤ k → ∃ u, Host.Core.run Sys2Proof.core k s = .next u ∧
      u = { t with codeOut := u.codeOut, byteOut := u.byteOut } ∧
      codeDrained k s ++ u.codeOut = t.codeOut ∧ byteDrained k s ++ u.byteOut = t.byteOut

/-! ## Commands -/

/-- 45 R225: command `00` is consumed and changes nothing else; command `11` raises `F_ILLCMD` when it is consumed. -/
def Obligations.NopAndReservedCommand : Prop :=
  ∀ (s : State) (c : CmdCode) (rest : List CmdCode), s.cmd = c :: rest →
    exec .nop s = .next { s with cmd := rest } ∧
    exec .cmdReserved s = .next { s with cmd := rest, fcode := .illcmd, phase := .fault } ∧
    (c = 0b00#2 → exec .phIdle s = .next { s with cmd := rest } ∧ exec .phDone s = .next { s with cmd := rest }) ∧
    (c = 0b11#2 →
      exec .phIdle s = .next { s with cmd := rest, fcode := .illcmd, phase := .fault } ∧
      exec .phDone s = .next { s with cmd := rest, fcode := .illcmd, phase := .fault })

/-- 45 R223, 40 R114: START_ENC writes the session-start values of the encoder and nothing else, after the check of the
table, which raises `F_CONFIG` before anything is written; it begins a session from IDLE and from DONE alike. -/
def Obligations.StartEncBeginsSession : Prop :=
  ∀ (s : State) (rest : List CmdCode), s.cmd = 0b01#2 :: rest →
    ∃ t, exec .startEnc s = .next t ∧ exec .phIdle s = .next t ∧ exec .phDone s = .next t ∧
      (CFSafe s.cfg.cf →
        t = { s with
          cmd := rest, mode := .enc, lower := 0, upper := 0xFFFFFFFF, ufc := 0, acc := 0, nbits := 0,
          phase := .fetch }) ∧
      (¬ CFSafe s.cfg.cf → t = { s with cmd := rest, fcode := .config, phase := .fault })

/-- 45 R224, 40 R114: START_DEC writes the session-start values of the decoder and nothing else, after the check of the
table. -/
def Obligations.StartDecBeginsSession : Prop :=
  ∀ (s : State) (rest : List CmdCode), s.cmd = 0b10#2 :: rest →
    ∃ t, exec .startDec s = .next t ∧ exec .phIdle s = .next t ∧ exec .phDone s = .next t ∧
      (CFSafe s.cfg.cf →
        t = { s with
          cmd := rest, mode := .dec, lower := 0, upper := 0xFFFFFFFF, window := 0, fillcnt := 0, icnt := 0,
          havelast := false, phase := .fill }) ∧
      (¬ CFSafe s.cfg.cf → t = { s with cmd := rest, fcode := .config, phase := .fault })

/-- 45 R222: a step of the core removes the oldest command in IDLE and DONE, and in every other phase commands are not
looked at. -/
def Obligations.CommandsConsumedOnlyInIdleAndDone : Prop :=
  ∀ s t : State, s.fcode = .none → exec (currentInstr s) s = .next t →
    ((s.phase = .idle ∨ s.phase = .done) → t.cmd = s.cmd.tail) ∧
    (s.phase ≠ .idle → s.phase ≠ .done → t.cmd = s.cmd ∧
      ∀ cs, exec (currentInstr s) { s with cmd := cs } = .next { t with cmd := cs })

/-- 40 R115, R116, 60 R242: both named tables are safe, with totals 329 and 335. -/
def Obligations.NamedTablesAreSafe : Prop :=
  CFSafe cfLetters52 ∧ CFSafe cfRange58 ∧ (total cfLetters52).toNat = 329 ∧ (total cfRange58).toNat = 335 ∧
    lookup cfLetters52 (symbolOfByte 0x41#8) = (65#32, 69#32) ∧ lookup cfLetters52 eofSymbol = (328#32, 329#32)

/-! ## FETCH and LOOKUP -/

/-- 40 R118, R112: LOOKUP gives the two boundaries of the symbol and writes nothing; at the two ends of the alphabet
they are 0 and `TOTAL`; a valid table gives every symbol a non-empty range within `[0, TOTAL)`. -/
def Obligations.LookupGivesBoundaries : Prop :=
  ∀ (s : State) (x : Symbol),
    exec (.lookup x) s = .next s ∧
    lookup s.cfg.cf x = (cfAt s.cfg.cf x.castSucc, cfAt s.cfg.cf x.succ) ∧
    (CFValid s.cfg.cf →
      (lookup s.cfg.cf 0).1 = 0 ∧ (lookup s.cfg.cf eofSymbol).2 = total s.cfg.cf ∧
      (lookup s.cfg.cf x).1 < (lookup s.cfg.cf x).2 ∧ (lookup s.cfg.cf x).2 ≤ total s.cfg.cf)

/-- 40 R112: under a valid table every position below `TOTAL` lies in the range of exactly one symbol, every boundary is
at least its index, so that `TOTAL` is at least 257, and every symbol's range meets NARROW's precondition. -/
def Obligations.RangesPartitionPositions : Prop :=
  ∀ t : Table, CFValid t →
    (∀ i : TableIndex, i.val ≤ (cfAt t i).toNat) ∧ 257 ≤ (total t).toNat ∧
    (∀ x : Symbol, lowOf t x < highOf t x ∧ highOf t x ≤ total t) ∧
    (∀ q : Nat, (∃! x : Symbol, (lowOf t x).toNat ≤ q ∧ q < (highOf t x).toNat) ↔ q < (total t).toNat)

/-- 42 R162, 30 R82, R83: FETCH pops the oldest code and latches the symbol and its range; a code above 256 raises
`F_ILLSYM`, the element consumed and nothing else changed; with no symbol the step is held, which the model writes as an
unchanged next state (log 4). The three rows of the symbol codes have these effects each, whatever code heads the queue
(log 13). -/
def Obligations.FetchLatchesSymbol : Prop :=
  ∀ s : State,
    (s.symIn = [] → exec .phFetch s = .next s) ∧
    (∀ (x : Symbol) (rest : List SymCode), s.symIn = BitVec.ofNat 9 x.val :: rest →
      exec .phFetch s = .next { s with
        symIn := rest, sym := BitVec.ofNat 9 x.val, low := cfAt s.cfg.cf x.castSucc, high := cfAt s.cfg.cf x.succ,
        phase := .narrow }) ∧
    (∀ (c : SymCode) (rest : List SymCode), s.symIn = c :: rest → 256 < c.toNat →
      exec .phFetch s = .next { s with symIn := rest, fcode := .illsym, phase := .fault }) ∧
    (∀ (v : Byte) (c : SymCode) (rest : List SymCode), s.symIn = c :: rest →
      exec (.fetchByte v) s = .next { s with
        symIn := rest, sym := v.setWidth 9, low := (lookup s.cfg.cf (symbolOfByte v)).1,
        high := (lookup s.cfg.cf (symbolOfByte v)).2, phase := .narrow } ∧
      exec .fetchEof s = .next { s with
        symIn := rest, sym := 256#9, low := (lookup s.cfg.cf eofSymbol).1, high := total s.cfg.cf,
        phase := .narrow } ∧
      exec (.symIllegal v) s = .next { s with symIn := rest, fcode := .illsym, phase := .fault })

/-! ## NARROW -/

/-- 41 R131, R132, R133: for latches `low < high <= TOTAL` and `LOWER <= UPPER`, NARROW stores the exact quotients, both
from the old `LOWER`, where they differ: the new interval is not empty and lies within the old one, and nothing else but
`PHASE` changes. Where they are equal it raises `F_INVARIANT` and stores no wrapped value. With a range of at least
`TOTAL` they differ. -/
def Obligations.NarrowStoresExactQuotients : Prop :=
  ∀ s : State, s.lower ≤ s.upper → s.low < s.high → s.high ≤ total s.cfg.cf →
    let q (v : Word) := (s.upper.toNat - s.lower.toNat + 1) * v.toNat / (total s.cfg.cf).toNat
    ((total s.cfg.cf).toNat ≤ s.upper.toNat - s.lower.toNat + 1 → q s.low < q s.high) ∧
    (q s.low < q s.high → ∃ t, exec .phNarrow s = .next t ∧
      t.lower.toNat = s.lower.toNat + q s.low ∧ t.upper.toNat + 1 = s.lower.toNat + q s.high ∧
      s.lower ≤ t.lower ∧ t.lower ≤ t.upper ∧ t.upper ≤ s.upper ∧
      (s.low = 0 → t.lower = s.lower) ∧ (s.high = total s.cfg.cf → t.upper = s.upper) ∧
      t = { s with lower := t.lower, upper := t.upper, phase := .renorm }) ∧
    (q s.low = q s.high → exec .phNarrow s = .next { s with fcode := .invariant, phase := .fault })

/-- 41 R133: a symbol of weight `w` receives `floor(range * w / total)` values or one more. -/
def Obligations.NarrowedWidthFollowsWeight : Prop :=
  ∀ s t : State, s.lower ≤ s.upper → s.low < s.high → s.high ≤ total s.cfg.cf → exec .phNarrow s = .next t →
    t.phase = .renorm →
    let w := s.high.toNat - s.low.toNat
    let fair := (s.upper.toNat - s.lower.toNat + 1) * w / (total s.cfg.cf).toNat
    t.upper.toNat - t.lower.toNat + 1 = fair ∨ t.upper.toNat - t.lower.toNat + 1 = fair + 1

/-- 41 R133: under a valid table the sub-intervals of the symbols are disjoint and together are exactly the interval:
the values that lie in the sub-interval of exactly one symbol are those of the interval, and no sub-interval holds a
value outside it. -/
def Obligations.SubIntervalsPartitionInterval : Prop :=
  ∀ (t : Table) (l u w : Word), CFValid t → l ≤ u →
    let within (x : Symbol) : Prop :=
      narrowLow l u (lowOf t x) (total t) ≤ w.toNat ∧ w.toNat < narrowEnd l u (highOf t x) (total t)
    ((∃! x : Symbol, within x) ↔ l ≤ w ∧ w ≤ u) ∧ ∀ x : Symbol, within x → l ≤ w ∧ w ≤ u

/-! ## The renormaliser -/

/-- 30 R84, R85: the operation each pattern selects, in terms of the interval registers; no pattern with
`LOWER <= UPPER` is the unreachable one. -/
def Obligations.PatternSelectsOperation : Prop :=
  ∀ l u : Word,
    (Determinate false l u → decodeRn (rnPattern l u) = .e1b0 (l.getLsbD 30) (u.getLsbD 30)) ∧
    (Determinate true l u → decodeRn (rnPattern l u) = .e1b1 (l.getLsbD 30) (u.getLsbD 30)) ∧
    (Straddles l u → decodeRn (rnPattern l u) = .e3) ∧
    (Terminal l u → decodeRn (rnPattern l u) = .term0111 ∨ decodeRn (rnPattern l u) = .term001 (u.getLsbD 30)) ∧
    (l ≤ u → (∃ b, Determinate b l u) ∨ Straddles l u ∨ Terminal l u) ∧
    (l ≤ u → ∀ x y, decodeRn (rnPattern l u) ≠ .unreachable x y)

/-- 41 R136, 42 R163, 43 R187: RN_E1 in both modes, as arithmetic on the interval, with the bits put or the bit taken,
its fault and its hold, and everything else unchanged. That a step which 45 R231 calls not enabled is an unchanged next
state is the model's choice (log 4). -/
def Obligations.DeterminateBitStep : Prop :=
  ∀ (b x y : Bool) (s : State), Determinate b s.lower s.upper →
    let i : Instr := if b then .rnE1b1 x y else .rnE1b0 x y
    exec .phRenorm s = exec i s ∧
    (s.mode = .enc → ∃ t, exec i s = .next t ∧
      t.lower.toNat = 2 * (s.lower.toNat - b.toNat * 2 ^ 31) ∧
      t.upper.toNat = 2 * (s.upper.toNat - b.toNat * 2 ^ 31) + 1 ∧
      bitsOut t = bitsOut s ++ b :: List.replicate s.ufc (!b) ∧
      t = { s with
        lower := t.lower, upper := t.upper, ufc := 0, acc := t.acc, nbits := t.nbits, codeOut := t.codeOut,
        phase := .renorm }) ∧
    (s.mode = .dec → BitReady s → ∃ bit u t, exec i s = .next t ∧ TookBit s bit u ∧
      t.lower.toNat = 2 * (s.lower.toNat - b.toNat * 2 ^ 31) ∧
      t.upper.toNat = 2 * (s.upper.toNat - b.toNat * 2 ^ 31) + 1 ∧
      t.window.toNat = 2 * s.window.toNat % 2 ^ 32 + bit.toNat ∧
      t = { u with lower := t.lower, upper := t.upper, window := t.window, phase := .renorm }) ∧
    (s.mode = .dec → s.icnt = 0 → s.codeIn = [] → s.codeInEnd = true → s.havelast = false →
      exec i s = .next { s with fcode := .nobits, phase := .fault }) ∧
    (s.mode = .dec → s.icnt = 0 → s.codeIn = [] → s.codeInEnd = false → exec i s = .next s)

/-- 41 R138, 42 R164, R165, 43 R188: RN_E3 in both modes, likewise, with the counter's overflow; the hold is again an
unchanged next state by the model's choice (log 4). -/
def Obligations.UnderflowStep : Prop :=
  ∀ s : State, Straddles s.lower s.upper →
    exec .phRenorm s = exec .rnE3 s ∧
    (s.mode = .enc → s.ufc + 1 < 2 ^ s.cfg.ufcBits → ∃ t, exec .rnE3 s = .next t ∧
      t.lower.toNat = 2 * (s.lower.toNat - 2 ^ 30) ∧ t.upper.toNat = 2 * (s.upper.toNat - 2 ^ 30) + 1 ∧
      t = { s with lower := t.lower, upper := t.upper, ufc := s.ufc + 1, phase := .renorm }) ∧
    (s.mode = .enc → s.ufc = 2 ^ s.cfg.ufcBits - 1 →
      exec .rnE3 s = .next { s with fcode := .ufcovf, phase := .fault }) ∧
    (s.mode = .dec → BitReady s → WindowInside s → ∃ bit u t, exec .rnE3 s = .next t ∧ TookBit s bit u ∧
      t.lower.toNat = 2 * (s.lower.toNat - 2 ^ 30) ∧ t.upper.toNat = 2 * (s.upper.toNat - 2 ^ 30) + 1 ∧
      t.window.toNat = 2 * (s.window.toNat - 2 ^ 30) + bit.toNat ∧
      t = { u with lower := t.lower, upper := t.upper, window := t.window, phase := .renorm }) ∧
    (s.mode = .dec → s.icnt = 0 → s.codeIn = [] → s.codeInEnd = true → s.havelast = false →
      exec .rnE3 s = .next { s with fcode := .nobits, phase := .fault }) ∧
    (s.mode = .dec → s.icnt = 0 → s.codeIn = [] → s.codeInEnd = false → exec .rnE3 s = .next s)

/-- 41 R140: RN_TERM writes `PHASE` and nothing else, and goes where the mode and `SYM` say. -/
def Obligations.TerminalStepLeavesLoop : Prop :=
  ∀ (y : Bool) (s : State),
    let next : Phase :=
      match s.mode with
      | .enc => if s.sym = 256#9 then .finish else .fetch
      | .dec => .scale
    exec (.rnTerm001 y) s = .next { s with phase := next } ∧ exec .rnTerm0111 s = .next { s with phase := next } ∧
    (Terminal s.lower s.upper → exec .phRenorm s = .next { s with phase := next })

/-- 41 R142, 60 R245: on a pattern that means `LOWER > UPPER` with different top bits the only effect is
`F_INVARIANT`, in both modes and whatever `UFC` holds. -/
def Obligations.UnreachablePatternFaults : Prop :=
  ∀ (x y : Bool) (s : State),
    exec (.rnUnreachable x y) s = .next { s with fcode := .invariant, phase := .fault } ∧
    (s.lower.getLsbD 31 = true → s.upper.getLsbD 31 = false →
      exec .phRenorm s = .next { s with fcode := .invariant, phase := .fault })

/-- 41 R143: a step that stays in the loop, and is neither held nor a fault, exactly doubles the range. -/
def Obligations.LoopStepDoublesRange : Prop :=
  ∀ s t : State, s.phase = .renorm → s.lower ≤ s.upper → exec .phRenorm s = .next t → t.phase = .renorm → t ≠ s →
    t.lower ≤ t.upper ∧ t.upper.toNat - t.lower.toNat + 1 = 2 * (s.upper.toNat - s.lower.toNat + 1)

/-- 41 R143, R134: an interval above `2^31` wide is terminal, and from any interval with `LOWER <= UPPER` at most 32
passes lead to a terminal one: of the machine, in encode mode where the counter has room for 32 more and in decode mode
where no step is held, each pass doubling the range and RN_TERM following them; and of the loop of `Encode`. -/
def Obligations.LoopEndsWithinThirtyTwoPasses : Prop :=
  (∀ l u : Word, l ≤ u → 2 ^ 31 < u.toNat - l.toNat + 1 → Terminal l u) ∧
  (∀ s : State, s.phase = .renorm → s.lower ≤ s.upper →
    (s.mode = .enc ∧ s.ufc + 32 < 2 ^ s.cfg.ufcBits ∨
      s.mode = .dec ∧ s.icnt.toNat ≤ 8 ∧ s.codeInEnd = true ∧ s.havelast = true) →
    ∃ n t u, n ≤ 32 ∧ execAll (List.replicate n .phRenorm) s = some t ∧ t.phase = .renorm ∧
      t.upper.toNat - t.lower.toNat + 1 = 2 ^ n * (s.upper.toNat - s.lower.toNat + 1) ∧
      Terminal t.lower t.upper ∧ exec .phRenorm t = .next u ∧ u = { t with phase := u.phase } ∧
      (u.phase = .fetch ∨ u.phase = .finish ∨ u.phase = .scale)) ∧
  (∀ e : Encoder, e.l ≤ e.u →
    encIter (encRenorm 32 e) = none ∧ Terminal (encRenorm 32 e).l (encRenorm 32 e).u)

/-- 41 R144: a step that leaves the loop without a fault leaves an interval at least `2^30 + 2` wide. -/
def Obligations.FixedPointIsWide : Prop :=
  ∀ s t : State, s.phase = .renorm → s.lower ≤ s.upper → exec .phRenorm s = .next t →
    t.phase = .fetch ∨ t.phase = .finish ∨ t.phase = .scale →
    t.lower.getLsbD 31 = false ∧ t.upper.getLsbD 31 = true ∧
      (t.lower.getLsbD 30 = false ∨ t.upper.getLsbD 30 = true) ∧
      2 ^ 30 + 2 ≤ t.upper.toNat - t.lower.toNat + 1

/-- 41 R146: an encoder and a decoder with the same interval, latches and table narrow to the same interval and perform
the same renormalisation step on it. -/
def Obligations.EncoderAndDecoderMirror : Prop :=
  ∀ s t : State, s.mode = .enc → t.mode = .dec → s.lower = t.lower → s.upper = t.upper → s.low = t.low →
    s.high = t.high → s.cfg = t.cfg → s.ufc + 1 < 2 ^ s.cfg.ufcBits → BitReady t →
    (∃ s' t', exec .phNarrow s = .next s' ∧ exec .phNarrow t = .next t' ∧ s'.lower = t'.lower ∧
      s'.upper = t'.upper ∧ s'.phase = t'.phase) ∧
    (∃ s' t', exec .phRenorm s = .next s' ∧ exec .phRenorm t = .next t' ∧ s'.lower = t'.lower ∧
      s'.upper = t'.upper ∧ (s'.phase = .renorm ↔ t'.phase = .renorm) ∧ (s'.phase = .fault ↔ t'.phase = .fault))

/-! ## The encoder -/

/-- 44 R201: PUTBIT places its bit at `NBITS`, and the eighth bit pushes the byte in the same call. -/
def Obligations.PutbitPacksLeastSignificantFirst : Prop :=
  ∀ (s : State) (b : Bool), ∃ t, exec (.putbit b) s = .next t ∧ bitsOut t = bitsOut s ++ [b] ∧
    t = { s with acc := t.acc, nbits := t.nbits, codeOut := t.codeOut } ∧
    (s.nbits.toNat < 7 → t.nbits.toNat = s.nbits.toNat + 1 ∧ t.codeOut = s.codeOut ∧
      ∀ i : Fin 8, t.acc.getLsbD i.val = if i.val = s.nbits.toNat then b else s.acc.getLsbD i.val) ∧
    (s.nbits.toNat = 7 → t.nbits = 0 ∧ t.acc = 0 ∧ ∃ byte : Byte, t.codeOut = s.codeOut ++ [byte] ∧
      ∀ i : Fin 8, byte.getLsbD i.val = if i.val = 7 then b else s.acc.getLsbD i.val) ∧
    (PackerClean s → PackerClean t)

/-- 44 R203: PADFLUSH puts `(8 - NBITS) mod 8` one-bits, never a whole byte of padding, and leaves no byte in
progress. -/
def Obligations.PadflushCompletesByte : Prop :=
  ∀ s : State, ∃ t, exec .padflush s = .next t ∧ t.nbits = 0 ∧
    bitsOut t = bitsOut s ++ List.replicate ((8 - s.nbits.toNat) % 8) true ∧
    t = { s with acc := t.acc, nbits := 0, codeOut := t.codeOut } ∧ (s.nbits = 0 → t = s) ∧
    (s.nbits ≠ 0 → t.acc = 0 ∧ t.codeOut.length = s.codeOut.length + 1)

/-- 44 R204: bits put one by one from a byte boundary and then padded appear on `CODE_OUT` eight to a byte, bit `8j + i`
in bit `i` of byte `j`, the rest ones. -/
def Obligations.PutBitsAppearAsPackedBytes : Prop :=
  ∀ (s : State) (e : List Bool), s.nbits = 0 →
    ∃ t, execAll (e.map .putbit ++ [.padflush]) s = some t ∧ t.nbits = 0 ∧
      t.codeOut = s.codeOut ++ packBits (e ++ List.replicate ((8 - e.length % 8) % 8) true) ∧
      t.codeOut.length = s.codeOut.length + (e.length + 7) / 8

/-- 42 R163: EMIT puts the determinate bit, then `UFC` complements, and clears the counter. -/
def Obligations.EmitResolvesDeferredBits : Prop :=
  ∀ (s : State) (b : Bool), ∃ t, exec (.emit b) s = .next t ∧
    bitsOut t = bitsOut s ++ b :: List.replicate s.ufc (!b) ∧
    t = { s with acc := t.acc, nbits := t.nbits, codeOut := t.codeOut, ufc := 0 }

/-- 42 R164, R165: DEFER counts one more and puts no bit; at the maximum it raises `F_UFCOVF` and does not wrap. -/
def Obligations.DeferCountsOrFaults : Prop :=
  ∀ s : State,
    (s.ufc + 1 < 2 ^ s.cfg.ufcBits → exec .defer s = .next { s with ufc := s.ufc + 1 }) ∧
    (s.ufc = 2 ^ s.cfg.ufcBits - 1 → exec .defer s = .next { s with fcode := .ufcovf, phase := .fault })

/-- 42 R167, 20 R57: FINISH puts `0`, `1` and the padding ones, leaves no byte in progress and goes to DONE; it neither
reads nor writes `UFC`, `LOWER`, `UPPER`; the last bit of what it leaves on `CODE_OUT` is 1. -/
def Obligations.FinishPutsMarkerAndPadding : Prop :=
  ∀ s : State, ∃ t, exec .phFinish s = .next t ∧ t.nbits = 0 ∧
    bytesBits t.codeOut = finishBits (bitsOut s) ∧
    t = { s with acc := 0, nbits := 0, codeOut := t.codeOut, phase := .done } ∧
    ∃ init last, t.codeOut = init ++ [last] ∧ last.getLsbD 7 = true

/-! ## The decoder -/

/-- 44 R205, R206: GETBIT takes the next real bit, least significant first, a new byte only when none is left; when the
stream is exhausted it repeats the last real bit and changes nothing; a stream that never had a bit raises `F_NOBITS`;
while a bit may still come the step is held, which the model writes as an unchanged next state (log 4). GETBIT stands
alone here (log 14). -/
def Obligations.GetbitTakesNextStreamBit : Prop :=
  ∀ s : State, s.icnt.toNat ≤ 8 →
    (∀ b rest, bitsIn s = b :: rest → ∃ t, exec .getbit s = .next t ∧ bitsIn t = rest ∧ t.lastbit = b ∧
      t.havelast = true ∧ t.icnt.toNat ≤ 8 ∧
      t.codeIn = (if s.icnt = 0 then s.codeIn.tail else s.codeIn) ∧
      t.ibuf = (if s.icnt = 0 then s.codeIn.headD 0 else s.ibuf) >>> 1 ∧
      t = { s with ibuf := t.ibuf, icnt := t.icnt, codeIn := t.codeIn, lastbit := b, havelast := true }) ∧
    (bitsIn s = [] → s.codeInEnd = true → s.havelast = true → exec .getbit s = .next s) ∧
    (bitsIn s = [] → s.codeInEnd = true → s.havelast = false →
      exec .getbit s = .next { s with fcode := .nobits, phase := .fault }) ∧
    (bitsIn s = [] → s.codeInEnd = false → exec .getbit s = .next s)

/-- 44 R208: in a session whose whole stream has been pushed, the `n`-th GETBIT returns bit `n` of the stream, and past
its end the last bit of its last byte. -/
def Obligations.GetbitSequenceIsStream : Prop :=
  ∀ (s : State) (c : List Byte), c ≠ [] → s.icnt = 0 → s.havelast = false → s.codeIn = c → s.codeInEnd = true →
    ∀ n : Nat, ∃ t, execAll (List.replicate (n + 1) .getbit) s = some t ∧ t.fcode = s.fcode ∧
      t.lastbit = streamBit c n

/-- 43 R187, R188: CONSUME_SHIFT discards the window's top bit and lets the stream bit in at the low end;
CONSUME_SPLICE keeps the top bit and drops the second, which where the two differ is `2 * (WINDOW - 2^30) + b`. Each
takes one stream bit. -/
def Obligations.ConsumeMovesWindow : Prop :=
  ∀ s : State, BitReady s → ∃ bit u, TookBit s bit u ∧
    (∃ w : Word, exec .consumeShift s = .next { u with window := w } ∧
      w.toNat = 2 * s.window.toNat % 2 ^ 32 + bit.toNat) ∧
    (∃ w : Word, exec .consumeSplice s = .next { u with window := w } ∧
      w.getLsbD 31 = s.window.getLsbD 31 ∧ w.getLsbD 0 = bit ∧
      (∀ i : Fin 30, w.getLsbD (i.val + 1) = s.window.getLsbD i.val) ∧
      (s.window.getLsbD 31 ≠ s.window.getLsbD 30 → w.toNat = 2 * (s.window.toNat - 2 ^ 30) + bit.toNat))

/-- 43 R182: FILL shifts one stream bit into the window and counts it; the thirty-second goes to SCALE. -/
def Obligations.FillShiftsOneBitIn : Prop :=
  ∀ s : State, s.fillcnt.toNat < 32 → BitReady s → ∃ bit u w, TookBit s bit u ∧
    exec .phFill s = .next { u with
      window := w, fillcnt := s.fillcnt + 1, phase := if s.fillcnt.toNat + 1 = 32 then .scale else .fill } ∧
    w.toNat = 2 * s.window.toNat % 2 ^ 32 + bit.toNat

/-- 43 R182, 20 R55: after START_DEC and the whole stream pushed, thirty-two FILL steps put stream bit `k` in
`WINDOW[31 - k]`, a short stream completed by its last bit, and go to SCALE. -/
def Obligations.FillLoadsWindowMostSignificantFirst : Prop :=
  ∀ (s : State) (c : List Byte), c ≠ [] → s.fillcnt = 0 → s.icnt = 0 → s.havelast = false → s.codeIn = c →
    s.codeInEnd = true →
    ∃ t, execAll (List.replicate 32 .phFill) s = some t ∧ t.phase = .scale ∧ t.fillcnt = 32#6 ∧
      ∀ k : Fin 32, t.window.getLsbD (31 - k.val) = streamBit c k.val

/-- 43 R183: SCALE records the range and the scaled position, which is below `TOTAL`, 0 at the bottom and `TOTAL - 1` at
the top of an interval at least `TOTAL` wide; with the window outside the interval it raises `F_INVARIANT`. -/
def Obligations.ScaleComputesPosition : Prop :=
  ∀ s : State,
    (WindowInside s → total s.cfg.cf ≠ 0 → ∃ t, exec .phScale s = .next t ∧
      t.range.toNat = s.upper.toNat - s.lower.toNat + 1 ∧
      t.scaled.toNat =
        ((s.window.toNat - s.lower.toNat + 1) * (total s.cfg.cf).toNat - 1) /
          (s.upper.toNat - s.lower.toNat + 1) ∧
      t.scaled < total s.cfg.cf ∧
      ((total s.cfg.cf).toNat ≤ s.upper.toNat - s.lower.toNat + 1 →
        (s.window = s.lower → t.scaled = 0) ∧
        (s.window = s.upper → t.scaled.toNat = (total s.cfg.cf).toNat - 1)) ∧
      t = { s with range := t.range, scaled := t.scaled, phase := .search }) ∧
    (¬ WindowInside s → exec .phScale s = .next { s with fcode := .invariant, phase := .fault })

/-- 43 R184: the position SCALE stores lies in a symbol's range exactly when the window lies in the sub-interval NARROW
would give that symbol. -/
def Obligations.ScaleInvertsNarrow : Prop :=
  ∀ (s t : State) (x : Symbol), exec .phScale s = .next t → t.phase = .search →
    (lowOf s.cfg.cf x ≤ t.scaled ∧ t.scaled < highOf s.cfg.cf x ↔
      narrowLow s.lower s.upper (lowOf s.cfg.cf x) (total s.cfg.cf) ≤ s.window.toNat ∧
      s.window.toNat < narrowEnd s.lower s.upper (highOf s.cfg.cf x) (total s.cfg.cf))

/-- 43 R185, R186, 60 R241: under a valid table and below `TOTAL`, SEARCH finds the one symbol whose range holds the
position, ties included; a byte symbol is pushed and latched, the end-of-stream symbol ends the session with nothing
pushed; a position not below `TOTAL` raises `F_INVARIANT`. -/
def Obligations.SearchFindsUniqueSymbol : Prop :=
  ∀ s : State,
    (CFValid s.cfg.cf → s.scaled < total s.cfg.cf → ∃ x : Symbol,
      (lowOf s.cfg.cf x ≤ s.scaled ∧ s.scaled < highOf s.cfg.cf x ∧
        ∀ y : Symbol, y < x → ¬ s.scaled < highOf s.cfg.cf y) ∧
      (x = eofSymbol → exec .phSearch s = .next { s with sym := 256#9, phase := .done }) ∧
      (x ≠ eofSymbol → exec .phSearch s = .next { s with
        sym := BitVec.ofNat 9 x.val, byteOut := s.byteOut ++ [BitVec.ofNat 8 x.val],
        low := lowOf s.cfg.cf x, high := highOf s.cfg.cf x, phase := .narrow })) ∧
    (total s.cfg.cf ≤ s.scaled → exec .phSearch s = .next { s with fcode := .invariant, phase := .fault })

/-! ## Status, faults, reset and the host -/

/-- 10 R29, R27, R28, 30 R86: the three fields of `STATUS`, the numbers that stand there for each phase, mode and fault,
and the conditions BUSY and FAULTED; reading it changes nothing. -/
def Obligations.StatusShowsPhaseModeAndFault : Prop :=
  ([Phase.idle, .fetch, .narrow, .renorm, .finish, .fill, .scale, .search, .done, .fault].map (·.code.toNat) =
    [0, 1, 2, 3, 4, 5, 6, 7, 8, 15]) ∧
  ([Mode.enc, .dec].map (·.bit.toNat) = [0, 1]) ∧
  ([FCode.none, .config, .illsym, .ufcovf, .nobits, .invariant, .illcmd].map (·.code.toNat) =
    [0, 1, 2, 3, 4, 5, 6]) ∧
  ∀ s : State,
    s.status.extractLsb' 0 4 = s.phase.code ∧ s.status.extractLsb' 4 1 = s.mode.bit ∧
    s.status.extractLsb' 5 3 = s.fcode.code ∧ hostAct .readStatus s = .next s ∧
    (s.busy = true ↔ s.phase ≠ .idle ∧ s.phase ≠ .done ∧ s.phase ≠ .fault) ∧
    (MachineInv s → (s.faulted = true ↔ s.phase = .fault))

/-- 60 R246, R245: whatever operation raises a fault, its only effect is `FCODE`, `PHASE = FAULT` and the element it
popped from `SYM_IN` or `CMD`. -/
def Obligations.FaultEntryDiscardsOtherWrites : Prop :=
  ∀ (i : Instr) (s t : State), s.fcode = .none → exec i s = .next t → t.fcode ≠ .none →
    t = { s with fcode := t.fcode, phase := .fault, symIn := t.symIn, cmd := t.cmd } ∧
    (t.symIn = s.symIn ∨ t.symIn = s.symIn.tail) ∧ (t.cmd = s.cmd ∨ t.cmd = s.cmd.tail)

/-- 60 R247, 10 R28: in FAULT the core does nothing, ever; with a fault recorded no move but RESET changes `FCODE` or
`PHASE`. -/
def Obligations.FaultLeftOnlyByReset : Prop :=
  (∀ s : State, exec .phFault s = .next s) ∧
  ∀ s t : State, s.fcode ≠ .none → step s = .next t →
    (t.fcode = s.fcode ∧ t.phase = s.phase ∨
      t.fcode = .none ∧ t.phase = .idle ∧ s.schedule.head? = some (.host .reset)) ∧
    (s.schedule = [] → t = s)

/-- 30 R86, R88: no rule gives phase codes 9 to 14 an operation; they are refused by name. -/
def Obligations.UnusedPhaseCodesRefused : Prop :=
  ∀ (s : State) (p : BitVec 3), exec (.phUnused p) s = .refused .unusedPhaseCode

/-- 10 R37, 70 R270: RESET, in any phase, leaves `PHASE = IDLE`, `FCODE = 0`, no command, and the data ports and the
table as they were; nothing is claimed of the other registers. -/
def Obligations.ResetLeavesIdleAndPorts : Prop :=
  (∀ s : State, ∃ t, hostAct .reset s = .next t ∧ t.phase = .idle ∧ t.fcode = .none ∧ t.cmd = [] ∧
    t.symIn = s.symIn ∧ t.codeOut = s.codeOut ∧ t.codeIn = s.codeIn ∧ t.codeInEnd = s.codeInEnd ∧
    t.byteOut = s.byteOut ∧ t.cfg = s.cfg ∧ ResetState t) ∧
  State.reset.phase = .idle ∧ State.reset.fcode = .none ∧ State.reset.cmd = []

/-- 45 R232, 10 R33: the host's pushes append, its pops remove the oldest, the end flag is set, and the table is
replaced in IDLE and DONE; each changes nothing else. The model's choices: one move empties the four data ports and
clears the end flag together (log 21), outside a session only (log 6), and a pop of an empty output changes nothing
(log 23). -/
def Obligations.HostMovesActOnPorts : Prop :=
  ∀ s : State,
    (∀ c, hostAct (.cmd c) s = .next { s with cmd := s.cmd ++ [c] }) ∧
    (∀ c, hostAct (.sym c) s = .next { s with symIn := s.symIn ++ [c] }) ∧
    (∀ b, s.codeInEnd = false → hostAct (.code b) s = .next { s with codeIn := s.codeIn ++ [b] }) ∧
    hostAct .codeEnd s = .next { s with codeInEnd := true } ∧
    hostAct .popCodeOut s = .next { s with codeOut := s.codeOut.tail } ∧
    hostAct .popByteOut s = .next { s with byteOut := s.byteOut.tail } ∧
    (s.busy = false →
      hostAct .emptyPorts s =
        .next { s with symIn := [], codeIn := [], codeOut := [], byteOut := [], codeInEnd := false }) ∧
    (∀ t, s.phase = .idle ∨ s.phase = .done →
      hostAct (.loadTable t) s = .next { s with cfg := { s.cfg with cf := t } })

/-! ## What no operation does -/

/-- 40 R119, 20 R65: no operation writes the table or the counter's width; between two states only the host's
replacement in IDLE or DONE changes the table. -/
def Obligations.TableIsNeverWritten : Prop :=
  (∀ (i : Instr) (s t : State), exec i s = .next t → t.cfg = s.cfg) ∧
  (∀ s t : State, step s = .next t →
    t.cfg = s.cfg ∨
      ∃ tb, s.schedule.head? = some (.host (.loadTable tb)) ∧ (s.phase = .idle ∨ s.phase = .done) ∧
        t.cfg = { s.cfg with cf := tb })

/-- 10 section 8, R20 to R27: which operations may write the registers: the interval only by START, NARROW, RN_E1 and
RN_E3; `MODE` only by START; the counter only by START_ENC, RN_E1, RN_E3, EMIT and DEFER; the window only by START_DEC,
FILL, RN_E1, RN_E3 and the two CONSUME; the latches only by FETCH and SEARCH; `RANGE` and `SCALED` only by SCALE;
`FILLCNT` only by START_DEC and FILL; the packer only by START_ENC, RN_E1, FINISH and the three sub-operations that put
bits; the unpacker only by START_DEC (`ICNT`, `HAVELAST`) and the operations that take a stream bit; `FCODE` only by an
operation that raises a fault, which goes to FAULT. The phases count as what they run, and a sub-operation by itself
writes `PHASE` only when it faults (log 13). In encode mode the renormaliser never touches the window or the input
stream, in decode mode never the counter or the packer. -/
def Obligations.RegisterWriters : Prop :=
  ∀ (i : Instr) (s t : State), exec i s = .next t →
    (t.lower ≠ s.lower ∨ t.upper ≠ s.upper →
      i ∈ [.startEnc, .startDec, .rnE3, .phIdle, .phDone, .phNarrow, .phRenorm] ∨
        (∃ x y, i = .rnE1b0 x y ∨ i = .rnE1b1 x y)) ∧
    (t.mode ≠ s.mode → i ∈ [.startEnc, .startDec, .phIdle, .phDone]) ∧
    (t.ufc ≠ s.ufc →
      i ∈ [.startEnc, .rnE3, .phIdle, .phDone, .phRenorm, .defer] ∨
        (∃ x y, i = .rnE1b0 x y ∨ i = .rnE1b1 x y ∨ i = .emit x)) ∧
    (t.window ≠ s.window →
      i ∈ [.startDec, .rnE3, .phIdle, .phDone, .phRenorm, .phFill, .consumeShift, .consumeSplice] ∨
        (∃ x y, i = .rnE1b0 x y ∨ i = .rnE1b1 x y)) ∧
    (t.sym ≠ s.sym ∨ t.low ≠ s.low ∨ t.high ≠ s.high →
      i ∈ [.fetchEof, .phFetch, .phSearch] ∨ ∃ v, i = .fetchByte v) ∧
    (t.range ≠ s.range ∨ t.scaled ≠ s.scaled → i = .phScale) ∧
    (t.fillcnt ≠ s.fillcnt → i ∈ [.startDec, .phIdle, .phDone, .phFill]) ∧
    (t.acc ≠ s.acc ∨ t.nbits ≠ s.nbits →
      i ∈ [.startEnc, .phIdle, .phDone, .phRenorm, .phFinish, .padflush] ∨
        (∃ x y, i = .rnE1b0 x y ∨ i = .rnE1b1 x y ∨ i = .putbit x ∨ i = .emit x)) ∧
    (t.ibuf ≠ s.ibuf ∨ t.lastbit ≠ s.lastbit →
      i ∈ [.rnE3, .phRenorm, .phFill, .getbit, .consumeShift, .consumeSplice] ∨
        (∃ x y, i = .rnE1b0 x y ∨ i = .rnE1b1 x y)) ∧
    (t.icnt ≠ s.icnt ∨ t.havelast ≠ s.havelast →
      i ∈ [.startDec, .rnE3, .phIdle, .phDone, .phRenorm, .phFill, .getbit, .consumeShift, .consumeSplice] ∨
        (∃ x y, i = .rnE1b0 x y ∨ i = .rnE1b1 x y)) ∧
    (t.fcode ≠ s.fcode → t.phase = .fault ∧
      (i ∈ [.startEnc, .startDec, .cmdReserved, .rnE3, .phIdle, .phFetch, .phNarrow, .phRenorm, .phFill, .phScale,
          .phSearch, .phDone, .getbit, .defer, .consumeShift, .consumeSplice] ∨
        (∃ v x y, i = .symIllegal v ∨ i = .rnE1b0 x y ∨ i = .rnE1b1 x y ∨ i = .rnUnreachable x y))) ∧
    (t.phase ≠ s.phase → i.format ≠ .prim ∨ t.phase = .fault) ∧
    (i = .phRenorm → s.mode = .enc → t.window = s.window ∧ t.ibuf = s.ibuf ∧ t.icnt = s.icnt ∧
      t.codeIn = s.codeIn ∧ t.lastbit = s.lastbit ∧ t.havelast = s.havelast) ∧
    (i = .phRenorm → s.mode = .dec → t.ufc = s.ufc ∧ t.acc = s.acc ∧ t.nbits = s.nbits ∧ t.codeOut = s.codeOut)

/-- 20 R60, R62, 10 R33: whatever the operation, the ports are queues: at most one element leaves an input, the oldest,
and an output only grows at its end, `BYTE_OUT` by at most one byte. -/
def Obligations.PortsAreQueues : Prop :=
  ∀ (i : Instr) (s t : State), exec i s = .next t →
    (t.symIn = s.symIn ∨ t.symIn = s.symIn.tail) ∧ (t.codeIn = s.codeIn ∨ t.codeIn = s.codeIn.tail) ∧
    (t.cmd = s.cmd ∨ t.cmd = s.cmd.tail) ∧ t.codeInEnd = s.codeInEnd ∧
    (∃ new, t.codeOut = s.codeOut ++ new) ∧ (t.byteOut = s.byteOut ∨ ∃ b, t.byteOut = s.byteOut ++ [b])

/-- 10 R39: two states that agree on the registers a phase still depends on take the same moves and go on agreeing, so
the values a reset leaves unspecified never reach an output. -/
def Obligations.UnspecifiedRegistersNeverReachOutput : Prop :=
  ∀ s t s' : State, SameLive s t → step s = .next s' → ∃ t', step t = .next t' ∧ SameLive s' t'

/-! ## Encodings -/

/-- 30 R80 to R86: decoding the code of a well-formed operation gives it back, with every operand. -/
def Obligations.DecodeUndoesEncode : Prop :=
  ∀ i : Instr, i.wellFormed = true → i.format ≠ .prim → decode i.format (encode i) = .ok i

/-- 30 R80 to R88: what a code decodes to is well-formed, of that format, and has that code; every code that fits its
format's width decodes. -/
def Obligations.EncodeUndoesDecode : Prop :=
  (∀ (f : Format) (w : Nat) (i : Instr), decode f w = .ok i → i.wellFormed = true ∧ i.format = f ∧ encode i = w) ∧
  (∀ (f : Format) (w : Nat), f ≠ .prim → w < 2 ^ f.width → ∃ i, decode f w = .ok i)

/-- 30 R81 to R86: one code of each kind, written out bit by bit. -/
def Obligations.SampleCodesDecode : Prop :=
  decode .cmd 0b01 = .ok .startEnc ∧ decode .sym 0b001000001 = .ok (.fetchByte 0x41) ∧
    decode .sym 0b100000000 = .ok .fetchEof ∧ decode .sym 0b100000001 = .ok (.symIllegal 1) ∧
    decode .rn 0b0110 = .ok .rnE3 ∧ decode .rn 0b0100 = .ok (.rnE1b0 true false) ∧
    decode .ph 0b0111 = .ok .phSearch ∧ decode .ph 0b1001 = .ok (.phUnused 1) ∧
    decode .prim 0 = .error .noCode ∧ decode .cmd 0b100 = .error .tooWide

/-! ## Headlines -/

/-- 41 R141, R144, 43 R190, 60 R244: every move, of the core or of the host, keeps the invariant. -/
def Obligations.EveryMoveKeepsInvariant : Prop := ∀ s t : State, MachineInv s → step s = .next t → MachineInv t

/-- 10 R37: the invariant holds in every state a reset can leave, and in the model's reset state. -/
def Obligations.ResetStatesSatisfyInvariant : Prop := (∀ s : State, ResetState s → MachineInv s) ∧ ResetState State.reset

/-- 41 R141, 43 R190, 60 R244: from any state a reset can leave, whatever the host does, no run records `F_INVARIANT`;
in a session `LOWER <= UPPER`, and in a decode session past its fill `LOWER <= WINDOW <= UPPER`. -/
def Obligations.RunsFromResetStayConsistent : Prop :=
  ∀ (s t : State) (n : Nat), ResetState s → Host.Core.run Sys2Proof.core n s = .next t →
    t.fcode ≠ .invariant ∧ (t.busy = true → t.lower ≤ t.upper) ∧
    (t.busy = true → t.mode = .dec → t.phase ≠ .fill → WindowInside t)

/-- 45 R227, R229: the encode session of a message, from IDLE or DONE, ends, removes exactly the message's symbols and
pushes the bytes of `Encode(M)`, as long as the counter cannot overflow: when it is fed whole, and when the host feeds the
command and the symbols and drains the output in any interleaving with the core's steps, at every time from some move
on (the schedule is log 5, the steps of a core at rest log 4, a pop of an empty output log 23). -/
def Obligations.EncodeSessionComputesEncode : Prop :=
  ∀ (s : State) (m : List Byte) (cs : List CmdCode) (rest : List SymCode),
    s.phase = .idle ∨ s.phase = .done → s.fcode = .none → CFSafe s.cfg.cf → 32 * (m.length + 1) < 2 ^ s.cfg.ufcBits →
    (s.schedule = [] → s.cmd = 0b01#2 :: cs → s.symIn = messageCodes m ++ rest →
      ∃ t out, Reaches s t ∧ EndOfRun t ∧ encodeMessage s.cfg.cf m = some out ∧ t.codeOut = s.codeOut ++ out ∧
        t.symIn = rest ∧ t.cmd = cs) ∧
    (HostFeedsAndDrains s → s.cmd ++ pushedCmd s.schedule = [0b01#2] →
      s.symIn ++ pushedSym s.schedule = messageCodes m ++ rest →
      ∃ out N, encodeMessage s.cfg.cf m = some out ∧ ∀ k, N ≤ k → ∃ t, Host.Core.run Sys2Proof.core k s = .next t ∧
        EndOfRun t ∧ codeDrained k s ++ t.codeOut = s.codeOut ++ out ∧ t.symIn = rest ∧ t.cmd = [])

/-- 45 R228, R229: the decode session of a stream, from IDLE or DONE, ends and pushes the bytes of `Decode(C)`, where that
function ends: when it is fed whole, and when the host feeds the command, the bytes and the end flag and drains the output
in any interleaving with the core's steps, at every time from some move on (the schedule is log 5, the steps of a core at
rest log 4, a pop of an empty output log 23). -/
def Obligations.DecodeSessionComputesDecode : Prop :=
  ∀ (s : State) (c m : List Byte) (cs : List CmdCode) (n : Nat),
    s.phase = .idle ∨ s.phase = .done → s.fcode = .none → CFSafe s.cfg.cf → c ≠ [] →
    decodeStream s.cfg.cf n c = some m →
    (s.schedule = [] → s.cmd = 0b10#2 :: cs → s.codeIn = c → s.codeInEnd = true →
      ∃ t, Reaches s t ∧ EndOfRun t ∧ t.byteOut = s.byteOut ++ m ∧ t.cmd = cs) ∧
    (HostFeedsAndDrains s → s.cmd ++ pushedCmd s.schedule = [0b10#2] → s.codeIn ++ pushedCode s.schedule = c →
      (s.codeInEnd || endsStream s.schedule) = true →
      ∃ N, ∀ k, N ≤ k → ∃ t, Host.Core.run Sys2Proof.core k s = .next t ∧ EndOfRun t ∧
        byteDrained k s ++ t.byteOut = s.byteOut ++ m ∧ t.cmd = [])

/-- 43 R192: `Decode(Encode(M)) = M` for every message and every safe table. -/
def Obligations.DecodeUndoesEncodeMessage : Prop :=
  ∀ (t : Table) (m : List Byte), CFSafe t →
    ∃ c, encodeMessage t m = some c ∧ c ≠ [] ∧ decodeStream t (m.length + 1) c = some m

/-- 43 R192: the round-trip law of the machine: the encode session of a message runs, consuming its command and all its
symbols, and pushes `Encode(M)`; the decode session of those bytes under the same table runs, consuming its command, ends
with no fault, and has pushed the message. So it is when each session is fed whole, and when the host feeds and drains
each in any interleaving with the core's steps (45 R229), at every time from some move on (the schedule is log 5, the
steps of a core at rest log 4, a pop of an empty output log 23). -/
def Obligations.RoundTripLaw : Prop :=
  ∀ (s d : State) (m : List Byte) (cs ds : List CmdCode),
    s.phase = .idle ∨ s.phase = .done → s.fcode = .none → CFSafe s.cfg.cf → s.codeOut = [] →
    32 * (m.length + 1) < 2 ^ s.cfg.ufcBits →
    d.phase = .idle ∨ d.phase = .done → d.fcode = .none → d.cfg.cf = s.cfg.cf → d.byteOut = [] →
    (s.schedule = [] → s.cmd = 0b01#2 :: cs → s.symIn = messageCodes m →
      d.schedule = [] → d.cmd = 0b10#2 :: ds → d.codeInEnd = true →
      ∃ t c, Reaches s t ∧ EndOfRun t ∧ t.cmd = cs ∧ t.symIn = [] ∧ encodeMessage s.cfg.cf m = some c ∧
        t.codeOut = c ∧ (d.codeIn = c → ∃ e, Reaches d e ∧ EndOfRun e ∧ e.cmd = ds ∧ e.byteOut = m)) ∧
    (HostFeedsAndDrains s → s.cmd ++ pushedCmd s.schedule = [0b01#2] →
      s.symIn ++ pushedSym s.schedule = messageCodes m →
      HostFeedsAndDrains d → d.cmd ++ pushedCmd d.schedule = [0b10#2] →
      (d.codeInEnd || endsStream d.schedule) = true →
      ∃ c N, encodeMessage s.cfg.cf m = some c ∧
        (∀ k, N ≤ k → ∃ t, Host.Core.run Sys2Proof.core k s = .next t ∧ EndOfRun t ∧ t.cmd = [] ∧ t.symIn = [] ∧
          codeDrained k s ++ t.codeOut = c) ∧
        (d.codeIn ++ pushedCode d.schedule = c → ∃ K, ∀ k, K ≤ k → ∃ e, Host.Core.run Sys2Proof.core k d = .next e ∧
          EndOfRun e ∧ e.cmd = [] ∧ byteDrained k d ++ e.byteOut = m))
end

