-- ==== Sys2Proof/Laws/State.lean ====
section
/-! SUPPORT. What each named update of the state does to each field. -/

namespace Sys2Proof.Machine

@[simp] theorem State.raise_lower (c : FCode) (s : State) : (s.raise c).lower = s.lower := rfl
@[simp] theorem State.raise_upper (c : FCode) (s : State) : (s.raise c).upper = s.upper := rfl
@[simp] theorem State.raise_ufc (c : FCode) (s : State) : (s.raise c).ufc = s.ufc := rfl
@[simp] theorem State.raise_window (c : FCode) (s : State) : (s.raise c).window = s.window := rfl
@[simp] theorem State.raise_sym (c : FCode) (s : State) : (s.raise c).sym = s.sym := rfl
@[simp] theorem State.raise_low (c : FCode) (s : State) : (s.raise c).low = s.low := rfl
@[simp] theorem State.raise_high (c : FCode) (s : State) : (s.raise c).high = s.high := rfl
@[simp] theorem State.raise_range (c : FCode) (s : State) : (s.raise c).range = s.range := rfl
@[simp] theorem State.raise_scaled (c : FCode) (s : State) : (s.raise c).scaled = s.scaled := rfl
@[simp] theorem State.raise_fillcnt (c : FCode) (s : State) : (s.raise c).fillcnt = s.fillcnt := rfl
@[simp] theorem State.raise_phase (c : FCode) (s : State) : (s.raise c).phase = .fault := rfl
@[simp] theorem State.raise_mode (c : FCode) (s : State) : (s.raise c).mode = s.mode := rfl
@[simp] theorem State.raise_fcode (c : FCode) (s : State) : (s.raise c).fcode = c := rfl
@[simp] theorem State.raise_acc (c : FCode) (s : State) : (s.raise c).acc = s.acc := rfl
@[simp] theorem State.raise_nbits (c : FCode) (s : State) : (s.raise c).nbits = s.nbits := rfl
@[simp] theorem State.raise_ibuf (c : FCode) (s : State) : (s.raise c).ibuf = s.ibuf := rfl
@[simp] theorem State.raise_icnt (c : FCode) (s : State) : (s.raise c).icnt = s.icnt := rfl
@[simp] theorem State.raise_lastbit (c : FCode) (s : State) : (s.raise c).lastbit = s.lastbit := rfl
@[simp] theorem State.raise_havelast (c : FCode) (s : State) : (s.raise c).havelast = s.havelast := rfl
@[simp] theorem State.raise_symIn (c : FCode) (s : State) : (s.raise c).symIn = s.symIn := rfl
@[simp] theorem State.raise_codeOut (c : FCode) (s : State) : (s.raise c).codeOut = s.codeOut := rfl
@[simp] theorem State.raise_codeIn (c : FCode) (s : State) : (s.raise c).codeIn = s.codeIn := rfl
@[simp] theorem State.raise_codeInEnd (c : FCode) (s : State) : (s.raise c).codeInEnd = s.codeInEnd := rfl
@[simp] theorem State.raise_byteOut (c : FCode) (s : State) : (s.raise c).byteOut = s.byteOut := rfl
@[simp] theorem State.raise_cmd (c : FCode) (s : State) : (s.raise c).cmd = s.cmd := rfl
@[simp] theorem State.raise_cfg (c : FCode) (s : State) : (s.raise c).cfg = s.cfg := rfl
@[simp] theorem State.raise_schedule (c : FCode) (s : State) : (s.raise c).schedule = s.schedule := rfl
@[simp] theorem State.raise_resets (c : FCode) (s : State) : (s.raise c).resets = s.resets := rfl

@[simp] theorem State.popCmd_lower (s : State) : (s.popCmd).lower = s.lower := rfl
@[simp] theorem State.popCmd_upper (s : State) : (s.popCmd).upper = s.upper := rfl
@[simp] theorem State.popCmd_ufc (s : State) : (s.popCmd).ufc = s.ufc := rfl
@[simp] theorem State.popCmd_window (s : State) : (s.popCmd).window = s.window := rfl
@[simp] theorem State.popCmd_sym (s : State) : (s.popCmd).sym = s.sym := rfl
@[simp] theorem State.popCmd_low (s : State) : (s.popCmd).low = s.low := rfl
@[simp] theorem State.popCmd_high (s : State) : (s.popCmd).high = s.high := rfl
@[simp] theorem State.popCmd_range (s : State) : (s.popCmd).range = s.range := rfl
@[simp] theorem State.popCmd_scaled (s : State) : (s.popCmd).scaled = s.scaled := rfl
@[simp] theorem State.popCmd_fillcnt (s : State) : (s.popCmd).fillcnt = s.fillcnt := rfl
@[simp] theorem State.popCmd_phase (s : State) : (s.popCmd).phase = s.phase := rfl
@[simp] theorem State.popCmd_mode (s : State) : (s.popCmd).mode = s.mode := rfl
@[simp] theorem State.popCmd_fcode (s : State) : (s.popCmd).fcode = s.fcode := rfl
@[simp] theorem State.popCmd_acc (s : State) : (s.popCmd).acc = s.acc := rfl
@[simp] theorem State.popCmd_nbits (s : State) : (s.popCmd).nbits = s.nbits := rfl
@[simp] theorem State.popCmd_ibuf (s : State) : (s.popCmd).ibuf = s.ibuf := rfl
@[simp] theorem State.popCmd_icnt (s : State) : (s.popCmd).icnt = s.icnt := rfl
@[simp] theorem State.popCmd_lastbit (s : State) : (s.popCmd).lastbit = s.lastbit := rfl
@[simp] theorem State.popCmd_havelast (s : State) : (s.popCmd).havelast = s.havelast := rfl
@[simp] theorem State.popCmd_symIn (s : State) : (s.popCmd).symIn = s.symIn := rfl
@[simp] theorem State.popCmd_codeOut (s : State) : (s.popCmd).codeOut = s.codeOut := rfl
@[simp] theorem State.popCmd_codeIn (s : State) : (s.popCmd).codeIn = s.codeIn := rfl
@[simp] theorem State.popCmd_codeInEnd (s : State) : (s.popCmd).codeInEnd = s.codeInEnd := rfl
@[simp] theorem State.popCmd_byteOut (s : State) : (s.popCmd).byteOut = s.byteOut := rfl
@[simp] theorem State.popCmd_cmd (s : State) : (s.popCmd).cmd = s.cmd.tail := rfl
@[simp] theorem State.popCmd_cfg (s : State) : (s.popCmd).cfg = s.cfg := rfl
@[simp] theorem State.popCmd_schedule (s : State) : (s.popCmd).schedule = s.schedule := rfl
@[simp] theorem State.popCmd_resets (s : State) : (s.popCmd).resets = s.resets := rfl

@[simp] theorem State.popSym_lower (s : State) : (s.popSym).lower = s.lower := rfl
@[simp] theorem State.popSym_upper (s : State) : (s.popSym).upper = s.upper := rfl
@[simp] theorem State.popSym_ufc (s : State) : (s.popSym).ufc = s.ufc := rfl
@[simp] theorem State.popSym_window (s : State) : (s.popSym).window = s.window := rfl
@[simp] theorem State.popSym_sym (s : State) : (s.popSym).sym = s.sym := rfl
@[simp] theorem State.popSym_low (s : State) : (s.popSym).low = s.low := rfl
@[simp] theorem State.popSym_high (s : State) : (s.popSym).high = s.high := rfl
@[simp] theorem State.popSym_range (s : State) : (s.popSym).range = s.range := rfl
@[simp] theorem State.popSym_scaled (s : State) : (s.popSym).scaled = s.scaled := rfl
@[simp] theorem State.popSym_fillcnt (s : State) : (s.popSym).fillcnt = s.fillcnt := rfl
@[simp] theorem State.popSym_phase (s : State) : (s.popSym).phase = s.phase := rfl
@[simp] theorem State.popSym_mode (s : State) : (s.popSym).mode = s.mode := rfl
@[simp] theorem State.popSym_fcode (s : State) : (s.popSym).fcode = s.fcode := rfl
@[simp] theorem State.popSym_acc (s : State) : (s.popSym).acc = s.acc := rfl
@[simp] theorem State.popSym_nbits (s : State) : (s.popSym).nbits = s.nbits := rfl
@[simp] theorem State.popSym_ibuf (s : State) : (s.popSym).ibuf = s.ibuf := rfl
@[simp] theorem State.popSym_icnt (s : State) : (s.popSym).icnt = s.icnt := rfl
@[simp] theorem State.popSym_lastbit (s : State) : (s.popSym).lastbit = s.lastbit := rfl
@[simp] theorem State.popSym_havelast (s : State) : (s.popSym).havelast = s.havelast := rfl
@[simp] theorem State.popSym_symIn (s : State) : (s.popSym).symIn = s.symIn.tail := rfl
@[simp] theorem State.popSym_codeOut (s : State) : (s.popSym).codeOut = s.codeOut := rfl
@[simp] theorem State.popSym_codeIn (s : State) : (s.popSym).codeIn = s.codeIn := rfl
@[simp] theorem State.popSym_codeInEnd (s : State) : (s.popSym).codeInEnd = s.codeInEnd := rfl
@[simp] theorem State.popSym_byteOut (s : State) : (s.popSym).byteOut = s.byteOut := rfl
@[simp] theorem State.popSym_cmd (s : State) : (s.popSym).cmd = s.cmd := rfl
@[simp] theorem State.popSym_cfg (s : State) : (s.popSym).cfg = s.cfg := rfl
@[simp] theorem State.popSym_schedule (s : State) : (s.popSym).schedule = s.schedule := rfl
@[simp] theorem State.popSym_resets (s : State) : (s.popSym).resets = s.resets := rfl

@[simp] theorem State.pushCodeOut_lower (b : Byte) (s : State) : (s.pushCodeOut b).lower = s.lower := rfl
@[simp] theorem State.pushCodeOut_upper (b : Byte) (s : State) : (s.pushCodeOut b).upper = s.upper := rfl
@[simp] theorem State.pushCodeOut_ufc (b : Byte) (s : State) : (s.pushCodeOut b).ufc = s.ufc := rfl
@[simp] theorem State.pushCodeOut_window (b : Byte) (s : State) : (s.pushCodeOut b).window = s.window := rfl
@[simp] theorem State.pushCodeOut_sym (b : Byte) (s : State) : (s.pushCodeOut b).sym = s.sym := rfl
@[simp] theorem State.pushCodeOut_low (b : Byte) (s : State) : (s.pushCodeOut b).low = s.low := rfl
@[simp] theorem State.pushCodeOut_high (b : Byte) (s : State) : (s.pushCodeOut b).high = s.high := rfl
@[simp] theorem State.pushCodeOut_range (b : Byte) (s : State) : (s.pushCodeOut b).range = s.range := rfl
@[simp] theorem State.pushCodeOut_scaled (b : Byte) (s : State) : (s.pushCodeOut b).scaled = s.scaled := rfl
@[simp] theorem State.pushCodeOut_fillcnt (b : Byte) (s : State) : (s.pushCodeOut b).fillcnt = s.fillcnt := rfl
@[simp] theorem State.pushCodeOut_phase (b : Byte) (s : State) : (s.pushCodeOut b).phase = s.phase := rfl
@[simp] theorem State.pushCodeOut_mode (b : Byte) (s : State) : (s.pushCodeOut b).mode = s.mode := rfl
@[simp] theorem State.pushCodeOut_fcode (b : Byte) (s : State) : (s.pushCodeOut b).fcode = s.fcode := rfl
@[simp] theorem State.pushCodeOut_acc (b : Byte) (s : State) : (s.pushCodeOut b).acc = s.acc := rfl
@[simp] theorem State.pushCodeOut_nbits (b : Byte) (s : State) : (s.pushCodeOut b).nbits = s.nbits := rfl
@[simp] theorem State.pushCodeOut_ibuf (b : Byte) (s : State) : (s.pushCodeOut b).ibuf = s.ibuf := rfl
@[simp] theorem State.pushCodeOut_icnt (b : Byte) (s : State) : (s.pushCodeOut b).icnt = s.icnt := rfl
@[simp] theorem State.pushCodeOut_lastbit (b : Byte) (s : State) : (s.pushCodeOut b).lastbit = s.lastbit := rfl
@[simp] theorem State.pushCodeOut_havelast (b : Byte) (s : State) : (s.pushCodeOut b).havelast = s.havelast := rfl
@[simp] theorem State.pushCodeOut_symIn (b : Byte) (s : State) : (s.pushCodeOut b).symIn = s.symIn := rfl
@[simp] theorem State.pushCodeOut_codeOut (b : Byte) (s : State) : (s.pushCodeOut b).codeOut = s.codeOut ++ [b] := rfl
@[simp] theorem State.pushCodeOut_codeIn (b : Byte) (s : State) : (s.pushCodeOut b).codeIn = s.codeIn := rfl
@[simp] theorem State.pushCodeOut_codeInEnd (b : Byte) (s : State) : (s.pushCodeOut b).codeInEnd = s.codeInEnd := rfl
@[simp] theorem State.pushCodeOut_byteOut (b : Byte) (s : State) : (s.pushCodeOut b).byteOut = s.byteOut := rfl
@[simp] theorem State.pushCodeOut_cmd (b : Byte) (s : State) : (s.pushCodeOut b).cmd = s.cmd := rfl
@[simp] theorem State.pushCodeOut_cfg (b : Byte) (s : State) : (s.pushCodeOut b).cfg = s.cfg := rfl
@[simp] theorem State.pushCodeOut_schedule (b : Byte) (s : State) : (s.pushCodeOut b).schedule = s.schedule := rfl
@[simp] theorem State.pushCodeOut_resets (b : Byte) (s : State) : (s.pushCodeOut b).resets = s.resets := rfl

@[simp] theorem State.pushByteOut_lower (b : Byte) (s : State) : (s.pushByteOut b).lower = s.lower := rfl
@[simp] theorem State.pushByteOut_upper (b : Byte) (s : State) : (s.pushByteOut b).upper = s.upper := rfl
@[simp] theorem State.pushByteOut_ufc (b : Byte) (s : State) : (s.pushByteOut b).ufc = s.ufc := rfl
@[simp] theorem State.pushByteOut_window (b : Byte) (s : State) : (s.pushByteOut b).window = s.window := rfl
@[simp] theorem State.pushByteOut_sym (b : Byte) (s : State) : (s.pushByteOut b).sym = s.sym := rfl
@[simp] theorem State.pushByteOut_low (b : Byte) (s : State) : (s.pushByteOut b).low = s.low := rfl
@[simp] theorem State.pushByteOut_high (b : Byte) (s : State) : (s.pushByteOut b).high = s.high := rfl
@[simp] theorem State.pushByteOut_range (b : Byte) (s : State) : (s.pushByteOut b).range = s.range := rfl
@[simp] theorem State.pushByteOut_scaled (b : Byte) (s : State) : (s.pushByteOut b).scaled = s.scaled := rfl
@[simp] theorem State.pushByteOut_fillcnt (b : Byte) (s : State) : (s.pushByteOut b).fillcnt = s.fillcnt := rfl
@[simp] theorem State.pushByteOut_phase (b : Byte) (s : State) : (s.pushByteOut b).phase = s.phase := rfl
@[simp] theorem State.pushByteOut_mode (b : Byte) (s : State) : (s.pushByteOut b).mode = s.mode := rfl
@[simp] theorem State.pushByteOut_fcode (b : Byte) (s : State) : (s.pushByteOut b).fcode = s.fcode := rfl
@[simp] theorem State.pushByteOut_acc (b : Byte) (s : State) : (s.pushByteOut b).acc = s.acc := rfl
@[simp] theorem State.pushByteOut_nbits (b : Byte) (s : State) : (s.pushByteOut b).nbits = s.nbits := rfl
@[simp] theorem State.pushByteOut_ibuf (b : Byte) (s : State) : (s.pushByteOut b).ibuf = s.ibuf := rfl
@[simp] theorem State.pushByteOut_icnt (b : Byte) (s : State) : (s.pushByteOut b).icnt = s.icnt := rfl
@[simp] theorem State.pushByteOut_lastbit (b : Byte) (s : State) : (s.pushByteOut b).lastbit = s.lastbit := rfl
@[simp] theorem State.pushByteOut_havelast (b : Byte) (s : State) : (s.pushByteOut b).havelast = s.havelast := rfl
@[simp] theorem State.pushByteOut_symIn (b : Byte) (s : State) : (s.pushByteOut b).symIn = s.symIn := rfl
@[simp] theorem State.pushByteOut_codeOut (b : Byte) (s : State) : (s.pushByteOut b).codeOut = s.codeOut := rfl
@[simp] theorem State.pushByteOut_codeIn (b : Byte) (s : State) : (s.pushByteOut b).codeIn = s.codeIn := rfl
@[simp] theorem State.pushByteOut_codeInEnd (b : Byte) (s : State) : (s.pushByteOut b).codeInEnd = s.codeInEnd := rfl
@[simp] theorem State.pushByteOut_byteOut (b : Byte) (s : State) : (s.pushByteOut b).byteOut = s.byteOut ++ [b] := rfl
@[simp] theorem State.pushByteOut_cmd (b : Byte) (s : State) : (s.pushByteOut b).cmd = s.cmd := rfl
@[simp] theorem State.pushByteOut_cfg (b : Byte) (s : State) : (s.pushByteOut b).cfg = s.cfg := rfl
@[simp] theorem State.pushByteOut_schedule (b : Byte) (s : State) : (s.pushByteOut b).schedule = s.schedule := rfl
@[simp] theorem State.pushByteOut_resets (b : Byte) (s : State) : (s.pushByteOut b).resets = s.resets := rfl

@[simp] theorem State.shiftInterval_lower (s : State) : (s.shiftInterval).lower = shiftIn s.lower false := rfl
@[simp] theorem State.shiftInterval_upper (s : State) : (s.shiftInterval).upper = shiftIn s.upper true := rfl
@[simp] theorem State.shiftInterval_ufc (s : State) : (s.shiftInterval).ufc = s.ufc := rfl
@[simp] theorem State.shiftInterval_window (s : State) : (s.shiftInterval).window = s.window := rfl
@[simp] theorem State.shiftInterval_sym (s : State) : (s.shiftInterval).sym = s.sym := rfl
@[simp] theorem State.shiftInterval_low (s : State) : (s.shiftInterval).low = s.low := rfl
@[simp] theorem State.shiftInterval_high (s : State) : (s.shiftInterval).high = s.high := rfl
@[simp] theorem State.shiftInterval_range (s : State) : (s.shiftInterval).range = s.range := rfl
@[simp] theorem State.shiftInterval_scaled (s : State) : (s.shiftInterval).scaled = s.scaled := rfl
@[simp] theorem State.shiftInterval_fillcnt (s : State) : (s.shiftInterval).fillcnt = s.fillcnt := rfl
@[simp] theorem State.shiftInterval_phase (s : State) : (s.shiftInterval).phase = .renorm := rfl
@[simp] theorem State.shiftInterval_mode (s : State) : (s.shiftInterval).mode = s.mode := rfl
@[simp] theorem State.shiftInterval_fcode (s : State) : (s.shiftInterval).fcode = s.fcode := rfl
@[simp] theorem State.shiftInterval_acc (s : State) : (s.shiftInterval).acc = s.acc := rfl
@[simp] theorem State.shiftInterval_nbits (s : State) : (s.shiftInterval).nbits = s.nbits := rfl
@[simp] theorem State.shiftInterval_ibuf (s : State) : (s.shiftInterval).ibuf = s.ibuf := rfl
@[simp] theorem State.shiftInterval_icnt (s : State) : (s.shiftInterval).icnt = s.icnt := rfl
@[simp] theorem State.shiftInterval_lastbit (s : State) : (s.shiftInterval).lastbit = s.lastbit := rfl
@[simp] theorem State.shiftInterval_havelast (s : State) : (s.shiftInterval).havelast = s.havelast := rfl
@[simp] theorem State.shiftInterval_symIn (s : State) : (s.shiftInterval).symIn = s.symIn := rfl
@[simp] theorem State.shiftInterval_codeOut (s : State) : (s.shiftInterval).codeOut = s.codeOut := rfl
@[simp] theorem State.shiftInterval_codeIn (s : State) : (s.shiftInterval).codeIn = s.codeIn := rfl
@[simp] theorem State.shiftInterval_codeInEnd (s : State) : (s.shiftInterval).codeInEnd = s.codeInEnd := rfl
@[simp] theorem State.shiftInterval_byteOut (s : State) : (s.shiftInterval).byteOut = s.byteOut := rfl
@[simp] theorem State.shiftInterval_cmd (s : State) : (s.shiftInterval).cmd = s.cmd := rfl
@[simp] theorem State.shiftInterval_cfg (s : State) : (s.shiftInterval).cfg = s.cfg := rfl
@[simp] theorem State.shiftInterval_schedule (s : State) : (s.shiftInterval).schedule = s.schedule := rfl
@[simp] theorem State.shiftInterval_resets (s : State) : (s.shiftInterval).resets = s.resets := rfl

@[simp] theorem State.spliceInterval_lower (s : State) : (s.spliceInterval).lower = spliceIn false s.lower false := rfl
@[simp] theorem State.spliceInterval_upper (s : State) : (s.spliceInterval).upper = spliceIn true s.upper true := rfl
@[simp] theorem State.spliceInterval_ufc (s : State) : (s.spliceInterval).ufc = s.ufc := rfl
@[simp] theorem State.spliceInterval_window (s : State) : (s.spliceInterval).window = s.window := rfl
@[simp] theorem State.spliceInterval_sym (s : State) : (s.spliceInterval).sym = s.sym := rfl
@[simp] theorem State.spliceInterval_low (s : State) : (s.spliceInterval).low = s.low := rfl
@[simp] theorem State.spliceInterval_high (s : State) : (s.spliceInterval).high = s.high := rfl
@[simp] theorem State.spliceInterval_range (s : State) : (s.spliceInterval).range = s.range := rfl
@[simp] theorem State.spliceInterval_scaled (s : State) : (s.spliceInterval).scaled = s.scaled := rfl
@[simp] theorem State.spliceInterval_fillcnt (s : State) : (s.spliceInterval).fillcnt = s.fillcnt := rfl
@[simp] theorem State.spliceInterval_phase (s : State) : (s.spliceInterval).phase = .renorm := rfl
@[simp] theorem State.spliceInterval_mode (s : State) : (s.spliceInterval).mode = s.mode := rfl
@[simp] theorem State.spliceInterval_fcode (s : State) : (s.spliceInterval).fcode = s.fcode := rfl
@[simp] theorem State.spliceInterval_acc (s : State) : (s.spliceInterval).acc = s.acc := rfl
@[simp] theorem State.spliceInterval_nbits (s : State) : (s.spliceInterval).nbits = s.nbits := rfl
@[simp] theorem State.spliceInterval_ibuf (s : State) : (s.spliceInterval).ibuf = s.ibuf := rfl
@[simp] theorem State.spliceInterval_icnt (s : State) : (s.spliceInterval).icnt = s.icnt := rfl
@[simp] theorem State.spliceInterval_lastbit (s : State) : (s.spliceInterval).lastbit = s.lastbit := rfl
@[simp] theorem State.spliceInterval_havelast (s : State) : (s.spliceInterval).havelast = s.havelast := rfl
@[simp] theorem State.spliceInterval_symIn (s : State) : (s.spliceInterval).symIn = s.symIn := rfl
@[simp] theorem State.spliceInterval_codeOut (s : State) : (s.spliceInterval).codeOut = s.codeOut := rfl
@[simp] theorem State.spliceInterval_codeIn (s : State) : (s.spliceInterval).codeIn = s.codeIn := rfl
@[simp] theorem State.spliceInterval_codeInEnd (s : State) : (s.spliceInterval).codeInEnd = s.codeInEnd := rfl
@[simp] theorem State.spliceInterval_byteOut (s : State) : (s.spliceInterval).byteOut = s.byteOut := rfl
@[simp] theorem State.spliceInterval_cmd (s : State) : (s.spliceInterval).cmd = s.cmd := rfl
@[simp] theorem State.spliceInterval_cfg (s : State) : (s.spliceInterval).cfg = s.cfg := rfl
@[simp] theorem State.spliceInterval_schedule (s : State) : (s.spliceInterval).schedule = s.schedule := rfl
@[simp] theorem State.spliceInterval_resets (s : State) : (s.spliceInterval).resets = s.resets := rfl

@[simp] theorem State.afterReset_phase (s : State) : s.afterReset.phase = .idle := rfl
@[simp] theorem State.afterReset_fcode (s : State) : s.afterReset.fcode = .none := rfl
@[simp] theorem State.afterReset_cmd (s : State) : s.afterReset.cmd = [] := rfl
@[simp] theorem State.afterReset_symIn (s : State) : s.afterReset.symIn = s.symIn := rfl
@[simp] theorem State.afterReset_codeOut (s : State) : s.afterReset.codeOut = s.codeOut := rfl
@[simp] theorem State.afterReset_codeIn (s : State) : s.afterReset.codeIn = s.codeIn := rfl
@[simp] theorem State.afterReset_codeInEnd (s : State) : s.afterReset.codeInEnd = s.codeInEnd := rfl
@[simp] theorem State.afterReset_byteOut (s : State) : s.afterReset.byteOut = s.byteOut := rfl
@[simp] theorem State.afterReset_cfg (s : State) : s.afterReset.cfg = s.cfg := rfl
@[simp] theorem State.afterReset_schedule (s : State) : s.afterReset.schedule = s.schedule := rfl
@[simp] theorem State.afterReset_resets (s : State) : s.afterReset.resets = s.resets + 1 := rfl

end Sys2Proof.Machine
end

