-- ==== Sys2Proof/Laws/Bits.lean ====
section
/-! SUPPORT. The one-bit shifts as arithmetic (spec/41_interval_coder.md R136, R138), and bytes as bit sequences
(spec/20_memory.md R54). -/

namespace Sys2Proof.Machine

/-! ## Shifts -/

theorem shiftIn_toNat (w : Word) (b : Bool) : (shiftIn w b).toNat = w.toNat % 2 ^ 31 * 2 + b.toNat := by
  simp [shiftIn, BitVec.toNat_concat]

theorem spliceIn_toNat (top : Bool) (w : Word) (b : Bool) :
    (spliceIn top w b).toNat = top.toNat * 2 ^ 31 + w.toNat % 2 ^ 30 * 2 + b.toNat := by
  have h : w.toNat % 2 ^ 30 < 2 ^ 30 := Nat.mod_lt _ (by norm_num)
  have h2 : (BitVec.cons top (w.setWidth 30)).toNat = top.toNat * 2 ^ 30 + w.toNat % 2 ^ 30 := by
    rw [BitVec.toNat_cons']
    simp [Nat.shiftLeft_eq]
  simp only [spliceIn, BitVec.toNat_concat, h2]
  omega

theorem getLsbD_31_iff (w : Word) : w.getLsbD 31 = true ↔ 2 ^ 31 ≤ w.toNat := by
  have h := w.isLt
  rw [← BitVec.testBit_toNat, Nat.testBit_eq_decide_div_mod_eq, decide_eq_true_iff]
  omega

theorem getLsbD_31_eq_false_iff (w : Word) : w.getLsbD 31 = false ↔ w.toNat < 2 ^ 31 := by
  have h := getLsbD_31_iff w
  cases h' : w.getLsbD 31 <;> simp_all

theorem getLsbD_30_iff (w : Word) : w.getLsbD 30 = true ↔ 2 ^ 30 ≤ w.toNat % 2 ^ 31 := by
  have h := w.isLt
  rw [← BitVec.testBit_toNat, Nat.testBit_eq_decide_div_mod_eq, decide_eq_true_iff]
  omega

theorem getLsbD_30_eq_false_iff (w : Word) : w.getLsbD 30 = false ↔ w.toNat % 2 ^ 31 < 2 ^ 30 := by
  have h := getLsbD_30_iff w
  cases h' : w.getLsbD 30 <;> simp_all

/-! ## Bytes -/

@[simp] theorem byteBits_length (b : Byte) : (byteBits b).length = 8 := rfl

theorem byteBits_getElem (b : Byte) (i : Nat) (h : i < (byteBits b).length) : (byteBits b)[i] = b.getLsbD i := by
  simp only [byteBits_length] at h
  interval_cases i <;> rfl

@[simp] theorem bytesBits_nil : bytesBits [] = [] := rfl

@[simp] theorem bytesBits_cons (b : Byte) (l : List Byte) : bytesBits (b :: l) = byteBits b ++ bytesBits l := rfl

@[simp] theorem bytesBits_append (l m : List Byte) : bytesBits (l ++ m) = bytesBits l ++ bytesBits m := by
  simp [bytesBits]

@[simp] theorem bytesBits_length (l : List Byte) : (bytesBits l).length = 8 * l.length := by
  induction l with
  | nil => rfl
  | cons b l ih => simp [ih]; omega

theorem bytesBits_eq_nil_iff (l : List Byte) : bytesBits l = [] ↔ l = [] := by
  cases l with
  | nil => simp
  | cons b l => simp [byteBits]

theorem bitsByte_byteBits (b : Byte) :
    bitsByte (b.getLsbD 0) (b.getLsbD 1) (b.getLsbD 2) (b.getLsbD 3) (b.getLsbD 4) (b.getLsbD 5) (b.getLsbD 6)
      (b.getLsbD 7) = b := by
  revert b
  decide +kernel

theorem byteBits_bitsByte (b0 b1 b2 b3 b4 b5 b6 b7 : Bool) :
    byteBits (bitsByte b0 b1 b2 b3 b4 b5 b6 b7) = [b0, b1, b2, b3, b4, b5, b6, b7] := by
  revert b0 b1 b2 b3 b4 b5 b6 b7
  decide

/-- Packing whole bytes' bits gives the bytes back. -/
theorem packBits_bytesBits (l : List Byte) : packBits (bytesBits l) = l := by
  induction l with
  | nil => rfl
  | cons b l ih =>
    have h : bytesBits (b :: l) = b.getLsbD 0 :: b.getLsbD 1 :: b.getLsbD 2 :: b.getLsbD 3 :: b.getLsbD 4 ::
        b.getLsbD 5 :: b.getLsbD 6 :: b.getLsbD 7 :: bytesBits l := rfl
    rw [h, packBits, bitsByte_byteBits, ih]

/-- Packing loses nothing of a whole number of bytes. -/
theorem bytesBits_packBits (l : List Bool) (n : Nat) (h : l.length = 8 * n) : bytesBits (packBits l) = l := by
  induction n generalizing l with
  | zero =>
    have : l = [] := List.eq_nil_of_length_eq_zero (by omega)
    subst this
    rfl
  | succ n ih =>
    match l, h with
    | b0 :: b1 :: b2 :: b3 :: b4 :: b5 :: b6 :: b7 :: rest, h =>
      have hr : rest.length = 8 * n := by simp only [List.length_cons] at h; omega
      rw [packBits, bytesBits_cons, byteBits_bitsByte, ih rest hr]
      rfl

end Sys2Proof.Machine
end

