-- ==== Sys2Proof/Laws/Decode.lean ====
section
/-! SUPPORT. The decoders against the rows of spec/opcode_table.json: each row's mask and match, in the table's order,
the first row that matches being the one decoded (spec/30_encoding.md R91). -/

namespace Sys2Proof

/-- A row of the table that has a pattern: its format, mask and match. -/
structure Row where
  fmt : Format
  mask : Nat
  val : Nat
  deriving DecidableEq, Repr

/-- The first 24 rows of the table, those with a pattern. -/
def opcodeRows : List Row :=
  [⟨.cmd, 0x3, 0x0⟩, ⟨.cmd, 0x3, 0x1⟩, ⟨.cmd, 0x3, 0x2⟩, ⟨.cmd, 0x3, 0x3⟩,
   ⟨.sym, 0x100, 0x0⟩, ⟨.sym, 0x1FF, 0x100⟩, ⟨.sym, 0x100, 0x100⟩,
   ⟨.rn, 0xA, 0x0⟩, ⟨.rn, 0xA, 0xA⟩, ⟨.rn, 0xF, 0x6⟩, ⟨.rn, 0xE, 0x2⟩, ⟨.rn, 0xF, 0x7⟩, ⟨.rn, 0xA, 0x8⟩,
   ⟨.ph, 0xF, 0x0⟩, ⟨.ph, 0xF, 0x1⟩, ⟨.ph, 0xF, 0x2⟩, ⟨.ph, 0xF, 0x3⟩, ⟨.ph, 0xF, 0x4⟩, ⟨.ph, 0xF, 0x5⟩,
   ⟨.ph, 0xF, 0x6⟩, ⟨.ph, 0xF, 0x7⟩, ⟨.ph, 0xF, 0x8⟩, ⟨.ph, 0xF, 0xF⟩, ⟨.ph, 0x8, 0x8⟩]

/-- The row of the table an operation stands for, counted from 0. -/
def Instr.row : Instr → Nat
  | .nop => 0
  | .startEnc => 1
  | .startDec => 2
  | .cmdReserved => 3
  | .fetchByte _ => 4
  | .fetchEof => 5
  | .symIllegal _ => 6
  | .rnE1b0 _ _ => 7
  | .rnE1b1 _ _ => 8
  | .rnE3 => 9
  | .rnTerm001 _ => 10
  | .rnTerm0111 => 11
  | .rnUnreachable _ _ => 12
  | .phIdle => 13
  | .phFetch => 14
  | .phNarrow => 15
  | .phRenorm => 16
  | .phFinish => 17
  | .phFill => 18
  | .phScale => 19
  | .phSearch => 20
  | .phDone => 21
  | .phFault => 22
  | .phUnused _ => 23
  | .lookup _ => 24
  | .putbit _ => 25
  | .padflush => 26
  | .getbit => 27
  | .emit _ => 28
  | .defer => 29
  | .consumeShift => 30
  | .consumeSplice => 31

/-- The first row of format `f` whose pattern `w` matches. -/
def firstRow (f : Format) (w : Nat) : Nat := opcodeRows.findIdx fun r => r.fmt = f && w &&& r.mask == r.val

/-- The row a decoder's answer stands for. -/
def decodedRow (f : Format) (w : Nat) : Option Nat :=
  match decode f w with
  | .ok i => some i.row
  | .error _ => none

theorem decode_cmd_rows : ∀ w : Fin 4, decodedRow .cmd w = some (firstRow .cmd w) := by decide +kernel

theorem decode_sym_rows : ∀ w : Fin 512, decodedRow .sym w = some (firstRow .sym w) := by decide +kernel

theorem decode_rn_rows : ∀ w : Fin 16, decodedRow .rn w = some (firstRow .rn w) := by decide +kernel

theorem decode_ph_rows : ∀ w : Fin 16, decodedRow .ph w = some (firstRow .ph w) := by decide +kernel

/-! ## Each decoder undoes the encoder -/

theorem decodeCmd_toInstr (c : CmdCode) : encode (decodeCmd c).toInstr = c.toNat := by
  revert c
  decide

theorem decodeRn_toInstr (p : BitVec 4) : encode (decodeRn p).toInstr = p.toNat := by
  revert p
  decide

theorem decodePh_encode (p : BitVec 4) : encode (decodePh p) = p.toNat := by
  revert p
  decide

theorem decodeSym_byte (v : Byte) : decodeSym (v.setWidth 9) = .byte v := by
  have h : (v.setWidth 9).msb = false := by
    rw [BitVec.msb_eq_decide, decide_eq_false_iff_not]
    have := v.isLt
    simp; omega
  rw [decodeSym, if_pos h]
  congr 1
  apply BitVec.eq_of_toNat_eq
  have := v.isLt
  simp

theorem decodeSym_eof : decodeSym 256#9 = .eof := rfl

/-- A symbol code above 256 is illegal (30 R83). -/
theorem decodeSym_illegal (c : SymCode) (h : 256 < c.toNat) : decodeSym c = .illegal (c.setWidth 8) := by
  have h1 : c.msb = true := by
    rw [BitVec.msb_eq_decide, decide_eq_true_iff]
    norm_num; omega
  have h2 : c ≠ 256#9 := by
    rintro rfl
    exact absurd h (by decide)
  rw [decodeSym, if_neg (by simp [h1]), if_neg h2]

end Sys2Proof
end

