-- ==== Sys2Proof/Laws/Interval.lean ====
section
/-! SUPPORT. The interval arithmetic of spec/41_interval_coder.md (R132, R133, R143, R144) and its inverse in
spec/43_decoder.md (R184), over the natural numbers. -/

namespace Sys2Proof.Machine

/-! ## The table -/

/-- A valid table is strictly increasing (40 R112). -/
theorem cfAt_strictMono (t : Table) (h : CFValid t) : StrictMono (fun i : TableIndex => (cfAt t i).toNat) := by
  rw [Fin.strictMono_iff_lt_succ]
  intro i
  exact h.2 i

theorem lowOf_lt_highOf (t : Table) (h : CFValid t) (x : Symbol) : (lowOf t x).toNat < (highOf t x).toNat := h.2 x

theorem highOf_le_total (t : Table) (h : CFValid t) (x : Symbol) : (highOf t x).toNat ≤ (total t).toNat :=
  (cfAt_strictMono t h).monotone (Fin.le_last _)

/-- `TOTAL` is at least 257 (40 R112). -/
theorem total_ge (t : Table) (h : CFValid t) : 257 ≤ (total t).toNat := by
  have key : ∀ n : Nat, ∀ hn : n < 258, n ≤ (cfAt t ⟨n, hn⟩).toNat := by
    intro n
    induction n with
    | zero => intro _; exact Nat.zero_le _
    | succ n ih =>
      intro hn
      have h1 := ih (by omega)
      have h2 : (cfAt t ⟨n, by omega⟩).toNat < (cfAt t ⟨n + 1, hn⟩).toNat :=
        cfAt_strictMono t h (a := ⟨n, by omega⟩) (b := ⟨n + 1, hn⟩) (by simp)
      omega
  exact key 257 (by omega)

/-- Every position below `TOTAL` lies in the range of exactly one symbol (40 R112). -/
theorem existsUnique_symbol (t : Table) (h : CFValid t) (q : Word) (hq : q < total t) :
    ∃! x : Symbol, lowOf t x ≤ q ∧ q < highOf t x := by
  have hm := cfAt_strictMono t h
  have key : ∀ n : Nat, ∀ hn : n < 258, q.toNat < (cfAt t ⟨n, hn⟩).toNat →
      ∃ x : Symbol, lowOf t x ≤ q ∧ q < highOf t x := by
    intro n
    induction n with
    | zero =>
      intro hn hlt
      have : (cfAt t ⟨0, hn⟩).toNat = 0 := by
        have := h.1
        change (cfAt t 0).toNat = 0
        rw [this]; rfl
      omega
    | succ n ih =>
      intro hn hlt
      by_cases hc : q.toNat < (cfAt t ⟨n, by omega⟩).toNat
      · exact ih (by omega) hc
      · exact ⟨⟨n, by omega⟩, by rw [BitVec.le_def]; exact Nat.le_of_not_lt hc, by rw [BitVec.lt_def]; exact hlt⟩
  obtain ⟨x, hx⟩ := key 257 (by omega) hq
  refine ⟨x, hx, ?_⟩
  rintro y ⟨hy1, hy2⟩
  obtain ⟨hx1, hx2⟩ := hx
  rw [BitVec.le_def] at hx1 hy1
  rw [BitVec.lt_def] at hx2 hy2
  have hle : ∀ a b : Symbol, a < b → (highOf t a).toNat ≤ (lowOf t b).toNat := by
    intro a b hab
    exact hm.monotone (a := a.succ) (b := b.castSucc) (by
      rw [Fin.le_def]
      simp only [Fin.val_succ, Fin.val_castSucc]
      exact hab)
  rcases lt_trichotomy x y with hlt | heq | hgt
  · have := hle x y hlt; omega
  · exact heq.symm
  · have := hle y x hgt; omega

/-- What the scan finds below `TOTAL`: the symbol whose range holds the position (43 R185). -/
theorem searchIndex_spec (t : Table) (h : CFValid t) (q : Word) (hq : q < total t) :
    ∃ x : Symbol, searchIndex t q = x.val ∧ lowOf t x ≤ q ∧ q < highOf t x := by
  have hlen : (t.toList.drop 1).length = 257 := by simp
  have hget : ∀ n (hn : n < (t.toList.drop 1).length) (hn' : n < 257),
      (t.toList.drop 1)[n] = highOf t ⟨n, hn'⟩ := by
    intro n hn hn'
    rw [List.getElem_drop]
    simp [highOf, cfAt, Vector.get_eq_getElem, Nat.add_comm]
  obtain ⟨x, ⟨hx1, hx2⟩, -⟩ := existsUnique_symbol t h q hq
  have hlt : searchIndex t q < 257 := by
    have : searchIndex t q < (t.toList.drop 1).length := by
      apply List.findIdx_lt_length_of_exists
      have hxl : x.val < (t.toList.drop 1).length := by rw [hlen]; exact x.isLt
      refine ⟨(t.toList.drop 1)[x.val], List.getElem_mem hxl, ?_⟩
      rw [hget x.val hxl x.isLt]
      exact decide_eq_true hx2
    omega
  refine ⟨⟨searchIndex t q, hlt⟩, rfl, ?_, ?_⟩
  · -- everything below the index is not above the position
    rcases Nat.eq_zero_or_pos (searchIndex t q) with h0 | hpos
    · have : lowOf t ⟨searchIndex t q, hlt⟩ = 0 := by
        have h1 := h.1
        unfold lowOf
        rw [← h1]
        congr 1
        apply Fin.ext
        simp [h0]
      rw [this, BitVec.le_def]
      simp
    · have hp : searchIndex t q - 1 < searchIndex t q := by omega
      have h2 := List.not_of_lt_findIdx (p := fun b => decide (q < b)) (xs := t.toList.drop 1) hp
      have h3 := hget (searchIndex t q - 1) (by rw [hlen]; omega) (by omega)
      have h4 : highOf t ⟨searchIndex t q - 1, by omega⟩ = lowOf t ⟨searchIndex t q, hlt⟩ := by
        unfold highOf lowOf
        congr 1
        apply Fin.ext
        simp only [Fin.succ_mk, Fin.castSucc_mk]
        omega
      rw [← h4, ← h3]
      rw [BitVec.le_def]
      have h5 := of_decide_eq_false h2
      rw [BitVec.lt_def] at h5
      exact Nat.le_of_not_lt h5
  · have h2 := List.findIdx_getElem (p := fun b => decide (q < b)) (xs := t.toList.drop 1)
      (w := by rw [hlen]; exact hlt)
    have h3 := hget (searchIndex t q) (by rw [hlen]; exact hlt) hlt
    rw [← h3]
    exact of_decide_eq_true h2

/-! ## The renormaliser -/

theorem shiftIn_determinate (w : Word) (b c : Bool) (h : w.getLsbD 31 = b) :
    (shiftIn w c).toNat + 2 * (b.toNat * 2 ^ 31) = 2 * w.toNat + c.toNat := by
  have hw := w.isLt
  rw [shiftIn_toNat]
  cases b
  · rw [getLsbD_31_eq_false_iff] at h
    simp; omega
  · rw [getLsbD_31_iff] at h
    simp; omega

theorem spliceIn_lower (w : Word) (c : Bool) (h31 : w.getLsbD 31 = false) (h30 : w.getLsbD 30 = true) :
    (spliceIn false w c).toNat + 2 ^ 31 = 2 * w.toNat + c.toNat := by
  have hw := w.isLt
  rw [getLsbD_31_eq_false_iff] at h31
  rw [getLsbD_30_iff] at h30
  rw [spliceIn_toNat]
  simp; omega

theorem spliceIn_upper (w : Word) (c : Bool) (h31 : w.getLsbD 31 = true) (h30 : w.getLsbD 30 = false) :
    (spliceIn true w c).toNat + 2 ^ 31 = 2 * w.toNat + c.toNat := by
  have hw := w.isLt
  rw [getLsbD_31_iff] at h31
  rw [getLsbD_30_eq_false_iff] at h30
  rw [spliceIn_toNat]
  simp; omega

/-- RN_E1 doubles the range (41 R143). -/
theorem intervalRange_shift (l u : Word) (b : Bool) (h : Determinate b l u) (hle : l ≤ u) :
    intervalRange (shiftIn l false) (shiftIn u true) = 2 * intervalRange l u := by
  have h1 := shiftIn_determinate l b false h.1
  have h2 := shiftIn_determinate u b true h.2
  rw [BitVec.le_def] at hle
  unfold intervalRange
  simp at h1 h2
  omega

/-- RN_E3 doubles the range (41 R143). -/
theorem intervalRange_splice (l u : Word) (h : Straddles l u) (hle : l ≤ u) :
    intervalRange (spliceIn false l false) (spliceIn true u true) = 2 * intervalRange l u := by
  have h1 := spliceIn_lower l false h.1 h.2.1
  have h2 := spliceIn_upper u true h.2.2.1 h.2.2.2
  rw [BitVec.le_def] at hle
  unfold intervalRange
  simp at h1 h2
  omega

theorem shiftIn_le (l u : Word) (b c d : Bool) (h : Determinate b l u) (hle : l ≤ u) (hc : c.toNat ≤ d.toNat) :
    shiftIn l c ≤ shiftIn u d := by
  have h1 := shiftIn_determinate l b c h.1
  have h2 := shiftIn_determinate u b d h.2
  rw [BitVec.le_def] at hle ⊢
  omega

/-- Terminal intervals are at least `2^30 + 2` wide (41 R144). -/
theorem intervalRange_terminal (l u : Word) (h : Terminal l u) : 2 ^ 30 + 2 ≤ intervalRange l u := by
  obtain ⟨h1, h2, h3⟩ := h
  have hu := u.isLt
  rw [getLsbD_31_eq_false_iff] at h1
  rw [getLsbD_31_iff] at h2
  rw [getLsbD_30_eq_false_iff, getLsbD_30_iff] at h3
  unfold intervalRange
  omega

theorem Terminal.le {l u : Word} (h : Terminal l u) : l ≤ u := by
  obtain ⟨h1, h2, -⟩ := h
  rw [getLsbD_31_eq_false_iff] at h1
  rw [getLsbD_31_iff] at h2
  rw [BitVec.le_def]
  omega

/-- An interval of which RN_E1 or RN_E3 holds is at most `2^31` wide (41 R143). -/
theorem intervalRange_of_determinate (l u : Word) (b : Bool) (h : Determinate b l u) : intervalRange l u ≤ 2 ^ 31 := by
  have hu := u.isLt
  obtain ⟨h1, h2⟩ := h
  unfold intervalRange
  cases b
  · rw [getLsbD_31_eq_false_iff] at h1 h2; omega
  · rw [getLsbD_31_iff] at h1 h2; omega

theorem intervalRange_of_straddles (l u : Word) (h : Straddles l u) : intervalRange l u ≤ 2 ^ 31 := by
  have hu := u.isLt
  obtain ⟨h1, h2, h3, h4⟩ := h
  rw [getLsbD_31_eq_false_iff] at h1
  rw [getLsbD_30_iff] at h2
  rw [getLsbD_31_iff] at h3
  rw [getLsbD_30_eq_false_iff] at h4
  unfold intervalRange
  omega

/-- The three conditions of the loop exclude each other and leave out only `LOWER > UPPER` (30 R85). -/
theorem renorm_cases (l u : Word) (hle : l ≤ u) :
    (∃ b, Determinate b l u) ∨ Straddles l u ∨ Terminal l u := by
  have h1 : ¬ (l.getLsbD 31 = true ∧ u.getLsbD 31 = false) := by
    rintro ⟨h1, h2⟩
    rw [getLsbD_31_iff] at h1
    rw [getLsbD_31_eq_false_iff] at h2
    rw [BitVec.le_def] at hle
    omega
  unfold Determinate Straddles Terminal
  cases h31 : l.getLsbD 31 <;> cases h31' : u.getLsbD 31 <;> cases h30 : l.getLsbD 30 <;> cases h30' : u.getLsbD 30 <;>
    simp_all

/-! ## The pattern -/

theorem rnPattern_decode (l u : Word) :
    decodeRn (rnPattern l u) =
      if l.getLsbD 31 = u.getLsbD 31 then
        (if l.getLsbD 31 then .e1b1 (l.getLsbD 30) (u.getLsbD 30) else .e1b0 (l.getLsbD 30) (u.getLsbD 30))
      else if l.getLsbD 31 then .unreachable (l.getLsbD 30) (u.getLsbD 30)
      else if l.getLsbD 30 = true ∧ u.getLsbD 30 = false then .e3
      else if l.getLsbD 30 then .term0111
      else .term001 (u.getLsbD 30) := by
  unfold rnPattern
  cases l.getLsbD 31 <;> cases u.getLsbD 31 <;> cases l.getLsbD 30 <;> cases u.getLsbD 30 <;> rfl

/-! ## NARROW -/

/-- NARROW never enlarges the interval (41 R132). -/
theorem narrow_nested (l u low high tot : Word) (hle : l ≤ u) (hh : high.toNat ≤ tot.toNat) :
    l.toNat ≤ narrowLow l u low tot ∧ narrowEnd l u high tot ≤ u.toNat + 1 := by
  rw [BitVec.le_def] at hle
  refine ⟨Nat.le_add_right _ _, ?_⟩
  have : intervalRange l u * high.toNat / tot.toNat ≤ intervalRange l u := by
    apply Nat.div_le_of_le_mul
    rw [Nat.mul_comm tot.toNat]
    exact Nat.mul_le_mul_left _ hh
  unfold narrowEnd
  unfold intervalRange at *
  omega

/-- A weight of at least 1 and a range of at least `total` leave something of the interval (41 R133). -/
theorem narrow_nonempty (l u low high tot : Word) (hlh : low.toNat < high.toNat) (ht : 0 < tot.toNat)
    (hr : tot.toNat ≤ intervalRange l u) : narrowLow l u low tot < narrowEnd l u high tot := by
  have h1 : intervalRange l u * low.toNat / tot.toNat + 1 ≤ intervalRange l u * high.toNat / tot.toNat := by
    rw [Nat.le_div_iff_mul_le ht]
    have h2 : intervalRange l u * low.toNat / tot.toNat * tot.toNat ≤ intervalRange l u * low.toNat :=
      Nat.div_mul_le_self _ _
    have h3 : intervalRange l u * (low.toNat + 1) ≤ intervalRange l u * high.toNat := Nat.mul_le_mul_left _ hlh
    rw [Nat.add_mul, Nat.one_mul]
    rw [Nat.mul_add, Nat.mul_one] at h3
    omega
  unfold narrowLow narrowEnd
  omega

/-- NARROW's results, where it has any. -/
theorem narrowed_eq_some (l u low high tot : Word) (h1 : narrowLow l u low tot < narrowEnd l u high tot)
    (h2 : narrowEnd l u high tot ≤ 2 ^ 32) :
    ∃ l' u', narrowed l u low high tot = some (l', u') ∧ l'.toNat = narrowLow l u low tot ∧
      u'.toNat + 1 = narrowEnd l u high tot := by
  refine ⟨_, _, by rw [narrowed, if_pos ⟨h1, h2⟩], ?_, ?_⟩
  · rw [BitVec.toNat_ofNat, Nat.mod_eq_of_lt]
    omega
  · rw [BitVec.toNat_ofNat, Nat.mod_eq_of_lt] <;> omega

theorem narrowed_inv (l u low high tot l' u' : Word) (h : narrowed l u low high tot = some (l', u')) :
    l'.toNat = narrowLow l u low tot ∧ u'.toNat + 1 = narrowEnd l u high tot ∧ l' ≤ u' := by
  unfold narrowed at h
  split at h
  next hc =>
    simp only [Option.some.injEq, Prod.mk.injEq] at h
    obtain ⟨rfl, rfl⟩ := h
    rw [BitVec.le_def]
    rw [BitVec.toNat_ofNat, BitVec.toNat_ofNat, Nat.mod_eq_of_lt (by omega), Nat.mod_eq_of_lt (by omega)]
    omega
  next => exact absurd h (by simp)

/-- Under a safe table and from a terminal interval, NARROW has results, nested in the old interval (41 R132). -/
theorem narrowed_of_safe (t : Table) (h : CFSafe t) (l u : Word) (hT : Terminal l u) (x : Symbol) :
    ∃ l' u', narrowed l u (lowOf t x) (highOf t x) (total t) = some (l', u') ∧
      l'.toNat = narrowLow l u (lowOf t x) (total t) ∧ u'.toNat + 1 = narrowEnd l u (highOf t x) (total t) ∧
      l ≤ l' ∧ l' ≤ u' ∧ u' ≤ u := by
  have hr := intervalRange_terminal l u hT
  have htot := total_ge t h.1
  have hn := narrow_nonempty l u (lowOf t x) (highOf t x) (total t) (lowOf_lt_highOf t h.1 x) (by omega)
    (le_trans h.2 hr)
  have hne := narrow_nested l u (lowOf t x) (highOf t x) (total t) hT.le (highOf_le_total t h.1 x)
  have hu := u.isLt
  obtain ⟨l', u', he, hl, hu'⟩ := narrowed_eq_some l u (lowOf t x) (highOf t x) (total t) hn (by omega)
  refine ⟨l', u', he, hl, hu', ?_, ?_, ?_⟩ <;> rw [BitVec.le_def] <;> omega

/-! ## SCALE -/

/-- SCALE's quotient is a position below `TOTAL` (43 R183). -/
theorem scaledPosition_lt (l u w tot : Word) (h1 : l ≤ w) (h2 : w ≤ u) (ht : 0 < tot.toNat) :
    scaledPosition l u w tot < tot.toNat := by
  rw [BitVec.le_def] at h1 h2
  unfold scaledPosition intervalRange
  rw [Nat.div_lt_iff_lt_mul (by omega)]
  have h3 : (w.toNat + 1 - l.toNat) * tot.toNat ≤ (u.toNat + 1 - l.toNat) * tot.toNat :=
    Nat.mul_le_mul_right _ (by omega)
  have h4 : 0 < (w.toNat + 1 - l.toNat) * tot.toNat := Nat.mul_pos (by omega) ht
  rw [Nat.mul_comm tot.toNat]
  omega

/-- SCALE inverts NARROW (43 R184). -/
theorem scaledPosition_iff (l u w low high tot : Word) (h1 : l ≤ w) (h2 : w ≤ u) (ht : 0 < tot.toNat) :
    (low.toNat ≤ scaledPosition l u w tot ↔ narrowLow l u low tot ≤ w.toNat) ∧
    (scaledPosition l u w tot < high.toNat ↔ w.toNat < narrowEnd l u high tot) := by
  rw [BitVec.le_def] at h1 h2
  obtain ⟨d, hd⟩ : ∃ d, w.toNat + 1 - l.toNat = d + 1 := ⟨w.toNat - l.toNat, by omega⟩
  have hr : 0 < intervalRange l u := by unfold intervalRange; omega
  have hp : 0 < (d + 1) * tot.toNat := Nat.mul_pos (by omega) ht
  unfold scaledPosition narrowLow narrowEnd
  rw [hd]
  have hw : w.toNat = l.toNat + d := by omega
  generalize intervalRange l u = r at *
  constructor
  · rw [Nat.le_div_iff_mul_le hr]
    have e1 : l.toNat + r * low.toNat / tot.toNat ≤ w.toNat ↔ r * low.toNat / tot.toNat < d + 1 := by omega
    rw [e1, Nat.div_lt_iff_lt_mul ht, Nat.mul_comm low.toNat]
    omega
  · rw [Nat.div_lt_iff_lt_mul hr]
    have e1 : w.toNat < l.toNat + r * high.toNat / tot.toNat ↔ d + 1 ≤ r * high.toNat / tot.toNat := by omega
    rw [e1, Nat.le_div_iff_mul_le ht, Nat.mul_comm high.toNat]
    omega

/-! ## The window moves with the interval -/

/-- RN_E3 keeps the interval in order (41 R141). -/
theorem splice_le {l u : Word} (h : Straddles l u) (hle : l ≤ u) :
    spliceIn false l false ≤ spliceIn true u true := by
  have e1 := spliceIn_lower l false h.1 h.2.1
  have e2 := spliceIn_upper u true h.2.2.1 h.2.2.2
  rw [BitVec.le_def] at *
  simp only [Bool.toNat_false, Bool.toNat_true] at e1 e2
  omega

/-- CONSUME_SHIFT keeps a window inside its interval (43 R190). -/
theorem window_shift {l u w : Word} {b c : Bool} (h : Determinate b l u) (h1 : l ≤ w) (h2 : w ≤ u) :
    shiftIn l false ≤ shiftIn w c ∧ shiftIn w c ≤ shiftIn u true := by
  have hw : w.getLsbD 31 = b := by
    obtain ⟨ha, hb⟩ := h
    rw [BitVec.le_def] at h1 h2
    cases b
    · rw [getLsbD_31_eq_false_iff] at *
      omega
    · rw [getLsbD_31_iff] at *
      omega
  exact ⟨shiftIn_le l w b _ _ ⟨h.1, hw⟩ h1 (by simp), shiftIn_le w u b _ _ ⟨hw, h.2⟩ h2 (by cases c <;> simp)⟩

/-- CONSUME_SPLICE of a window inside a straddling interval is `2 * (WINDOW - 2^30) + b` (43 R188). -/
theorem window_splice_toNat {l u w : Word} {c : Bool} (h : Straddles l u) (h1 : l ≤ w) (h2 : w ≤ u) :
    (spliceIn w.msb w c).toNat + 2 ^ 31 = 2 * w.toNat + c.toNat := by
  obtain ⟨ha, hb, hc, hd⟩ := h
  rw [BitVec.le_def] at h1 h2
  rw [getLsbD_31_eq_false_iff] at ha
  rw [getLsbD_30_iff] at hb
  rw [getLsbD_31_iff] at hc
  rw [getLsbD_30_eq_false_iff] at hd
  have := u.isLt
  rw [spliceIn_toNat]
  by_cases hm : 2 ^ 31 ≤ w.toNat
  · have : w.msb = true := by rw [BitVec.msb_eq_decide]; simpa using hm
    rw [this, Bool.toNat_true]
    omega
  · have : w.msb = false := by rw [BitVec.msb_eq_decide]; simpa using hm
    rw [this, Bool.toNat_false]
    omega

/-- CONSUME_SPLICE keeps a window inside its interval (43 R190). -/
theorem window_splice {l u w : Word} {c : Bool} (h : Straddles l u) (h1 : l ≤ w) (h2 : w ≤ u) :
    spliceIn false l false ≤ spliceIn w.msb w c ∧ spliceIn w.msb w c ≤ spliceIn true u true := by
  have e := window_splice_toNat (c := c) h h1 h2
  have e1 := spliceIn_lower l false h.1 h.2.1
  have e2 := spliceIn_upper u true h.2.2.1 h.2.2.2
  rw [BitVec.le_def] at *
  rw [BitVec.le_def]
  simp only [Bool.toNat_false, Bool.toNat_true] at e1 e2
  have := c.toNat_le
  omega

end Sys2Proof.Machine
end

