-- ==== Sys2Proof/Laws/Packer.lean ====
section
/-! SUPPORT. What the bit packer can do (spec/44_bit_channel.md R201, R203, spec/42_encoder.md R163): the bits put are
the bits that were put, then the new ones, and nothing but `ACC`, `NBITS` and `CODE_OUT` changes. -/

namespace Sys2Proof.Machine

/-! ## One bit -/

theorem setBit_getLsbD (acc : Byte) (n : BitVec 3) (b : Bool) (i : Nat) (h : i < 8) :
    (setBit acc n b).getLsbD i = if i = n.toNat then b else acc.getLsbD i := by
  have hn := n.isLt
  by_cases hi : i = n.toNat
  · subst hi
    cases b <;> simp [setBit, h]
  · cases b
    · simp only [setBit, hi, if_false, Bool.false_eq_true]
      simp only [BitVec.getLsbD_and, BitVec.getLsbD_not, BitVec.getLsbD_shiftLeft, BitVec.getLsbD_one]
      have : ¬ (i - n.toNat = 0 ∧ ¬ i < n.toNat) := by omega
      by_cases h1 : i < n.toNat
      · simp [h, h1]
      · have : i - n.toNat ≠ 0 := by omega
        simp [h, h1, this]
    · simp only [setBit, hi, if_false, if_true]
      simp only [BitVec.getLsbD_or, BitVec.getLsbD_shiftLeft, BitVec.getLsbD_one]
      by_cases h1 : i < n.toNat
      · simp [h, h1]
      · have : i - n.toNat ≠ 0 := by omega
        simp [h, h1, this]

/-- PUTBIT changes the packer and `CODE_OUT` only. -/
theorem putBit_frame (b : Bool) (s : State) :
    putBit b s = { s with acc := (putBit b s).acc, nbits := (putBit b s).nbits, codeOut := (putBit b s).codeOut } := by
  unfold putBit
  split <;> rfl

@[simp] theorem putBit_ufc (b : Bool) (s : State) : (putBit b s).ufc = s.ufc := by
  rw [putBit_frame]

/-- The count of the bits held goes round modulo 8. -/
theorem putBit_nbits (b : Bool) (s : State) : (putBit b s).nbits = s.nbits + 1 := by
  unfold putBit
  split
  next h => simp [h]
  next => rfl

theorem take_byteBits_setBit (acc : Byte) (n : BitVec 3) (b : Bool) :
    (byteBits (setBit acc n b)).take (n.toNat + 1) = (byteBits acc).take n.toNat ++ [b] := by
  have hn := n.isLt
  apply List.ext_getElem
  · simp; omega
  · intro i h1 h2
    simp only [List.length_take, byteBits_length] at h1
    rw [List.getElem_take, byteBits_getElem, setBit_getLsbD _ _ _ _ (by omega)]
    by_cases hi : i = n.toNat
    · subst hi
      rw [List.getElem_append_right (by simp)]
      simp
    · rw [List.getElem_append_left (by simp; omega)]
      simp [hi, byteBits_getElem]

/-- PUTBIT puts its bit after the bits put before (44 R201). -/
theorem bitsOut_putBit (b : Bool) (s : State) : bitsOut (putBit b s) = bitsOut s ++ [b] := by
  have hn := s.nbits.isLt
  have ht := take_byteBits_setBit s.acc s.nbits b
  unfold putBit bitsOut
  split
  next h =>
    have h7 : s.nbits.toNat = 7 := by simp [h]
    rw [h7, List.take_of_length_le (by simp)] at ht
    simp [ht, h7]
  next h =>
    have h7 : s.nbits.toNat + 1 < 8 := by
      have : s.nbits.toNat ≠ 7 := fun h' => h (BitVec.eq_of_toNat_eq h')
      omega
    have : (s.nbits + 1).toNat = s.nbits.toNat + 1 := by
      rw [BitVec.toNat_add, Nat.mod_eq_of_lt]
      · rfl
      · exact h7
    simp only [this, ht, List.append_assoc]

/-- PUTBIT keeps the bits of `ACC` at `NBITS` and above at 0 (10 R31). -/
theorem packerClean_putBit (b : Bool) (s : State) (h : PackerClean s) : PackerClean (putBit b s) := by
  have hn := s.nbits.isLt
  intro i hi
  unfold putBit at hi ⊢
  split
  · simp
  next h7 =>
    rw [if_neg h7] at hi
    have h7' : s.nbits.toNat + 1 < 8 := by
      have : s.nbits.toNat ≠ 7 := fun h' => h7 (BitVec.eq_of_toNat_eq h')
      omega
    have hs : (s.nbits + 1).toNat = s.nbits.toNat + 1 := by
      rw [BitVec.toNat_add, Nat.mod_eq_of_lt]
      · rfl
      · exact h7'
    have hi' : s.nbits.toNat + 1 ≤ i.val := by
      simp only [hs] at hi
      exact hi
    simp only
    rw [setBit_getLsbD _ _ _ _ i.isLt, if_neg (by omega)]
    exact h i (by omega)

/-! ## Many bits -/

theorem putBits_frame (n : Nat) (b : Bool) (s : State) :
    putBits n b s =
      { s with acc := (putBits n b s).acc, nbits := (putBits n b s).nbits, codeOut := (putBits n b s).codeOut } := by
  induction n generalizing s with
  | zero => rfl
  | succ n ih =>
    rw [putBits, ih, putBit_frame]

theorem bitsOut_putBits (n : Nat) (b : Bool) (s : State) :
    bitsOut (putBits n b s) = bitsOut s ++ List.replicate n b := by
  induction n generalizing s with
  | zero => simp [putBits]
  | succ n ih => rw [putBits, ih, bitsOut_putBit, List.replicate_succ]; simp

theorem putBits_nbits (n : Nat) (b : Bool) (s : State) : (putBits n b s).nbits = s.nbits + BitVec.ofNat 3 n := by
  induction n generalizing s with
  | zero => simp [putBits]
  | succ n ih =>
    rw [putBits, ih, putBit_nbits, BitVec.add_assoc]
    congr 1
    apply BitVec.eq_of_toNat_eq
    simp [BitVec.toNat_add, Nat.add_comm]

theorem packerClean_putBits (n : Nat) (b : Bool) (s : State) (h : PackerClean s) : PackerClean (putBits n b s) := by
  induction n generalizing s with
  | zero => exact h
  | succ n ih => exact ih _ (packerClean_putBit b s h)

/-- EMIT puts its bit and `UFC` complements, in that order (42 R163). -/
theorem bitsOut_emit (b : Bool) (s : State) : bitsOut (emit b s) = bitsOut s ++ b :: List.replicate s.ufc (!b) := by
  have h : bitsOut (emit b s) = bitsOut (putBits s.ufc (!b) (putBit b s)) := rfl
  rw [h, bitsOut_putBits, bitsOut_putBit]
  simp

theorem emit_frame (b : Bool) (s : State) :
    emit b s = { s with acc := (emit b s).acc, nbits := (emit b s).nbits, codeOut := (emit b s).codeOut, ufc := 0 } := by
  simp only [emit]
  rw [putBits_frame, putBit_frame]

theorem packerClean_emit (b : Bool) (s : State) (h : PackerClean s) : PackerClean (emit b s) :=
  packerClean_putBits _ _ _ (packerClean_putBit b s h)

/-! ## Padding -/

theorem padFlush_nbits (s : State) : (padFlush s).nbits = 0 := by
  have hn := s.nbits.isLt
  rw [padFlush, putBits_nbits]
  apply BitVec.eq_of_toNat_eq
  simp only [BitVec.toNat_add, BitVec.toNat_ofNat, padCount]
  change _ = 0
  omega

theorem bitsOut_padFlush (s : State) : bitsOut (padFlush s) = bitsOut s ++ List.replicate (padCount s) true :=
  bitsOut_putBits _ _ _

theorem padFlush_frame (s : State) :
    padFlush s = { s with acc := (padFlush s).acc, nbits := 0, codeOut := (padFlush s).codeOut } := by
  have h := putBits_frame (padCount s) true s
  have hn := padFlush_nbits s
  unfold padFlush at hn ⊢
  rw [hn] at h
  exact h

/-- With no bit held in `ACC`, the bits put are those on `CODE_OUT`. -/
theorem bitsOut_of_nbits_zero (s : State) (h : s.nbits = 0) : bitsOut s = bytesBits s.codeOut := by
  simp [bitsOut, h]

theorem bitsOut_length_mod (s : State) : (bitsOut s).length % 8 = s.nbits.toNat := by
  have hn := s.nbits.isLt
  simp [bitsOut]
  omega

/-- A clean packer with no bit held holds zero. -/
theorem acc_zero_of_clean (s : State) (h : PackerClean s) (hn : s.nbits = 0) : s.acc = 0 := by
  apply BitVec.eq_of_getLsbD_eq
  intro i hi
  have := h ⟨i, hi⟩ (by simp [hn])
  simpa using this

/-! ## `CODE_OUT` only grows -/

theorem putBit_codeOut (b : Bool) (s : State) : ∃ new, (putBit b s).codeOut = s.codeOut ++ new := by
  unfold putBit
  split
  · exact ⟨_, rfl⟩
  · exact ⟨[], by simp⟩

theorem putBits_codeOut (n : Nat) (b : Bool) (s : State) : ∃ new, (putBits n b s).codeOut = s.codeOut ++ new := by
  induction n generalizing s with
  | zero => exact ⟨[], by simp [putBits]⟩
  | succ n ih =>
    obtain ⟨x, hx⟩ := putBit_codeOut b s
    obtain ⟨y, hy⟩ := ih (putBit b s)
    exact ⟨x ++ y, by rw [putBits, hy, hx, List.append_assoc]⟩

theorem emit_codeOut (b : Bool) (s : State) : ∃ new, (emit b s).codeOut = s.codeOut ++ new := by
  obtain ⟨x, hx⟩ := putBit_codeOut b s
  obtain ⟨y, hy⟩ := putBits_codeOut s.ufc (!b) (putBit b s)
  exact ⟨x ++ y, by rw [← List.append_assoc, ← hx, ← hy]; rfl⟩

/-- Two changes of the packer and `CODE_OUT` only, one after the other, are one. -/
theorem packerFrame_trans {s t u : State} (h1 : t = { s with acc := t.acc, nbits := t.nbits, codeOut := t.codeOut })
    (h2 : u = { t with acc := u.acc, nbits := u.nbits, codeOut := u.codeOut }) :
    u = { s with acc := u.acc, nbits := u.nbits, codeOut := u.codeOut } := by
  rw [h2, h1]

/-- The marker and the padding change the packer and `CODE_OUT` only (42 R167). -/
theorem marker_frame (s : State) :
    padFlush (putBit true (putBit false s)) =
      { s with
        acc := (padFlush (putBit true (putBit false s))).acc
        nbits := (padFlush (putBit true (putBit false s))).nbits
        codeOut := (padFlush (putBit true (putBit false s))).codeOut } :=
  packerFrame_trans (packerFrame_trans (putBit_frame false s) (putBit_frame true _)) (putBits_frame _ true _)

theorem marker_codeOut (s : State) :
    ∃ new, (padFlush (putBit true (putBit false s))).codeOut = s.codeOut ++ new := by
  obtain ⟨x, hx⟩ := putBit_codeOut false s
  obtain ⟨y, hy⟩ := putBit_codeOut true (putBit false s)
  obtain ⟨z, hz⟩ := putBits_codeOut (padCount (putBit true (putBit false s))) true (putBit true (putBit false s))
  exact ⟨x ++ y ++ z, by simp only [← List.append_assoc]; rw [← hx, ← hy, ← hz]; rfl⟩

end Sys2Proof.Machine
end

