-- ==== Sys2Proof/Laws/Unpacker.lean ====
section
/-! SUPPORT. What taking a stream bit can do (spec/44_bit_channel.md R205, R206, spec/45_sequencer.md R231): GETBIT
either takes a bit as `TookBit` says, or finds that there never was one, or is held. -/

namespace Sys2Proof.Machine

theorem takeBit_spec (s : State) (h0 : s.icnt ≠ 0) (h8 : s.icnt.toNat ≤ 8) :
    ∃ b t, takeBit s = .bit b t ∧ bitsIn s = b :: bitsIn t ∧ t.icnt.toNat ≤ 8 ∧
      t = { s with ibuf := t.ibuf, icnt := t.icnt, codeIn := t.codeIn, lastbit := b, havelast := true } := by
  have hpos : 0 < s.icnt.toNat := by
    have : s.icnt.toNat ≠ 0 := fun h => h0 (BitVec.eq_of_toNat_eq h)
    omega
  have hsub : (s.icnt - 1).toNat = s.icnt.toNat - 1 := by
    rw [BitVec.toNat_sub_of_le]
    · rfl
    · rw [BitVec.le_def]; exact hpos
  refine ⟨_, _, rfl, ?_, ?_, rfl⟩
  · simp only [bitsIn, hsub]
    have hsplit : byteBits s.ibuf = s.ibuf.getLsbD 0 :: (byteBits (s.ibuf >>> 1)).take 7 := by
      simp [byteBits]
    conv_lhs => rw [hsplit]
    obtain ⟨n, hn⟩ : ∃ n, s.icnt.toNat = n + 1 := ⟨s.icnt.toNat - 1, by omega⟩
    rw [hn, List.take_succ_cons]
    simp only [List.cons_append, Nat.add_sub_cancel, List.cons.injEq, true_and]
    rw [List.take_take, Nat.min_eq_left (by omega)]
  · simp only [hsub]; omega

/-- Whether a real bit is left. -/
theorem bitsIn_eq_nil_iff (s : State) : bitsIn s = [] ↔ s.icnt = 0 ∧ s.codeIn = [] := by
  simp only [bitsIn, List.append_eq_nil_iff, bytesBits_eq_nil_iff, List.take_eq_nil_iff]
  constructor
  · rintro ⟨h | h, h2⟩
    · exact ⟨BitVec.eq_of_toNat_eq h, h2⟩
    · simp [byteBits] at h
  · rintro ⟨h, h2⟩
    exact ⟨Or.inl (by simp [h]), h2⟩

/-- All that GETBIT can do. -/
theorem getBit_spec (s : State) (h8 : s.icnt.toNat ≤ 8) :
    (∃ b t, getBit s = .bit b t ∧ TookBit s b t ∧ BitReady s) ∨
    (getBit s = .noBits ∧ bitsIn s = [] ∧ s.codeInEnd = true ∧ s.havelast = false) ∨
    (getBit s = .held ∧ bitsIn s = [] ∧ s.codeInEnd = false) := by
  unfold getBit
  split
  next h0 =>
    split
    next b rest hc =>
      obtain ⟨b', t, ht, hb, hi, hf⟩ :=
        takeBit_spec { s with ibuf := b, icnt := 8, codeIn := rest } (show (8 : BitVec 4) ≠ 0 by decide) (by simp)
      have hs : bitsIn s = b' :: bitsIn t := by
        rw [← hb]
        simp [bitsIn, h0, hc]
      refine Or.inl ⟨b', t, ht, ?_, h8, Or.inl (by simp [hs])⟩
      simp only [TookBit, hs]
      refine ⟨trivial, trivial, hi, ?_⟩
      rw [hf]
    next hc =>
      have hn : bitsIn s = [] := (bitsIn_eq_nil_iff s).2 ⟨h0, hc⟩
      split
      next he =>
        split
        next hl => exact Or.inl ⟨_, _, rfl, by simp [TookBit, hn], h8, Or.inr ⟨he, hl⟩⟩
        next hl => exact Or.inr (Or.inl ⟨rfl, hn, he, by simpa using hl⟩)
      next he => exact Or.inr (Or.inr ⟨rfl, hn, by simpa using he⟩)
  next h0 =>
    obtain ⟨b', t, ht, hb, hi, hf⟩ := takeBit_spec s h0 h8
    refine Or.inl ⟨b', t, ht, ?_, h8, Or.inl (by simp [hb])⟩
    simp only [TookBit, hb]
    exact ⟨trivial, trivial, hi, hf⟩

/-- With a bit ready, GETBIT takes one. -/
theorem getBit_of_ready (s : State) (h : BitReady s) : ∃ b t, getBit s = .bit b t ∧ TookBit s b t := by
  obtain ⟨b, t, h1, h2, -⟩ | ⟨-, hn, -, hl⟩ | ⟨-, hn, he⟩ := getBit_spec s h.1
  · exact ⟨b, t, h1, h2⟩
  · have := h.2
    simp_all
  · have := h.2
    simp_all

/-- Taking a bit changes the unpacker and `CODE_IN` only. -/
theorem TookBit.frame {s t : State} {b : Bool} (h : TookBit s b t) :
    t = { s with ibuf := t.ibuf, icnt := t.icnt, codeIn := t.codeIn, lastbit := t.lastbit, havelast := t.havelast } := by
  unfold TookBit at h
  split at h
  · obtain ⟨-, -, -, h⟩ := h
    rw [h]
  · rw [h.2]

/-- When GETBIT is held (45 R231 (c)). -/
theorem getBit_held_iff (s : State) :
    getBit s = .held ↔ s.icnt = 0 ∧ s.codeIn = [] ∧ s.codeInEnd = false := by
  unfold getBit takeBit
  split
  · split
    · simp_all
    · split
      · split <;> simp_all
      · simp_all
  · simp_all

/-- Once a real bit has been read, GETBIT has no fault (44 R206). -/
theorem getBit_ne_noBits {s : State} (h : s.havelast = true) : getBit s ≠ .noBits := by
  unfold getBit takeBit
  split
  · split
    · simp
    · split
      · simp
      · simp
  · simp

/-- After a bit was taken the unpacker holds at most eight, and there is a last bit. -/
theorem getBit_keeps {s t : State} {b : Bool} (h8 : s.icnt.toNat ≤ 8) (h : getBit s = .bit b t) :
    t.icnt.toNat ≤ 8 ∧ t.havelast = true := by
  obtain ⟨b', t', h1, h2, h3⟩ | ⟨h1, -⟩ | ⟨h1, -⟩ := getBit_spec s h8
  · rw [h] at h1
    injection h1 with h1 h4
    subst h4
    unfold TookBit at h2
    split at h2
    · exact ⟨h2.2.2.1, by rw [h2.2.2.2]⟩
    next hn =>
      rw [h2.2]
      exact ⟨h8, (h3.2.resolve_left fun h => h hn).2⟩
  · rw [h] at h1
    cases h1
  · rw [h] at h1
    cases h1

end Sys2Proof.Machine
end

