-- ==== Sys2Proof/Laws/Step.lean ====
section
/-! SUPPORT. What the shared operations behind the arms of `exec` can do, each once: if one answers a next state, that
state is one of those listed here. -/

namespace Sys2Proof.Machine

/-! ## Who moves -/

/-- A move is a step of the core or an action of the host, with the schedule advanced. -/
theorem step_cases (s : State) :
    (∃ r, step s = exec (currentInstr { s with schedule := r }) { s with schedule := r }) ∨
    (∃ a r, s.schedule = .host a :: r ∧ step s = hostAct a { s with schedule := r }) := by
  unfold step nextMove
  cases h : s.schedule with
  | nil => exact .inl ⟨[], by cases s; simp_all⟩
  | cons m rest =>
    cases m with
    | core => exact .inl ⟨rest, rfl⟩
    | host a => exact .inr ⟨a, rest, rfl, rfl⟩

/-! ## Taking a stream bit -/

/-- Whatever `ICNT` holds, a bit taken changes the unpacker and `CODE_IN` only. -/
theorem getBit_frame {s t : State} {b : Bool} (h : getBit s = .bit b t) :
    t = { s with
      ibuf := t.ibuf, icnt := t.icnt, codeIn := t.codeIn, lastbit := t.lastbit, havelast := t.havelast } ∧
    (t.codeIn = s.codeIn ∨ t.codeIn = s.codeIn.tail) ∧ (s.havelast = true → t.havelast = true) := by
  unfold getBit takeBit at h
  split at h
  · split at h
    next b' rest hc =>
      cases h
      exact ⟨rfl, .inr (by simp [hc]), fun _ => rfl⟩
    · split at h
      · split at h
        · cases h
          exact ⟨rfl, .inl rfl, id⟩
        · cases h
      · cases h
  · cases h
    exact ⟨rfl, .inl rfl, fun _ => rfl⟩

/-- CONSUME_SHIFT is GETBIT, then the shift of the window. -/
theorem afterBit_consumeShift (s : State) (f : Bool → State → State) :
    afterBit (consumeShift s) s f = afterBit (getBit s) s fun b t => f b { t with window := shiftIn t.window b } := by
  unfold consumeShift
  cases getBit s <;> rfl

/-- CONSUME_SPLICE is GETBIT, then the splice of the window. -/
theorem afterBit_consumeSplice (s : State) (f : Bool → State → State) :
    afterBit (consumeSplice s) s f =
      afterBit (getBit s) s fun b t => f b { t with window := spliceIn t.window.msb t.window b } := by
  unfold consumeSplice
  cases getBit s <;> rfl

/-- All that an operation which takes a stream bit can end in. -/
theorem afterBit_cases {s t : State} {f : Bool → State → State} (h : afterBit (getBit s) s f = .next t) :
    (∃ b u, getBit s = .bit b u ∧ t = f b u) ∨
    (getBit s = .noBits ∧ t = s.raise .nobits) ∨ (getBit s = .held ∧ t = s) := by
  unfold afterBit at h
  cases hg : getBit s with
  | bit b u =>
    rw [hg] at h
    cases h
    exact .inl ⟨b, u, rfl, rfl⟩
  | noBits =>
    rw [hg] at h
    cases h
    exact .inr (.inl ⟨rfl, rfl⟩)
  | held =>
    rw [hg] at h
    cases h
    exact .inr (.inr ⟨rfl, rfl⟩)

/-! ## The commands -/

/-- All that a step in IDLE or DONE can do. -/
theorem consumeCommand_cases {s t : State} (h : consumeCommand s = .next t) :
    (s.cmd = [] ∧ t = s) ∨
    ∃ c rest, s.cmd = c :: rest ∧
      ((c = 0b00#2 ∧ execNop s = .next t) ∨ (c = 0b01#2 ∧ execStartEnc s = .next t) ∨
        (c = 0b10#2 ∧ execStartDec s = .next t) ∨ (c = 0b11#2 ∧ execCmdReserved s = .next t)) := by
  unfold consumeCommand at h
  split at h
  next hc =>
    cases h
    exact .inl ⟨hc, rfl⟩
  next c rest hc =>
    refine .inr ⟨c, rest, hc, ?_⟩
    have h4 : c = 0b00#2 ∨ c = 0b01#2 ∨ c = 0b10#2 ∨ c = 0b11#2 := by
      clear hc h
      revert c
      decide
    rcases h4 with rfl | rfl | rfl | rfl
    · exact .inl ⟨rfl, h⟩
    · exact .inr (.inl ⟨rfl, h⟩)
    · exact .inr (.inr (.inl ⟨rfl, h⟩))
    · exact .inr (.inr (.inr ⟨rfl, h⟩))

/-! ## The renormaliser -/

/-- All that RN_E1 can do. -/
theorem renormE1_cases {b : Bool} {s t : State} (h : renormE1 b s = .next t) :
    (s.mode = .enc ∧ t = (emit b s).shiftInterval) ∨
    (s.mode = .dec ∧
      ((∃ c u, getBit s = .bit c u ∧ t = { u with window := shiftIn u.window c }.shiftInterval) ∨
        (getBit s = .noBits ∧ t = s.raise .nobits) ∨ (getBit s = .held ∧ t = s))) := by
  unfold renormE1 at h
  split at h
  next hm =>
    cases h
    exact .inl ⟨hm, rfl⟩
  next hm =>
    rw [afterBit_consumeShift] at h
    exact .inr ⟨hm, afterBit_cases h⟩

/-- All that RN_E3 can do. -/
theorem renormE3_cases {s t : State} (h : renormE3 s = .next t) :
    (s.mode = .enc ∧
      ((s.ufc + 1 < 2 ^ s.cfg.ufcBits ∧ t = { s with ufc := s.ufc + 1 }.spliceInterval) ∨
        (2 ^ s.cfg.ufcBits ≤ s.ufc + 1 ∧ t = s.raise .ufcovf))) ∨
    (s.mode = .dec ∧
      ((∃ c u, getBit s = .bit c u ∧ t = { u with window := spliceIn u.window.msb u.window c }.spliceInterval) ∨
        (getBit s = .noBits ∧ t = s.raise .nobits) ∨ (getBit s = .held ∧ t = s))) := by
  unfold renormE3 defer at h
  split at h
  next hm =>
    refine .inl ⟨hm, ?_⟩
    by_cases hu : s.ufc + 1 < 2 ^ s.cfg.ufcBits
    · simp only [hu, if_true] at h
      cases h
      exact .inl ⟨hu, rfl⟩
    · simp only [hu, if_false] at h
      cases h
      exact .inr ⟨Nat.le_of_not_lt hu, rfl⟩
  next hm =>
    rw [afterBit_consumeSplice] at h
    exact .inr ⟨hm, afterBit_cases h⟩

/-- All that RN_TERM can do. -/
theorem renormTerm_cases {s t : State} (h : renormTerm s = .next t) :
    (s.mode = .enc ∧ t = { s with phase := if s.sym = 256#9 then .finish else .fetch }) ∨
    (s.mode = .dec ∧ t = { s with phase := .scale }) := by
  unfold renormTerm at h
  split at h
  next hm =>
    cases h
    exact .inl ⟨hm, rfl⟩
  next hm =>
    cases h
    exact .inr ⟨hm, rfl⟩

/-- RN_E1 as one of the conditions of 41 R136. -/
theorem execPhRenorm_determinate {b : Bool} {s : State} (h : Determinate b s.lower s.upper) :
    execPhRenorm s = renormE1 b s := by
  unfold execPhRenorm
  rw [rnPattern_decode, h.1, h.2]
  cases b <;> rfl

/-- RN_E3 as the condition of 41 R138. -/
theorem execPhRenorm_straddles {s : State} (h : Straddles s.lower s.upper) : execPhRenorm s = renormE3 s := by
  unfold execPhRenorm
  rw [rnPattern_decode, h.1, h.2.1, h.2.2.1, h.2.2.2]
  rfl

/-- RN_TERM as the condition of 41 R140. -/
theorem execPhRenorm_terminal {s : State} (h : Terminal s.lower s.upper) : execPhRenorm s = renormTerm s := by
  unfold execPhRenorm
  rw [rnPattern_decode, h.1, h.2.1]
  cases h3 : s.lower.getLsbD 30 <;> cases h4 : s.upper.getLsbD 30
  · rfl
  · rfl
  · have := h.2.2
    simp_all
  · rfl

/-- RN_UNREACHABLE as the condition of 41 R142. -/
theorem execPhRenorm_unreachable {s : State} (h1 : s.lower.getLsbD 31 = true) (h2 : s.upper.getLsbD 31 = false) :
    execPhRenorm s = raiseFault .invariant s := by
  unfold execPhRenorm
  rw [rnPattern_decode, h1, h2]
  rfl

/-- Every interval meets one of the four conditions, whatever its order. -/
theorem pattern_cases (l u : Word) :
    (∃ b, Determinate b l u) ∨ Straddles l u ∨ Terminal l u ∨ (l.getLsbD 31 = true ∧ u.getLsbD 31 = false) := by
  unfold Determinate Straddles Terminal
  generalize l.getLsbD 31 = a
  generalize u.getLsbD 31 = c
  generalize l.getLsbD 30 = x
  generalize u.getLsbD 30 = y
  revert a c x y
  decide

/-- All that a step in RENORM can do, by the condition that holds of the interval (30 R85). -/
theorem execPhRenorm_cases {s t : State} (h : execPhRenorm s = .next t) :
    (∃ b, Determinate b s.lower s.upper ∧ renormE1 b s = .next t) ∨
    (Straddles s.lower s.upper ∧ renormE3 s = .next t) ∨
    (Terminal s.lower s.upper ∧ renormTerm s = .next t) ∨
    (s.lower.getLsbD 31 = true ∧ s.upper.getLsbD 31 = false ∧ t = s.raise .invariant) := by
  rcases pattern_cases s.lower s.upper with ⟨b, hb⟩ | hs | hT | ⟨h1, h2⟩
  · exact .inl ⟨b, hb, execPhRenorm_determinate hb ▸ h⟩
  · exact .inr (.inl ⟨hs, execPhRenorm_straddles hs ▸ h⟩)
  · exact .inr (.inr (.inl ⟨hT, execPhRenorm_terminal hT ▸ h⟩))
  · rw [execPhRenorm_unreachable h1 h2] at h
    cases h
    exact .inr (.inr (.inr ⟨h1, h2, rfl⟩))

/-! ## The phases -/

/-- All that a step in FETCH can do. -/
theorem execPhFetch_cases {s t : State} (h : execPhFetch s = .next t) :
    (s.symIn = [] ∧ t = s) ∨
    (∃ (x : Symbol) (rest : _), s.symIn = BitVec.ofNat 9 x.val :: rest ∧ fetchSymbol x s = .next t) ∨
    (∃ c rest, s.symIn = c :: rest ∧ 256 < c.toNat ∧ t = s.popSym.raise .illsym) := by
  unfold execPhFetch at h
  split at h
  next hc =>
    cases h
    exact .inl ⟨hc, rfl⟩
  next c rest hc =>
    by_cases h1 : c.msb = false
    · have hd : decodeSym c = .byte (c.setWidth 8) := by rw [decodeSym, if_pos h1]
      have hlt : c.toNat < 256 := by
        rw [BitVec.msb_eq_decide, decide_eq_false_iff_not] at h1
        simpa using h1
      rw [hd] at h
      refine .inr (.inl ⟨symbolOfByte (c.setWidth 8), rest, ?_, h⟩)
      rw [hc]
      congr 1
      apply BitVec.eq_of_toNat_eq
      simp [symbolOfByte]
      omega
    · by_cases h2 : c = 256#9
      · subst h2
        exact .inr (.inl ⟨eofSymbol, rest, hc, h⟩)
      · have hgt : 256 < c.toNat := by
          have h3 : c.toNat ≠ 256 := fun h => h2 (BitVec.eq_of_toNat_eq h)
          rw [BitVec.msb_eq_decide, decide_eq_false_iff_not] at h1
          norm_num at h1
          omega
        rw [decodeSym_illegal c hgt] at h
        cases h
        exact .inr (.inr ⟨c, rest, hc, hgt, rfl⟩)

/-- All that a step in NARROW can do. -/
theorem execPhNarrow_cases {s t : State} (h : execPhNarrow s = .next t) :
    (∃ l u, narrowed s.lower s.upper s.low s.high (total s.cfg.cf) = some (l, u) ∧
      t = { s with lower := l, upper := u, phase := .renorm }) ∨
    (narrowed s.lower s.upper s.low s.high (total s.cfg.cf) = none ∧ t = s.raise .invariant) := by
  unfold execPhNarrow at h
  split at h
  next l u hn =>
    cases h
    exact .inl ⟨l, u, hn, rfl⟩
  next hn =>
    cases h
    exact .inr ⟨hn, rfl⟩

/-- All that a step in SCALE can do. -/
theorem execPhScale_cases {s t : State} (h : execPhScale s = .next t) :
    (WindowInside s ∧ total s.cfg.cf ≠ 0 ∧ t = { s with
      range := BitVec.ofNat 33 (intervalRange s.lower s.upper)
      scaled := BitVec.ofNat 32 (scaledPosition s.lower s.upper s.window (total s.cfg.cf))
      phase := .search }) ∨
    (¬ (s.lower ≤ s.window ∧ s.window ≤ s.upper ∧ total s.cfg.cf ≠ 0) ∧ t = s.raise .invariant) := by
  unfold execPhScale at h
  split at h
  next hc =>
    cases h
    exact .inl ⟨⟨hc.1, hc.2.1⟩, hc.2.2, rfl⟩
  next hc =>
    cases h
    exact .inr ⟨hc, rfl⟩

/-- All that a step in SEARCH can do. -/
theorem execPhSearch_cases {s t : State} (h : execPhSearch s = .next t) :
    (s.scaled < total s.cfg.cf ∧ searchIndex s.cfg.cf s.scaled < 256 ∧
      t = foundByte (BitVec.ofNat 8 (searchIndex s.cfg.cf s.scaled)) s) ∨
    (s.scaled < total s.cfg.cf ∧ 256 ≤ searchIndex s.cfg.cf s.scaled ∧ t = { s with sym := 256#9, phase := .done }) ∨
    (total s.cfg.cf ≤ s.scaled ∧ t = s.raise .invariant) := by
  unfold execPhSearch at h
  split at h
  next h1 =>
    split at h
    next h2 =>
      cases h
      exact .inl ⟨h1, h2, rfl⟩
    next h2 =>
      cases h
      exact .inr (.inl ⟨h1, Nat.le_of_not_lt h2, rfl⟩)
  next h1 =>
    cases h
    exact .inr (.inr ⟨by rw [BitVec.le_def]; rw [BitVec.lt_def] at h1; omega, rfl⟩)

end Sys2Proof.Machine
end

