-- ==== Sys2Proof/Laws/Effect.lean ====
section
/-! SUPPORT. Everything an operation can do, in one inversion lemma: `Effect s i t` lists, for each operation `i`, the
fields of `t` that may differ from `s` and what little is known of them without the operands. A claim about what no
operation changes is a case analysis on it. -/

namespace Sys2Proof.Machine

/-- The operations that may raise a fault (60 R241). -/
def mayFault : Instr → Bool
  | .nop => false
  | .startEnc => true
  | .startDec => true
  | .cmdReserved => true
  | .fetchByte _ => false
  | .fetchEof => false
  | .symIllegal _ => true
  | .rnE1b0 _ _ => true
  | .rnE1b1 _ _ => true
  | .rnE3 => true
  | .rnTerm001 _ => false
  | .rnTerm0111 => false
  | .rnUnreachable _ _ => true
  | .phIdle => true
  | .phFetch => true
  | .phNarrow => true
  | .phRenorm => true
  | .phFinish => false
  | .phFill => true
  | .phScale => true
  | .phSearch => true
  | .phDone => true
  | .phFault => false
  | .phUnused _ => false
  | .lookup _ => false
  | .putbit _ => false
  | .padflush => false
  | .getbit => true
  | .emit _ => false
  | .defer => true
  | .consumeShift => true
  | .consumeSplice => true

/-- The shapes of a next state. -/
inductive Effect (s : State) : Instr → State → Prop
  /-- A held step, or an operation with no effect. -/
  | same (i : Instr) : Effect s i s
  /-- A fault: the element popped stays popped (60 R246). -/
  | fault (i : Instr) (c : FCode) (si : List SymCode) (cm : List CmdCode) (hi : mayFault i = true)
      (hs : si = s.symIn ∨ si = s.symIn.tail) (hc : cm = s.cmd ∨ cm = s.cmd.tail) :
      Effect s i { s with fcode := c, phase := .fault, symIn := si, cmd := cm }
  /-- NOP. -/
  | nop (i : Instr) (hi : i ∈ [.nop, .phIdle, .phDone]) : Effect s i { s with cmd := s.cmd.tail }
  /-- START_ENC. -/
  | startEnc (i : Instr) (hi : i ∈ [.startEnc, .phIdle, .phDone]) :
      Effect s i { s with
        cmd := s.cmd.tail, mode := .enc, lower := 0, upper := 0xFFFFFFFF, ufc := 0, acc := 0, nbits := 0,
        phase := .fetch }
  /-- START_DEC. -/
  | startDec (i : Instr) (hi : i ∈ [.startDec, .phIdle, .phDone]) :
      Effect s i { s with
        cmd := s.cmd.tail, mode := .dec, lower := 0, upper := 0xFFFFFFFF, window := 0, fillcnt := 0, icnt := 0,
        havelast := false, phase := .fill }
  /-- FETCH. -/
  | fetch (i : Instr) (y : SymCode) (l h : Word) (hi : i ∈ [.fetchEof, .phFetch] ∨ ∃ v, i = .fetchByte v) :
      Effect s i { s with symIn := s.symIn.tail, sym := y, low := l, high := h, phase := .narrow }
  /-- NARROW. -/
  | narrow (l u : Word) : Effect s .phNarrow { s with lower := l, upper := u, phase := .renorm }
  /-- RN_E1 in encode mode. -/
  | determinateEnc (i : Instr) (l u : Word) (a : Byte) (n : BitVec 3) (co : List Byte) (hm : s.mode = .enc)
      (hi : i = .phRenorm ∨ ∃ x y, i = .rnE1b0 x y ∨ i = .rnE1b1 x y) (hc : ∃ new, co = s.codeOut ++ new) :
      Effect s i { s with
        lower := l, upper := u, phase := .renorm, ufc := 0, acc := a, nbits := n, codeOut := co }
  /-- RN_E3 in encode mode. -/
  | underflowEnc (i : Instr) (l u : Word) (k : Nat) (hm : s.mode = .enc) (hi : i = .phRenorm ∨ i = .rnE3) :
      Effect s i { s with lower := l, upper := u, phase := .renorm, ufc := k }
  /-- RN_E1 and RN_E3 in decode mode. -/
  | consumeDec (i : Instr) (l u w : Word) (ib : Byte) (ic : BitVec 4) (ci : List Byte) (lb hl : Bool)
      (hm : s.mode = .dec) (hi : i = .phRenorm ∨ i = .rnE3 ∨ ∃ x y, i = .rnE1b0 x y ∨ i = .rnE1b1 x y)
      (hc : ci = s.codeIn ∨ ci = s.codeIn.tail) :
      Effect s i { s with
        lower := l, upper := u, window := w, phase := .renorm, ibuf := ib, icnt := ic, codeIn := ci, lastbit := lb,
        havelast := hl }
  /-- RN_TERM. -/
  | phase (i : Instr) (p : Phase) (hi : i = .phRenorm ∨ i = .rnTerm0111 ∨ ∃ y, i = .rnTerm001 y) : Effect s i { s with phase := p }
  /-- PUTBIT, PADFLUSH, FINISH. -/
  | pack (i : Instr) (a : Byte) (n : BitVec 3) (co : List Byte) (p : Phase)
      (hi : ((i = .padflush ∨ ∃ b, i = .putbit b) ∧ p = s.phase) ∨ i = .phFinish) (hc : ∃ new, co = s.codeOut ++ new) :
      Effect s i { s with acc := a, nbits := n, codeOut := co, phase := p }
  /-- EMIT. -/
  | emit (b : Bool) (a : Byte) (n : BitVec 3) (co : List Byte) (hc : ∃ new, co = s.codeOut ++ new) :
      Effect s (.emit b) { s with ufc := 0, acc := a, nbits := n, codeOut := co }
  /-- DEFER. -/
  | defer (k : Nat) : Effect s .defer { s with ufc := k }
  /-- GETBIT. -/
  | getbit (ib : Byte) (ic : BitVec 4) (ci : List Byte) (lb hl : Bool) (hc : ci = s.codeIn ∨ ci = s.codeIn.tail) :
      Effect s .getbit { s with ibuf := ib, icnt := ic, codeIn := ci, lastbit := lb, havelast := hl }
  /-- CONSUME_SHIFT and CONSUME_SPLICE. -/
  | consume (i : Instr) (w : Word) (ib : Byte) (ic : BitVec 4) (ci : List Byte) (lb hl : Bool)
      (hi : i = .consumeShift ∨ i = .consumeSplice) (hc : ci = s.codeIn ∨ ci = s.codeIn.tail) :
      Effect s i { s with window := w, ibuf := ib, icnt := ic, codeIn := ci, lastbit := lb, havelast := hl }
  /-- FILL. -/
  | fill (w : Word) (fc : BitVec 6) (p : Phase) (ib : Byte) (ic : BitVec 4) (ci : List Byte) (lb hl : Bool)
      (hc : ci = s.codeIn ∨ ci = s.codeIn.tail) :
      Effect s .phFill { s with
        window := w, fillcnt := fc, phase := p, ibuf := ib, icnt := ic, codeIn := ci, lastbit := lb, havelast := hl }
  /-- SCALE. -/
  | scale (r : BitVec 33) (q : Word) : Effect s .phScale { s with range := r, scaled := q, phase := .search }
  /-- SEARCH that finds a byte symbol. -/
  | found (b : Byte) (y : SymCode) (l h : Word) :
      Effect s .phSearch { s with
        byteOut := s.byteOut ++ [b], sym := y, low := l, high := h, phase := .narrow }
  /-- SEARCH that finds the end-of-stream symbol. -/
  | foundEof : Effect s .phSearch { s with sym := 256#9, phase := .done }

theorem effect_raise (s : State) {i : Instr} (c : FCode) (hi : mayFault i = true) : Effect s i (s.raise c) :=
  .fault i c _ _ hi (.inl rfl) (.inl rfl)

theorem effect_startEnc {s t : State} {i : Instr} (hi : i ∈ [.startEnc, .phIdle, .phDone])
    (h : execStartEnc s = .next t) : Effect s i t := by
  unfold execStartEnc at h
  split at h <;> cases h
  · exact .startEnc i hi
  · exact .fault i _ _ _ (by simp at hi; rcases hi with rfl | rfl | rfl <;> rfl) (.inl rfl) (.inr rfl)

theorem effect_startDec {s t : State} {i : Instr} (hi : i ∈ [.startDec, .phIdle, .phDone])
    (h : execStartDec s = .next t) : Effect s i t := by
  unfold execStartDec at h
  split at h <;> cases h
  · exact .startDec i hi
  · exact .fault i _ _ _ (by simp at hi; rcases hi with rfl | rfl | rfl <;> rfl) (.inl rfl) (.inr rfl)

theorem effect_cmdReserved {s t : State} {i : Instr} (hi : mayFault i = true) (h : execCmdReserved s = .next t) :
    Effect s i t := by
  cases h
  exact .fault i _ _ _ hi (.inl rfl) (.inr rfl)

theorem effect_command {s t : State} {i : Instr} (hi : i ∈ [.phIdle, .phDone]) (h : consumeCommand s = .next t) :
    Effect s i t := by
  obtain ⟨-, rfl⟩ | ⟨c, rest, -, ⟨-, h⟩ | ⟨-, h⟩ | ⟨-, h⟩ | ⟨-, h⟩⟩ := consumeCommand_cases h
  · exact .same i
  · cases h
    exact .nop i (List.mem_cons_of_mem _ hi)
  · exact effect_startEnc (List.mem_cons_of_mem _ hi) h
  · exact effect_startDec (List.mem_cons_of_mem _ hi) h
  · exact effect_cmdReserved (by simp at hi; rcases hi with rfl | rfl <;> rfl) h

theorem effect_fetch {s t : State} {i : Instr} {x : Symbol} (hi : i ∈ [.fetchEof, .phFetch] ∨ ∃ v, i = .fetchByte v)
    (h : fetchSymbol x s = .next t) : Effect s i t := by
  cases h
  exact .fetch i _ _ _ hi

theorem effect_renormE1 {s t : State} {i : Instr} {b : Bool}
    (hi : i = .phRenorm ∨ ∃ x y, i = .rnE1b0 x y ∨ i = .rnE1b1 x y) (h : renormE1 b s = .next t) : Effect s i t := by
  obtain ⟨hm, rfl⟩ | ⟨hm, ⟨c, u, hu, rfl⟩ | ⟨-, rfl⟩ | ⟨-, rfl⟩⟩ := renormE1_cases h
  · have he := emit_codeOut b s
    rw [emit_frame]
    exact .determinateEnc i _ _ _ _ _ hm hi he
  · have hf := getBit_frame hu
    rw [hf.1]
    exact .consumeDec i _ _ _ _ _ _ _ _ hm (hi.imp_right .inr) hf.2.1
  · exact effect_raise _ _ (by rcases hi with rfl | ⟨x, y, rfl | rfl⟩ <;> rfl)
  · exact .same i

theorem effect_renormE3 {s t : State} {i : Instr} (hi : i = .phRenorm ∨ i = .rnE3) (h : renormE3 s = .next t) :
    Effect s i t := by
  obtain ⟨hm, ⟨-, rfl⟩ | ⟨-, rfl⟩⟩ | ⟨hm, ⟨c, u, hu, rfl⟩ | ⟨-, rfl⟩ | ⟨-, rfl⟩⟩ := renormE3_cases h
  · exact .underflowEnc i _ _ _ hm hi
  · exact effect_raise _ _ (by rcases hi with rfl | rfl <;> rfl)
  · have hf := getBit_frame hu
    rw [hf.1]
    exact .consumeDec i _ _ _ _ _ _ _ _ hm (hi.imp_right .inl) hf.2.1
  · exact effect_raise _ _ (by rcases hi with rfl | rfl <;> rfl)
  · exact .same i

theorem effect_renormTerm {s t : State} {i : Instr} (hi : i = .phRenorm ∨ i = .rnTerm0111 ∨ ∃ y, i = .rnTerm001 y)
    (h : renormTerm s = .next t) : Effect s i t := by
  obtain ⟨-, rfl⟩ | ⟨-, rfl⟩ := renormTerm_cases h <;> exact .phase i _ hi

/-- Everything an operation can do when it answers a next state. -/
theorem exec_effect {i : Instr} {s t : State} (h : exec i s = .next t) : Effect s i t := by
  cases i with
  | nop =>
    cases h
    exact .nop _ (by simp)
  | startEnc => exact effect_startEnc (by simp) h
  | startDec => exact effect_startDec (by simp) h
  | cmdReserved => exact effect_cmdReserved rfl h
  | fetchByte v => exact effect_fetch (.inr ⟨v, rfl⟩) h
  | fetchEof => exact effect_fetch (by simp) h
  | symIllegal v =>
    cases h
    exact .fault _ _ _ _ rfl (.inr rfl) (.inl rfl)
  | rnE1b0 x y => exact effect_renormE1 (.inr ⟨x, y, .inl rfl⟩) h
  | rnE1b1 x y => exact effect_renormE1 (.inr ⟨x, y, .inr rfl⟩) h
  | rnE3 => exact effect_renormE3 (.inr rfl) h
  | rnTerm001 y => exact effect_renormTerm (.inr (.inr ⟨y, rfl⟩)) h
  | rnTerm0111 => exact effect_renormTerm (.inr (.inl rfl)) h
  | rnUnreachable x y =>
    cases h
    exact effect_raise _ _ rfl
  | phIdle => exact effect_command (by simp) h
  | phFetch =>
    obtain ⟨-, rfl⟩ | ⟨_, _, _, h⟩ | ⟨_, _, _, _, rfl⟩ := execPhFetch_cases h
    · exact .same _
    · exact effect_fetch (by simp) h
    · exact .fault _ _ _ _ rfl (.inr rfl) (.inl rfl)
  | phNarrow =>
    obtain ⟨_, _, -, rfl⟩ | ⟨-, rfl⟩ := execPhNarrow_cases h
    · exact .narrow _ _
    · exact effect_raise _ _ rfl
  | phRenorm =>
    obtain ⟨_, _, h⟩ | ⟨-, h⟩ | ⟨-, h⟩ | ⟨-, -, rfl⟩ := execPhRenorm_cases h
    · exact effect_renormE1 (.inl rfl) h
    · exact effect_renormE3 (.inl rfl) h
    · exact effect_renormTerm (.inl rfl) h
    · exact effect_raise _ _ rfl
  | phFinish =>
    cases h
    have hc := marker_codeOut s
    rw [marker_frame]
    exact .pack _ _ _ _ _ (.inr rfl) hc
  | phFill =>
    obtain ⟨b, u, hu, rfl⟩ | ⟨-, rfl⟩ | ⟨-, rfl⟩ := afterBit_cases h
    · have hf := getBit_frame hu
      rw [hf.1]
      exact .fill _ _ _ _ _ _ _ _ hf.2.1
    · exact effect_raise _ _ rfl
    · exact .same _
  | phScale =>
    obtain ⟨-, -, rfl⟩ | ⟨-, rfl⟩ := execPhScale_cases h
    · exact .scale _ _
    · exact effect_raise _ _ rfl
  | phSearch =>
    obtain ⟨-, -, rfl⟩ | ⟨-, -, rfl⟩ | ⟨-, rfl⟩ := execPhSearch_cases h
    · exact .found _ _ _ _
    · exact .foundEof
    · exact effect_raise _ _ rfl
  | phDone => exact effect_command (by simp) h
  | phFault =>
    cases h
    exact .same _
  | phUnused p => cases h
  | lookup x =>
    cases h
    exact .same _
  | putbit b =>
    cases h
    have hc := putBit_codeOut b s
    rw [putBit_frame]
    exact .pack _ _ _ _ _ (.inl ⟨.inr ⟨b, rfl⟩, rfl⟩) hc
  | padflush =>
    cases h
    have hc := putBits_codeOut (padCount s) true s
    rw [padFlush_frame]
    exact .pack _ _ _ _ _ (.inl ⟨.inl rfl, rfl⟩) hc
  | getbit =>
    obtain ⟨b, u, hu, rfl⟩ | ⟨-, rfl⟩ | ⟨-, rfl⟩ := afterBit_cases h
    · have hf := getBit_frame hu
      rw [hf.1]
      exact .getbit _ _ _ _ _ hf.2.1
    · exact effect_raise _ _ rfl
    · exact .same _
  | emit b =>
    cases h
    have hc := emit_codeOut b s
    rw [emit_frame]
    exact .emit _ _ _ _ hc
  | defer =>
    change execDefer s = _ at h
    unfold execDefer defer at h
    by_cases hu : s.ufc + 1 < 2 ^ s.cfg.ufcBits
    · simp only [hu, if_true] at h
      cases h
      exact .defer _
    · simp only [hu, if_false] at h
      cases h
      exact effect_raise _ _ rfl
  | consumeShift =>
    change afterBit _ _ _ = _ at h
    rw [afterBit_consumeShift] at h
    obtain ⟨b, u, hu, rfl⟩ | ⟨-, rfl⟩ | ⟨-, rfl⟩ := afterBit_cases h
    · have hf := getBit_frame hu
      rw [hf.1]
      exact .consume _ _ _ _ _ _ _ (.inl rfl) hf.2.1
    · exact effect_raise _ _ rfl
    · exact .same _
  | consumeSplice =>
    change afterBit _ _ _ = _ at h
    rw [afterBit_consumeSplice] at h
    obtain ⟨b, u, hu, rfl⟩ | ⟨-, rfl⟩ | ⟨-, rfl⟩ := afterBit_cases h
    · have hf := getBit_frame hu
      rw [hf.1]
      exact .consume _ _ _ _ _ _ _ (.inr rfl) hf.2.1
    · exact effect_raise _ _ rfl
    · exact .same _

end Sys2Proof.Machine
end

