-- ==== Sys2Proof/Laws/FrequencyModel.lean ====
section
/-! SUPPORT. The table's check in one pass over its words (spec/40_frequency_model.md R111, R113). -/

namespace Sys2Proof.Machine

/-- A table is valid when its first word is 0 and each word is below the next: one pass, where the definition looks up
every word anew. -/
theorem cfValid_of_isChain {t : Table} (h0 : cfAt t 0 = 0) (h : t.toList.IsChain (· < ·)) : CFValid t := by
  refine ⟨h0, fun s => ?_⟩
  have hlen : t.toList.length = 258 := by simp
  have := List.isChain_iff_getElem.mp h s.val (by rw [hlen]; omega)
  simpa [cfAt, Vector.get, Vector.getElem_toList] using this

end Sys2Proof.Machine
end

