-- ==== Sys2Proof/Laws/Interleaving.lean ====
section
/-! SUPPORT. The core and what it has not touched yet (spec/45_sequencer.md R229): elements that wait behind those in the
input queues, and bytes that the host has already taken from the outputs. A step of the core that is not held neither
sees nor changes them, which is why the order of the host's moves does not matter. -/

namespace Sys2Proof.Machine

/-- What the core does not touch: what waits behind each input queue, what the host has taken from before each output
queue, and the moves to come. -/
structure Margin where
  cmd : List CmdCode
  sym : List SymCode
  code : List Byte
  ends : Bool
  takenCode : List Byte
  takenByte : List Byte
  moves : List Move
  deriving DecidableEq, Repr

/-- A state with its margin put back: the queues joined, and the moves to come those of the margin. -/
def State.within (x : Margin) (s : State) : State :=
  { s with
    cmd := s.cmd ++ x.cmd
    symIn := s.symIn ++ x.sym
    codeIn := s.codeIn ++ x.code
    codeInEnd := s.codeInEnd || x.ends
    codeOut := x.takenCode ++ s.codeOut
    byteOut := x.takenByte ++ s.byteOut
    schedule := x.moves }

/-- An outcome with the margin put back. -/
def withinOut (x : Margin) : Out → Out
  | .next t => .next (t.within x)
  | .fault f => .fault f
  | .refused r => .refused r

/-- A taken bit with the margin put back. -/
def BitRead.within (x : Margin) : BitRead → BitRead
  | .bit b t => .bit b (t.within x)
  | .noBits => .noBits
  | .held => .held

/-! ## The operations -/

/-- GETBIT, when it is not held, and no byte waits behind the end of the stream. -/
theorem getBit_within {x : Margin} {s : State} (he : s.codeInEnd = true → x.code = []) (hn : getBit s ≠ .held) :
    getBit (s.within x) = (getBit s).within x := by
  rw [Ne, getBit_held_iff] at hn
  unfold getBit takeBit
  by_cases h0 : s.icnt = 0
  · rw [if_pos h0, if_pos (show (s.within x).icnt = 0 from h0)]
    cases hc : s.codeIn with
    | cons b r =>
      have hw : (s.within x).codeIn = b :: (r ++ x.code) := by simp [State.within, hc]
      simp only [hw]
      rfl
    | nil =>
      have hend : s.codeInEnd = true := by
        cases hce : s.codeInEnd
        · exact absurd ⟨h0, hc, hce⟩ hn
        · rfl
      have hw : (s.within x).codeIn = [] := by simp [State.within, hc, he hend]
      have hw2 : (s.within x).codeInEnd = true := by simp [State.within, hend]
      simp only [hw, hw2, hend, if_true]
      rw [show (s.within x).havelast = s.havelast from rfl]
      split <;> rfl
  · rw [if_neg h0, if_neg (show ¬ (s.within x).icnt = 0 from h0)]
    rfl

theorem afterBit_within {x : Margin} {s : State} {f : Bool → State → State}
    (hf : ∀ b t, f b (State.within x t) = (f b t).within x) (he : s.codeInEnd = true → x.code = [])
    (hn : getBit s ≠ .held) :
    afterBit (getBit (s.within x)) (s.within x) f = withinOut x (afterBit (getBit s) s f) := by
  rw [getBit_within he hn]
  cases getBit s with
  | bit b t => simp only [BitRead.within, afterBit, withinOut, hf]
  | noBits => rfl
  | held => rfl

theorem putBit_within (b : Bool) (x : Margin) (s : State) : putBit b (s.within x) = (putBit b s).within x := by
  unfold putBit
  rw [show (s.within x).nbits = s.nbits from rfl]
  split
  · simp [State.within]
  · rfl

theorem putBits_within (n : Nat) (b : Bool) (x : Margin) (s : State) :
    putBits n b (s.within x) = (putBits n b s).within x := by
  induction n generalizing s with
  | zero => rfl
  | succ n ih => rw [putBits, putBits, putBit_within, ih]

theorem emit_within (b : Bool) (x : Margin) (s : State) : emit b (s.within x) = (emit b s).within x := by
  unfold emit
  rw [putBit_within, show (s.within x).ufc = s.ufc from rfl, putBits_within]
  rfl

theorem renormE1_within {x : Margin} {s : State} (b : Bool) (he : s.codeInEnd = true → x.code = [])
    (hn : s.mode = .dec → getBit s ≠ .held) : renormE1 b (s.within x) = withinOut x (renormE1 b s) := by
  unfold renormE1
  rw [show (s.within x).mode = s.mode from rfl]
  cases hm : s.mode
  · simp only [emit_within]
    rfl
  · simp only [afterBit_consumeShift]
    exact afterBit_within (fun _ _ => rfl) he (hn hm)

theorem renormE3_within {x : Margin} {s : State} (he : s.codeInEnd = true → x.code = [])
    (hn : s.mode = .dec → getBit s ≠ .held) : renormE3 (s.within x) = withinOut x (renormE3 s) := by
  unfold renormE3
  rw [show (s.within x).mode = s.mode from rfl]
  cases hm : s.mode
  · unfold defer
    rw [show (s.within x).ufc = s.ufc from rfl, show (s.within x).cfg = s.cfg from rfl]
    by_cases hu : s.ufc + 1 < 2 ^ s.cfg.ufcBits
    · simp only [hu, if_true]
      rfl
    · simp only [hu, if_false]
      rfl
  · simp only [afterBit_consumeSplice]
    exact afterBit_within (fun _ _ => rfl) he (hn hm)

theorem renormTerm_within (x : Margin) (s : State) : renormTerm (s.within x) = withinOut x (renormTerm s) := by
  unfold renormTerm
  rw [show (s.within x).mode = s.mode from rfl]
  cases s.mode <;> rfl

/-! ## The phases -/

/-- A step in IDLE or DONE that finds a command. -/
theorem consumeCommand_within {x : Margin} {s : State} (hc : s.cmd ≠ []) :
    consumeCommand (s.within x) = withinOut x (consumeCommand s) := by
  obtain ⟨c, r, hr⟩ := List.exists_cons_of_ne_nil hc
  have hw : (s.within x).cmd = c :: (r ++ x.cmd) := by simp [State.within, hr]
  have hp : (s.within x).popCmd = s.popCmd.within x := by simp [State.within, State.popCmd, hr]
  unfold consumeCommand
  simp only [hw, hr]
  cases decodeCmd c with
  | nop => simp only [execNop, hp, withinOut]
  | startEnc =>
    simp only [execStartEnc, hp, show (s.within x).cfg = s.cfg from rfl]
    split <;> rfl
  | startDec =>
    simp only [execStartDec, hp, show (s.within x).cfg = s.cfg from rfl]
    split <;> rfl
  | reserved =>
    simp only [execCmdReserved, raiseFault, hp]
    rfl

theorem execPhFetch_within {x : Margin} {s : State} (hc : s.symIn ≠ []) :
    execPhFetch (s.within x) = withinOut x (execPhFetch s) := by
  obtain ⟨c, r, hr⟩ := List.exists_cons_of_ne_nil hc
  have hw : (s.within x).symIn = c :: (r ++ x.sym) := by simp [State.within, hr]
  have hp : (s.within x).popSym = s.popSym.within x := by simp [State.within, State.popSym, hr]
  unfold execPhFetch
  simp only [hw, hr]
  cases decodeSym c with
  | byte v =>
    simp only [execFetchByte, fetchSymbol, hp]
    rfl
  | eof =>
    simp only [execFetchEof, fetchSymbol, hp]
    rfl
  | illegal v =>
    simp only [execSymIllegal, raiseFault, hp]
    rfl

theorem execPhNarrow_within (x : Margin) (s : State) : execPhNarrow (s.within x) = withinOut x (execPhNarrow s) := by
  change (match narrowed s.lower s.upper s.low s.high (total s.cfg.cf) with | some (l, u) => _ | none => _) = _
  unfold execPhNarrow
  cases narrowed s.lower s.upper s.low s.high (total s.cfg.cf) <;> rfl

theorem execPhRenorm_within {x : Margin} {s : State} (he : s.codeInEnd = true → x.code = [])
    (hn : s.mode = .dec → (∃ b, Determinate b s.lower s.upper) ∨ Straddles s.lower s.upper → getBit s ≠ .held) :
    execPhRenorm (s.within x) = withinOut x (execPhRenorm s) := by
  obtain ⟨b, h⟩ | h | h | ⟨h1, h2⟩ := pattern_cases s.lower s.upper
  · rw [execPhRenorm_determinate h, execPhRenorm_determinate (s := s.within x) h,
      renormE1_within b he fun hm => hn hm (.inl ⟨b, h⟩)]
  · rw [execPhRenorm_straddles h, execPhRenorm_straddles (s := s.within x) h,
      renormE3_within he fun hm => hn hm (.inr h)]
  · rw [execPhRenorm_terminal h, execPhRenorm_terminal (s := s.within x) h, renormTerm_within]
  · rw [execPhRenorm_unreachable h1 h2, execPhRenorm_unreachable (s := s.within x) h1 h2]
    rfl

theorem execPhFinish_within (x : Margin) (s : State) : execPhFinish (s.within x) = withinOut x (execPhFinish s) := by
  unfold execPhFinish padFlush padCount
  rw [putBit_within, putBit_within, putBits_within]
  rfl

theorem execPhFill_within {x : Margin} {s : State} (he : s.codeInEnd = true → x.code = []) (hn : getBit s ≠ .held) :
    execPhFill (s.within x) = withinOut x (execPhFill s) :=
  afterBit_within (fun _ _ => rfl) he hn

theorem execPhScale_within (x : Margin) (s : State) : execPhScale (s.within x) = withinOut x (execPhScale s) := by
  change (if s.lower ≤ s.window ∧ s.window ≤ s.upper ∧ total s.cfg.cf ≠ 0 then _ else _) = _
  unfold execPhScale
  split <;> rfl

theorem execPhSearch_within (x : Margin) (s : State) : execPhSearch (s.within x) = withinOut x (execPhSearch s) := by
  change (if s.scaled < total s.cfg.cf then (if searchIndex s.cfg.cf s.scaled < 256 then _ else _) else _) = _
  unfold execPhSearch
  split
  · split
    · simp [withinOut, State.within, foundByte, State.pushByteOut]
    · rfl
  · rfl

/-! ## The step -/

/-- GETBIT is held exactly when no bit is available. -/
theorem getBit_held_iff_bitAvailable (s : State) : getBit s = .held ↔ s.bitAvailable = false := by
  rw [getBit_held_iff]
  simp [State.bitAvailable]
  tauto

/-- A determinate or straddling interval takes a stream bit in decode mode. -/
theorem takesBit_of_loop {l u : Word} (h : (∃ b, Determinate b l u) ∨ Straddles l u) :
    RnOp.takesBit (decodeRn (rnPattern l u)) = true := by
  obtain ⟨b, h⟩ | h := h
  · rw [rnPattern_decode, h.1, h.2]
    cases b <;> rfl
  · rw [rnPattern_decode, h.1, h.2.1, h.2.2.1, h.2.2.2]
    rfl

/-- A step of the core that is not held neither sees nor changes the margin. -/
theorem exec_within {x : Margin} {s : State} (he : s.codeInEnd = true → x.code = []) (hh : s.held = false) :
    exec (currentInstr (s.within x)) (s.within x) = withinOut x (exec (currentInstr s) s) := by
  have hb (hp : s.phase = .fill) : getBit s ≠ .held := by
    rw [Ne, getBit_held_iff_bitAvailable]
    simpa [State.held, hp] using hh
  have hr (hp : s.phase = .renorm) (hm : s.mode = .dec)
      (hl : (∃ b, Determinate b s.lower s.upper) ∨ Straddles s.lower s.upper) : getBit s ≠ .held := by
    rw [Ne, getBit_held_iff_bitAvailable]
    have h := takesBit_of_loop hl
    simpa [State.held, hp, hm, h] using hh
  unfold currentInstr
  rw [show (s.within x).fcode = s.fcode from rfl, show (s.within x).phase = s.phase from rfl]
  split
  · cases hp : s.phase with
    | idle => exact consumeCommand_within (by simpa [State.held, hp] using hh)
    | fetch => exact execPhFetch_within (by simpa [State.held, hp] using hh)
    | narrow => exact execPhNarrow_within x s
    | renorm => exact execPhRenorm_within he (hr hp)
    | finish => exact execPhFinish_within x s
    | fill => exact execPhFill_within he (hb hp)
    | scale => exact execPhScale_within x s
    | search => exact execPhSearch_within x s
    | done => exact consumeCommand_within (by simpa [State.held, hp] using hh)
    | fault => rfl
  · rfl

end Sys2Proof.Machine
end

