-- ==== Sys2Proof/Laws/PerInstr.lean ====
section
/-! SUPPORT. The family `Fits`: the code of every operation fits the width of its format (spec/30_encoding.md R80). -/

namespace Sys2Proof.Laws.Fits

/-- The code of `i` is a number of its format's width. -/
def Statement (i : Instr) : Prop := encode i < 2 ^ i.format.width

theorem rnBits_lt (a x c y : Bool) : rnBits a x c y < 16 := by
  revert a x c y
  decide

theorem nop : Statement .nop := by unfold Statement; decide
theorem startEnc : Statement .startEnc := by unfold Statement; decide
theorem startDec : Statement .startDec := by unfold Statement; decide
theorem cmdReserved : Statement .cmdReserved := by unfold Statement; decide

theorem fetchByte (v : Byte) : Statement (.fetchByte v) := by
  have h := v.isLt
  change v.toNat < 512
  omega

theorem fetchEof : Statement .fetchEof := by unfold Statement; decide

theorem symIllegal (v : Byte) : Statement (.symIllegal v) := by
  have h := v.isLt
  change 256 + v.toNat < 512
  omega

theorem rnE1b0 (x y : Bool) : Statement (.rnE1b0 x y) := rnBits_lt _ _ _ _
theorem rnE1b1 (x y : Bool) : Statement (.rnE1b1 x y) := rnBits_lt _ _ _ _
theorem rnE3 : Statement .rnE3 := by unfold Statement; decide
theorem rnTerm001 (y : Bool) : Statement (.rnTerm001 y) := rnBits_lt _ _ _ _
theorem rnTerm0111 : Statement .rnTerm0111 := by unfold Statement; decide
theorem rnUnreachable (x y : Bool) : Statement (.rnUnreachable x y) := rnBits_lt _ _ _ _
theorem phIdle : Statement .phIdle := by unfold Statement; decide
theorem phFetch : Statement .phFetch := by unfold Statement; decide
theorem phNarrow : Statement .phNarrow := by unfold Statement; decide
theorem phRenorm : Statement .phRenorm := by unfold Statement; decide
theorem phFinish : Statement .phFinish := by unfold Statement; decide
theorem phFill : Statement .phFill := by unfold Statement; decide
theorem phScale : Statement .phScale := by unfold Statement; decide
theorem phSearch : Statement .phSearch := by unfold Statement; decide
theorem phDone : Statement .phDone := by unfold Statement; decide
theorem phFault : Statement .phFault := by unfold Statement; decide

theorem phUnused (p : BitVec 3) : Statement (.phUnused p) := by
  have h := p.isLt
  change 8 + p.toNat < 16
  omega

theorem lookup (s : Symbol) : Statement (.lookup s) := Nat.one_pos
theorem putbit (b : Bool) : Statement (.putbit b) := Nat.one_pos
theorem padflush : Statement .padflush := Nat.one_pos
theorem getbit : Statement .getbit := Nat.one_pos
theorem emit (b : Bool) : Statement (.emit b) := Nat.one_pos
theorem defer : Statement .defer := Nat.one_pos
theorem consumeShift : Statement .consumeShift := Nat.one_pos
theorem consumeSplice : Statement .consumeSplice := Nat.one_pos

end Sys2Proof.Laws.Fits
end

