-- ==== Sys2Proof/Tests/Slice0.lean ====
section
/-! SUPPORT. The model's own tests: ill-formed terms are refused, codes written out bit by bit from spec/30_encoding.md
decode, one step per operation gives what spec/95_test_vectors.md prints (section numbers in the comments), and every
obligation with hypotheses has states and operands that meet them, at the ends of each clause's range. -/

namespace Sys2Proof.Tests

open Sys2Proof Sys2Proof.Machine

-- One check after the other: side by side they ask for more threads than the sandbox gives.
set_option Elab.async false

/-! ## Helpers -/

/-- A view of the state an operation leads to. -/
def after {α : Type} (i : Instr) (s : State) (f : State → α) : Option α := (nextState? (exec i s)).map f

/-- The state an operation leads to. -/
def result (i : Instr) (s : State) : State := (nextState? (exec i s)).getD s

/-- The state a move leads to. -/
def moved (s : State) : State := (nextState? (step s)).getD s

theorem next_of_isSome {o : Out} {s : State} (h : (nextState? o).isSome = true) : o = .next ((nextState? o).getD s) := by
  cases o with
  | next t => rfl
  | fault f => cases f
  | refused r => simp [nextState?] at h

theorem exec_result {i : Instr} {s : State} (h : (nextState? (exec i s)).isSome = true) : exec i s = .next (result i s) :=
  next_of_isSome h

theorem step_moved {s : State} (h : (nextState? (step s)).isSome = true) : step s = .next (moved s) := next_of_isSome h

/-- The default table with another total. -/
def tableWithTotal (n : Nat) : Table := cfLetters52.set 257 (BitVec.ofNat 32 n)

/-- The largest safe total, and the least that is refused (40 R113). -/
def largestTable : Table := tableWithTotal (2 ^ 30 + 2)

def refusedTable : Table := tableWithTotal (2 ^ 30 + 3)

def idleWith (c : CmdCode) : State := { State.reset with cmd := [c] }

def doneWith (c : CmdCode) : State := { State.reset with phase := .done, cmd := [c] }

def withTable (t : Table) (s : State) : State := { s with cfg := { s.cfg with cf := t } }

def withUfcBits (n : Nat) (s : State) : State := { s with cfg := { s.cfg with ufcBits := n } }

/-- An encode session in FETCH, with the full interval. -/
def fetchWith (l : List SymCode) : State := { State.reset with phase := .fetch, upper := 0xFFFFFFFF, symIn := l }

/-- NARROW of the range `low`, `high` from the interval `l`, `u`. -/
def narrowAt (l u low high : Word) : State := { State.reset with phase := .narrow, lower := l, upper := u, low := low, high := high }

/-- An encoder in RENORM. -/
def renormEnc (l u : Word) : State := { State.reset with phase := .renorm, lower := l, upper := u }

/-- A decoder in RENORM with the bit 1 to come. -/
def renormDec (l u w : Word) : State :=
  { State.reset with
    phase := .renorm, mode := .dec, lower := l, upper := u, window := w, icnt := 1, ibuf := 1, havelast := true }

/-- A decoder in RENORM that has read a bit and has none left. -/
def renormDecDry (l u w : Word) (e h : Bool) : State :=
  { State.reset with
    phase := .renorm, mode := .dec, lower := l, upper := u, window := w, codeInEnd := e, havelast := h, lastbit := h }

def packer (acc : Byte) (n : BitVec 3) : State := { State.reset with phase := .renorm, acc := acc, nbits := n }

/-- A decoder in FILL at the start of the stream `c`. -/
def fillWith (c : List Byte) (e : Bool) : State :=
  { State.reset with phase := .fill, mode := .dec, upper := 0xFFFFFFFF, codeIn := c, codeInEnd := e }

def scaleAt (l u w : Word) : State :=
  { State.reset with phase := .scale, mode := .dec, lower := l, upper := u, window := w, havelast := true }

def searchAt (x : Word) : State := { State.reset with phase := .search, mode := .dec, scaled := x }

/-! ## The tables (40 R113, R115, R116) -/

theorem test_safe_default : CFSafe State.reset.cfg.cf :=
  ⟨cfValid_of_isChain (by decide +kernel) (by decide +kernel), by decide +kernel⟩

theorem test_safe_range58 : CFSafe cfRange58 :=
  ⟨cfValid_of_isChain (by decide +kernel) (by decide +kernel), by decide +kernel⟩

theorem test_safe_largest : CFSafe largestTable :=
  ⟨cfValid_of_isChain (by decide +kernel) (by decide +kernel), by decide +kernel⟩

theorem test_valid_refused : CFValid refusedTable := cfValid_of_isChain (by decide +kernel) (by decide +kernel)

theorem test_refused : ¬ CFSafe refusedTable := fun h => absurd h.2 (by decide +kernel)

/-! ## Well-formedness: a term for each check (30 R83, R86) -/

theorem test_ill_formed_symbol : (Instr.symIllegal 0).wellFormed = false := by decide
theorem test_ill_formed_phase_low : (Instr.phUnused 0).wellFormed = false := by decide
theorem test_ill_formed_phase_high : (Instr.phUnused 7).wellFormed = false := by decide
theorem test_well_formed_ends :
    (Instr.symIllegal 1).wellFormed ∧ (Instr.phUnused 1).wellFormed ∧ (Instr.phUnused 6).wellFormed := by decide

/-! ## Decoding: codes written out from 30 R81 to R86 -/

theorem test_decode_cmd :
    decode .cmd 0b00 = .ok .nop ∧ decode .cmd 0b01 = .ok .startEnc ∧ decode .cmd 0b10 = .ok .startDec ∧
      decode .cmd 0b11 = .ok .cmdReserved ∧ decode .cmd 0b100 = .error .tooWide := by decide

theorem test_decode_sym :
    decode .sym 0b000000000 = .ok (.fetchByte 0) ∧ decode .sym 0b001000001 = .ok (.fetchByte 0x41) ∧
      decode .sym 0b011111111 = .ok (.fetchByte 0xFF) ∧ decode .sym 0b100000000 = .ok .fetchEof ∧
      decode .sym 0b100000001 = .ok (.symIllegal 1) ∧ decode .sym 0b111111111 = .ok (.symIllegal 0xFF) ∧
      decode .sym 0b1000000000 = .error .tooWide := by decide

/-- 2.3, all sixteen patterns. -/
theorem test_decode_rn :
    decode .rn 0b0000 = .ok (.rnE1b0 false false) ∧ decode .rn 0b0001 = .ok (.rnE1b0 false true) ∧
      decode .rn 0b0010 = .ok (.rnTerm001 false) ∧ decode .rn 0b0011 = .ok (.rnTerm001 true) ∧
      decode .rn 0b0100 = .ok (.rnE1b0 true false) ∧ decode .rn 0b0101 = .ok (.rnE1b0 true true) ∧
      decode .rn 0b0110 = .ok .rnE3 ∧ decode .rn 0b0111 = .ok .rnTerm0111 ∧
      decode .rn 0b1000 = .ok (.rnUnreachable false false) ∧ decode .rn 0b1001 = .ok (.rnUnreachable false true) ∧
      decode .rn 0b1010 = .ok (.rnE1b1 false false) ∧ decode .rn 0b1011 = .ok (.rnE1b1 false true) ∧
      decode .rn 0b1100 = .ok (.rnUnreachable true false) ∧ decode .rn 0b1101 = .ok (.rnUnreachable true true) ∧
      decode .rn 0b1110 = .ok (.rnE1b1 true false) ∧ decode .rn 0b1111 = .ok (.rnE1b1 true true) := by decide

theorem test_decode_ph :
    decode .ph 0b0000 = .ok .phIdle ∧ decode .ph 0b0001 = .ok .phFetch ∧ decode .ph 0b0010 = .ok .phNarrow ∧
      decode .ph 0b0011 = .ok .phRenorm ∧ decode .ph 0b0100 = .ok .phFinish ∧ decode .ph 0b0101 = .ok .phFill ∧
      decode .ph 0b0110 = .ok .phScale ∧ decode .ph 0b0111 = .ok .phSearch ∧ decode .ph 0b1000 = .ok .phDone ∧
      decode .ph 0b1001 = .ok (.phUnused 1) ∧ decode .ph 0b1110 = .ok (.phUnused 6) ∧
      decode .ph 0b1111 = .ok .phFault := by decide

/-- No code selects the operations of PRIM (30 R80). -/
theorem test_decode_prim : decode .prim 0 = .error .noCode := by decide

theorem test_decode_table_word :
    decodeTableWord 2 0b01 = some .startEnc ∧ decodeTableWord 9 0b100000000 = some .fetchEof ∧
      decodeTableWord 16 0b100000000 = some .fetchEof ∧ decodeTableWord 8 0b0111 = some .phSearch ∧
      decodeTableWord 0 0 = none ∧ decodeTableWord 2 0b100 = none := by decide

/-- What `withFetchWord` places is what the first step after reset runs: a reserved command, an illegal
symbol, FINISH. -/
theorem test_with_fetch_word :
    (nextState? (step (State.reset.withFetchWord 2 0b11))).map (·.fcode) = some .illcmd ∧
      (nextState? (step (State.reset.withFetchWord 16 0b100000001))).map (·.fcode) = some .illsym ∧
      (nextState? (step (State.reset.withFetchWord 8 0b0100))).map (·.phase) = some .done := by decide +kernel

/-! ## Commands (95 2.11) -/

theorem test_nop : after .nop (idleWith 0) (fun t => (t.phase, t.fcode, t.cmd)) = some (.idle, .none, []) := by decide +kernel

theorem test_start_enc :
    after .startEnc { idleWith 1 with ufc := 9, acc := 5, nbits := 3, lower := 7 } (fun t =>
      (t.status, (t.lower, t.upper, t.ufc), t.acc, t.nbits)) =
      some (0x01, (0, 0xFFFFFFFF, 0), 0, 0) := by
  rw [after, exec, execStartEnc, if_pos (show CFSafe (State.cfg { idleWith 1 with .. }).cf from test_safe_default)]
  decide +kernel

theorem test_start_enc_refused_table :
    after .startEnc (withTable refusedTable (idleWith 1)) (fun t => (t.phase, t.fcode, t.upper, t.cmd)) =
      some (.fault, .config, 0, []) := by
  rw [after, exec, execStartEnc, if_neg (show ¬ CFSafe (withTable refusedTable (idleWith 1)).cfg.cf from test_refused)]
  decide +kernel

theorem test_start_dec :
    after .startDec { doneWith 2 with window := 5, fillcnt := 32, icnt := 3, havelast := true } (fun t =>
      (t.status, (t.lower, t.upper, t.window), (t.fillcnt, t.icnt, t.havelast))) =
      some (0x15, (0, 0xFFFFFFFF, 0), (0, 0, false)) := by
  rw [after, exec, execStartDec, if_pos (show CFSafe (State.cfg { doneWith 2 with .. }).cf from test_safe_default)]
  decide +kernel

theorem test_cmd_reserved :
    after .cmdReserved (idleWith 3) (fun t => (t.status, t.cmd)) = some (0b11001111, []) := by decide +kernel

theorem test_idle_held : after .phIdle State.reset id = some State.reset := rfl

theorem test_done_runs_start_dec : after .phDone (doneWith 2) (·.phase) = some .fill := by
  have h : exec .phDone (doneWith 2) = execStartDec (doneWith 2) := rfl
  rw [after, h, execStartDec, if_pos (show CFSafe (doneWith 2).cfg.cf from test_safe_default)]
  decide +kernel

theorem test_consume_has_next (s : State) : (nextState? (exec .phIdle s)).isSome = true := by
  simp only [exec, execPhIdle, consumeCommand]
  split
  · rfl
  · split
    · rfl
    · simp only [execStartEnc]; split <;> rfl
    · simp only [execStartDec]; split <;> rfl
    · rfl

/-! ## LOOKUP and FETCH (95 2.1, 2.6) -/

theorem test_lookup_letters52 :
    lookup cfLetters52 0 = (0, 1) ∧ lookup cfLetters52 0x41 = (65, 69) ∧ lookup cfLetters52 0x5B = (127, 128) ∧
      lookup cfLetters52 0x60 = (132, 133) ∧ lookup cfLetters52 0x7A = (193, 195) ∧
      lookup cfLetters52 0xFF = (327, 328) ∧ lookup cfLetters52 256 = (328, 329) := by decide +kernel

theorem test_lookup_range58 :
    lookup cfRange58 0x5A = (125, 127) ∧ lookup cfRange58 0x5B = (127, 129) ∧ lookup cfRange58 0x60 = (137, 139) ∧
      lookup cfRange58 0x61 = (139, 143) ∧ lookup cfRange58 0xFF = (333, 334) ∧
      lookup cfRange58 256 = (334, 335) := by decide +kernel

theorem test_lookup_writes_nothing : after (.lookup 0x41) State.reset id = some State.reset := rfl

theorem test_fetch_byte :
    after (.fetchByte 0x41) (fetchWith [0x041, 0x100]) (fun t => (t.sym, t.low, t.high, t.phase, t.symIn)) =
      some (0x041, 65, 69, .narrow, [0x100]) := by decide +kernel

theorem test_fetch_eof :
    after .fetchEof (fetchWith [0x100]) (fun t => (t.sym, t.low, t.high, t.phase, t.symIn)) =
      some (0x100, 328, 329, .narrow, []) := by decide +kernel

theorem test_sym_illegal :
    after (.symIllegal 1) (fetchWith [0x101]) (fun t => (t.status, t.sym, t.symIn)) = some (0x4F, 0, []) := by
  decide +kernel

theorem test_fetch_reads_oldest :
    after .phFetch (fetchWith [0x0FF, 0x100]) (fun t => (t.sym, t.low, t.high, t.symIn)) =
      some (0x0FF, 327, 328, [0x100]) := by decide +kernel

theorem test_fetch_held : after .phFetch (fetchWith []) id = some (fetchWith []) := rfl

/-! ## NARROW (95 2.2) -/

theorem test_narrow_rows :
    after .phNarrow (narrowAt 0 0xFFFFFFFF 0 1) (fun t => (t.lower, t.upper)) = some (0, 0x00C73292) ∧
      after .phNarrow (narrowAt 0 0xFFFFFFFF 65 69) (fun t => (t.lower, t.upper)) = some (0x3293D789, 0x35B0A1D8) ∧
      after .phNarrow (narrowAt 0x24F5E240 0xEC28763F 328 329) (fun t => (t.lower, t.upper)) =
        some (0xEB8D7694, 0xEC28763F) ∧
      after .phNarrow (narrowAt 0x3FFFFFFF 0x80000000 328 329) (fun t => (t.lower, t.upper)) =
        some (0x7FCE335C, 0x80000000) ∧
      after .phNarrow (narrowAt 5 5 0 329) (fun t => (t.lower, t.upper)) = some (5, 5) := by decide +kernel

theorem test_narrow_other_totals :
    after .phNarrow (withTable cfRange58 (narrowAt 0 0xFFFFFFFF 65 69)) (fun t => (t.lower, t.upper)) =
        some (0x31ABF0B7, 0x34BA75AD) ∧
      after .phNarrow (withTable largestTable (narrowAt 0x3FFFFFFF 0x80000000 1073741825 1073741826)) (fun t =>
        (t.lower, t.upper)) = some (0x80000000, 0x80000000) ∧
      after .phNarrow (withTable refusedTable (narrowAt 0x3FFFFFFF 0x80000000 0 1)) (fun t =>
        (t.lower, t.upper, t.fcode)) = some (0x3FFFFFFF, 0x80000000, .invariant) := by decide +kernel

/-! ## RENORM (95 2.3, 2.4) -/

theorem test_rn_e1_0 :
    after (.rnE1b0 false false) (renormEnc 0x3293D789 0x35B0A1D8) (fun t => (t.lower, t.upper, t.acc, t.nbits)) =
      some (0x6527AF12, 0x6B6143B1, 0, 1) ∧
      after (.rnE1b0 true false) (renormEnc 0x52345678 0x2ABCDEF0) (fun t => (t.lower, t.upper, t.fcode)) =
        some (0xA468ACF0, 0x5579BDE1, .none) := by decide +kernel

theorem test_rn_e1_1 :
    after (.rnE1b1 true true) (renormEnc 0xCA4F5E24 0xD6C28763) (fun t => (t.lower, t.upper, t.acc, t.nbits)) =
      some (0x949EBC48, 0xAD850EC7, 1, 1) := by decide +kernel

/-- The first RN_E1 and the RN_E3 of the decode half of P2. -/
theorem test_rn_decode :
    after (.rnE1b0 false false) (renormDec 0x3293D789 0x35B0A1D8 0x35AFFFFF) (fun t =>
        (t.lower, t.upper, t.window, t.icnt)) = some (0x6527AF12, 0x6B6143B1, 0x6B5FFFFF, 0) ∧
      after .rnE3 (renormDec 0x527AF120 0xB6143B1F 0xB5FFFFFF) (fun t => (t.lower, t.upper, t.window)) =
        some (0x24F5E240, 0xEC28763F, 0xEBFFFFFF) := by decide +kernel

theorem test_rn_e3 :
    after .rnE3 (renormEnc 0x7FFFFFFF 0x80000000) (fun t => (t.lower, t.upper, t.ufc, t.phase)) =
      some (0x7FFFFFFE, 0x80000001, 1, .renorm) ∧
      after .rnE3 (renormEnc 0x40000000 0xBFFFFFFF) (fun t => (t.lower, t.upper)) = some (0, 0xFFFFFFFF) := by
  decide +kernel

/-- Program P4: the fourth RN_E3 with a two-bit counter. -/
theorem test_rn_e3_overflow :
    after .rnE3 { withUfcBits 2 (renormEnc 0x76A9A110 0x831CCA47) with ufc := 3 } (fun t =>
      (t.lower, t.upper, t.ufc, t.fcode, t.phase)) = some (0x76A9A110, 0x831CCA47, 3, .ufcovf, .fault) := by
  decide +kernel

theorem test_rn_term_001 :
    after (.rnTerm001 false) { renormEnc 0x3FFFFFFF 0x80000000 with sym := 256 } (fun t => (t.lower, t.upper, t.phase)) =
      some (0x3FFFFFFF, 0x80000000, .finish) := by decide +kernel

theorem test_rn_term_0111 :
    after .rnTerm0111 { renormEnc 0x7FFFFFFF 0xC0000000 with sym := 0x41 } (fun t => (t.lower, t.phase)) =
      some (0x7FFFFFFF, .fetch) ∧
      after .rnTerm0111 (renormDec 0x7FFFFFFF 0xC0000000 0x80000000) (·.phase) = some .scale := by decide +kernel

theorem test_rn_unreachable :
    after (.rnUnreachable false false) (renormEnc 0x92345678 0x2ABCDEF0) (fun t => (t.fcode, t.phase, t.lower)) =
      some (.invariant, .fault, 0x92345678) := by decide +kernel

theorem test_renorm_selects_by_pattern :
    after .phRenorm (renormEnc 0x52345678 0xAABCDEF0) (fun t => (t.lower, t.upper)) = some (0x2468ACF0, 0xD579BDE1) ∧
      after .phRenorm (renormEnc 0xD2345678 0xAABCDEF0) (fun t => (t.lower, t.upper)) =
        some (0xA468ACF0, 0x5579BDE1) := by decide +kernel

/-! ## The packer and the counter (95 2.5, 2.7) -/

theorem test_putbit :
    after (.putbit true) (packer 0x2C 7) (fun t => (t.acc, t.nbits, t.codeOut)) = some (0, 0, [0xAC]) ∧
      after (.putbit false) (packer 0x01 1) (fun t => (t.acc, t.nbits, t.codeOut)) = some (0x01, 2, []) := by
  decide +kernel

theorem test_padflush :
    after .padflush (packer 0x15 5) (fun t => (t.acc, t.nbits, t.codeOut)) = some (0, 0, [0xF5]) ∧
      after .padflush (packer 0 0) (fun t => (t.acc, t.nbits, t.codeOut)) = some (0, 0, []) := by decide +kernel

theorem test_emit :
    after (.emit true) { packer 0 0 with ufc := 31 } (fun t => (t.ufc, t.codeOut)) = some (0, [0x01, 0, 0, 0]) ∧
      after (.emit false) { packer 0 0 with ufc := 3 } (fun t => (t.ufc, t.acc, t.nbits)) = some (0, 0b1110, 4) := by
  decide +kernel

theorem test_defer : after .defer { packer 0 0 with ufc := 30 } (fun t => (t.ufc, t.codeOut)) = some (31, []) := by
  decide +kernel

theorem test_defer_at_maximum :
    after .defer { packer 0 0 with ufc := 2 ^ 32 - 1 } (fun t => (t.ufc, t.fcode, t.phase)) =
      some (2 ^ 32 - 1, .ufcovf, .fault) := by decide +kernel

theorem test_finish :
    after .phFinish (packer 0x05 3) (fun t => (t.nbits, t.phase, t.codeOut)) = some (0, .done, [0xF5]) ∧
      after .phFinish (packer 0x55 7) (fun t => (t.acc, t.codeOut)) = some (0, [0x55, 0xFF]) ∧
      after .phFinish (packer 0x15 6) (·.codeOut) = some [0x95] := by decide +kernel

/-! ## The unpacker, FILL, SCALE, SEARCH (95 2.8 to 2.10) -/

theorem test_getbit :
    after .getbit (fillWith [0xAC, 0xF5] true) (fun t => (t.lastbit, t.ibuf, t.icnt, t.havelast, t.codeIn)) =
      some (false, 0x56, 7, true, [0xF5]) ∧
      after .getbit { fillWith [] true with havelast := true, lastbit := true } (fun t => (t.lastbit, t.fcode)) =
        some (true, .none) := by decide +kernel

theorem test_getbit_no_bits : after .getbit (fillWith [] true) (·.status) = some 0x9F := by decide +kernel

theorem test_consume_shift :
    after .consumeShift (renormDec 0 0 0x35AFFFFF) (·.window) = some 0x6B5FFFFF ∧
      after .consumeShift { renormDec 0 0 0x80000000 with ibuf := 0 } (·.window) = some 0 := by decide +kernel

theorem test_consume_splice :
    after .consumeSplice (renormDec 0 0 0x66666FAF) (·.window) = some 0x4CCCDF5F ∧
      after .consumeSplice { renormDec 0 0 0x40000000 with ibuf := 0 } (·.window) = some 0 := by decide +kernel

theorem test_fill :
    after .phFill { fillWith [] true with window := 0x7FBFFFFF, fillcnt := 31, havelast := true, lastbit := true } (fun t =>
      (t.window, t.fillcnt, t.phase)) = some (0xFF7FFFFF, 32, .scale) ∧
      after .phFill (fillWith [0xFF] true) (fun t => (t.window, t.fillcnt, t.phase)) = some (1, 1, .fill) := by
  decide +kernel

theorem test_fill_held :
    after .phFill { fillWith [] false with fillcnt := 8 } id = some { fillWith [] false with fillcnt := 8 } :=
  rfl

theorem test_scale :
    after .phScale (scaleAt 0 0xFFFFFFFF 0x3293D788) (fun t => (t.range, t.scaled)) = some (0x100000000, 64) ∧
      after .phScale (scaleAt 0 0xFFFFFFFF 0x3293D789) (fun t => (t.range, t.scaled)) = some (0x100000000, 65) ∧
      after .phScale (scaleAt 0x24F5E240 0xEC28763F 0xEBFFFFFF) (fun t => (t.range, t.scaled)) =
        some (0xC7329400, 328) ∧
      after .phScale (scaleAt 0x3FFFFFFF 0x80000000 0x80000000) (·.scaled) = some 328 := by decide +kernel

theorem test_scale_outside :
    after .phScale (scaleAt 5 9 4) (fun t => (t.fcode, t.phase, t.scaled)) = some (.invariant, .fault, 0) := by
  decide +kernel

theorem test_search :
    after .phSearch (searchAt 64) (fun t => (t.sym, t.low, t.high, t.byteOut)) = some (0x40, 64, 65, [0x40]) ∧
      after .phSearch (searchAt 68) (fun t => (t.sym, t.low, t.high, t.phase)) = some (0x41, 65, 69, .narrow) ∧
      after .phSearch (searchAt 69) (·.sym) = some 0x42 ∧ after .phSearch (searchAt 327) (·.sym) = some 0xFF ∧
      after .phSearch (withTable cfRange58 (searchAt 128)) (·.sym) = some 0x5B := by decide +kernel

theorem test_search_ends :
    after .phSearch (searchAt 328) (fun t => (t.sym, t.byteOut, t.phase)) = some (0x100, [], .done) ∧
      after .phSearch (searchAt 329) (·.fcode) = some .invariant := by decide +kernel

/-! ## FAULT, unused codes, and the host -/

theorem test_fault_does_nothing :
    after .phFault { idleWith 1 with phase := .fault, fcode := .ufcovf } (fun t => (t.phase, t.fcode, t.cmd)) =
      some (.fault, .ufcovf, [1]) := by decide +kernel

theorem test_unused_phase_refused : exec (.phUnused 1) State.reset = .refused .unusedPhaseCode := rfl

theorem test_host_reset :
    (nextState? (hostAct .reset { idleWith 1 with phase := .fault, fcode := .config, symIn := [5] })).map
      (fun t => (t.phase, t.fcode, t.cmd, t.symIn)) = some (.idle, .none, [], [5]) := by decide +kernel

theorem test_schedule_order :
    (moved { State.reset with schedule := [.host (.cmd 1), .core] }).cmd = [1] ∧
      (moved { idleWith 3 with schedule := [.core, .host .reset] }).phase = .fault := by decide +kernel

/-! ## The hypotheses of the obligations can be met

For each obligation with hypotheses, a state and operands that meet them; where an obligation has several clauses, one
for each, at the ends of its range. -/

theorem test_meets_StepRunsSelectedOperation :
    State.reset.schedule = [] ∧ State.reset.fcode = .none ∧
      ({ State.reset with schedule := [.core] } : State).schedule = .core :: [] ∧
      ({ State.reset with schedule := [.host .codeEnd] } : State).schedule = .host .codeEnd :: [] ∧
      ({ State.reset with fcode := .illcmd } : State).fcode ≠ .none := by decide +kernel

theorem test_meets_PhaseRunsDecodedCode :
    (idleWith 0b11).cmd = 0b11#2 :: [] ∧ (fetchWith [0x1FF]).symIn = 0x1FF#9 :: [] := by decide +kernel

theorem test_meets_PlacedCodeIsRunNext :
    decode .rn 0b1110 = .ok (.rnE1b1 true false) ∧ (∀ p, Instr.rnE1b1 true false ≠ .phUnused p) ∧
      decode .ph 15 = .ok .phFault ∧ (∀ p, Instr.phFault ≠ .phUnused p) := by decide +kernel

theorem test_meets_HeldExactlyWhenWaiting :
    (fillWith [] false).fcode = .none ∧ (fillWith [] false).phase ≠ .fault ∧ (fillWith [] false).icnt = 0 ∧
      (renormDecDry 0x40000000 0x80000000 0x40000000 false true).fcode = .none ∧
      Straddles 0x40000000 0x80000000 := by decide +kernel

theorem inv_intro {s : State}
    (h : (s.fcode = .none ↔ s.phase ≠ .fault) ∧ s.fcode ≠ .invariant ∧ s.ufc < 2 ^ s.cfg.ufcBits)
    (ht : s.cfg.cf = State.reset.cfg.cf) (hs : SessionInv s) : MachineInv s :=
  ⟨h.1, h.2.1, h.2.2, fun _ => by rw [ht]; exact test_safe_default, hs⟩

/-- The invariant in each phase: what `PhaseGraph`, `EveryMoveKeepsInvariant` and the third clause of
`StatusShowsPhaseModeAndFault` suppose. -/
theorem test_inv_idle : MachineInv (idleWith 1) := inv_intro (by decide +kernel) rfl trivial

theorem test_inv_done : MachineInv (doneWith 2) := inv_intro (by decide +kernel) rfl trivial

theorem test_inv_fault : MachineInv { State.reset with phase := .fault, fcode := .illcmd } :=
  inv_intro (by decide +kernel) rfl trivial

theorem test_inv_idle_refused_table : MachineInv (withTable refusedTable (idleWith 1)) := by
  refine ⟨by decide +kernel, by decide +kernel, by decide +kernel, ?_, trivial⟩
  intro h
  exact absurd h (by decide +kernel)

theorem test_inv_fetch : MachineInv (fetchWith [0x41]) :=
  inv_intro (by decide +kernel) rfl ⟨⟨rfl, by decide +kernel⟩, by decide +kernel⟩

theorem test_inv_narrow_enc : MachineInv { narrowAt 0x3FFFFFFF 0x80000000 328 329 with sym := 256 } :=
  inv_intro (by decide +kernel) rfl ⟨by decide +kernel, eofSymbol,
    ⟨by decide +kernel, by decide +kernel, by decide +kernel⟩, .inl ⟨rfl, by decide +kernel⟩⟩

theorem test_inv_narrow_dec :
    MachineInv { narrowAt 0 0xFFFFFFFF 65 69 with mode := .dec, sym := 0x41, window := 0x3293D789, havelast := true } :=
  inv_intro (by decide +kernel) rfl ⟨by decide +kernel, 0x41,
    ⟨by decide +kernel, by decide +kernel, by decide +kernel⟩,
    .inr ⟨⟨rfl, by decide +kernel, rfl, by decide +kernel⟩, by decide +kernel, by decide +kernel, by decide +kernel⟩⟩

theorem test_inv_renorm_enc : MachineInv (renormEnc 5 5) :=
  inv_intro (by decide +kernel) rfl ⟨by decide +kernel, .inl ⟨⟨rfl, by decide +kernel⟩, by decide +kernel⟩⟩

theorem test_inv_renorm_eof : MachineInv { renormEnc 0 0xFFFFFFFF with sym := 256 } :=
  inv_intro (by decide +kernel) rfl ⟨by decide +kernel, .inl ⟨⟨rfl, by decide +kernel⟩, by decide +kernel⟩⟩

theorem test_inv_renorm_full_counter : MachineInv { renormEnc 0x7FFFFFFF 0x80000000 with ufc := 2 ^ 32 - 1 } :=
  inv_intro (by decide +kernel) rfl ⟨by decide +kernel, .inl ⟨⟨rfl, by decide +kernel⟩, by decide +kernel⟩⟩

theorem test_inv_renorm_dec : MachineInv (renormDec 5 5 5) :=
  inv_intro (by decide +kernel) rfl ⟨by decide +kernel, .inr ⟨rfl, by decide +kernel, rfl, by decide +kernel⟩⟩

theorem test_inv_finish : MachineInv { renormEnc 0 0xFFFFFFFF with phase := .finish, sym := 256 } :=
  inv_intro (by decide +kernel) rfl ⟨⟨rfl, by decide +kernel⟩, by decide +kernel, rfl⟩

theorem test_inv_fill : MachineInv (fillWith [0xAC] false) :=
  inv_intro (by decide +kernel) rfl ⟨rfl, by decide +kernel, rfl, rfl, by decide +kernel, by decide +kernel⟩

theorem test_inv_fill_last : MachineInv { fillWith [] true with fillcnt := 31, havelast := true } :=
  inv_intro (by decide +kernel) rfl ⟨rfl, by decide +kernel, rfl, rfl, by decide +kernel, by decide +kernel⟩

theorem test_inv_scale : MachineInv (scaleAt 0x3FFFFFFF 0x80000000 0x80000000) :=
  inv_intro (by decide +kernel) rfl ⟨⟨rfl, by decide +kernel, rfl, by decide +kernel⟩, by decide +kernel⟩

theorem test_inv_search_first : MachineInv { scaleAt 0 0xFFFFFFFF 0 with phase := .search, scaled := 0 } :=
  inv_intro (by decide +kernel) rfl ⟨⟨rfl, by decide +kernel, rfl, by decide +kernel⟩, by decide +kernel, by decide +kernel⟩

theorem test_inv_search_last :
    MachineInv { scaleAt 0 0xFFFFFFFF 0xFFFFFFFF with phase := .search, scaled := 328 } :=
  inv_intro (by decide +kernel) rfl ⟨⟨rfl, by decide +kernel, rfl, by decide +kernel⟩, by decide +kernel, by decide +kernel⟩

/-- Each of the states above has a next state, so every row of `PhaseGraph` has a case; for the rows of START see
`test_consume_has_next`. -/
theorem test_meets_PhaseGraph :
    (∀ s ∈ [State.reset, idleWith 0, doneWith 3, fetchWith [], fetchWith [0x100], fetchWith [0x101]],
        (nextState? (exec (currentInstr s) s)).isSome = true) ∧
      (∀ s ∈ [narrowAt 0 0xFFFFFFFF 65 69, renormEnc 5 5, renormEnc 0x7FFFFFFF 0x80000000,
        { renormEnc 0x7FFFFFFF 0x80000000 with ufc := 2 ^ 32 - 1 }, { renormEnc 0 0xFFFFFFFF with sym := 256 },
        renormDec 0 0xFFFFFFFF 0, { renormEnc 0 0xFFFFFFFF with phase := .finish, sym := 256 }],
        (nextState? (exec (currentInstr s) s)).isSome = true) ∧
      (∀ s ∈ [fillWith [] false, fillWith [] true, fillWith [1] false,
        { fillWith [] true with fillcnt := 31, havelast := true }, scaleAt 0 0xFFFFFFFF 0, searchAt 0, searchAt 328],
        (nextState? (exec (currentInstr s) s)).isSome = true) := by decide +kernel

/-- A state in IDLE with a command, and a byte on each output. -/
def idleWithOutputs : State := { idleWith 1 with codeOut := [7], byteOut := [9] }

theorem test_meets_HostMovesCommuteWithSteps :
    (idleWith 1).held = false ∧ exec (currentInstr (idleWith 1)) (idleWith 1) = .next (result .phIdle (idleWith 1)) ∧
      (nextState? (hostAct (.code 7) (idleWith 1))).isSome = true ∧
      (nextState? (hostAct .codeEnd (idleWith 1))).isSome = true ∧
      idleWithOutputs.codeOut ≠ [] ∧ idleWithOutputs.byteOut ≠ [] ∧
      exec (currentInstr idleWithOutputs) idleWithOutputs = .next (result .phIdle idleWithOutputs) ∧
      ∀ a ∈ [HostAction.popCodeOut, .popByteOut, .readStatus], (nextState? (hostAct a idleWithOutputs)).isSome = true :=
  ⟨by decide +kernel, exec_result (test_consume_has_next _), by decide +kernel, by decide +kernel, by decide +kernel,
    by decide +kernel, exec_result (test_consume_has_next _), by decide +kernel⟩

/-- The core moves before, between and after a command `11`, a read of `STATUS` and a pop. -/
def interleaved : State :=
  { State.reset with
    codeOut := [7, 8]
    schedule := [.core, .host (.cmd 0b11), .host .readStatus, .core, .host .popCodeOut, .core] }

/-- Where `interleaved` comes to rest when it is fed whole: in FAULT. -/
def interleavedRest : State := { State.reset with codeOut := [7, 8], fcode := .illcmd, phase := .fault }

theorem test_meets_HostMovesCommuteWithSteps_run :
    HostFeedsAndDrains interleaved ∧ Host.Core.run Sys2Proof.core 1 (fedWhole interleaved) = .next interleavedRest ∧
      exec (currentInstr interleavedRest) interleavedRest = .next interleavedRest ∧
      HostFeedsAndDrains { interleaved with schedule := [.host (.code 1), .host .codeEnd, .core] } ∧
      HostFeedsAndDrains { interleaved with codeInEnd := true, schedule := [.host .codeEnd, .host (.sym 511)] } ∧
      ¬ HostFeedsAndDrains { interleaved with codeInEnd := true, schedule := [.host (.code 1)] } ∧
      ¬ HostFeedsAndDrains { interleaved with schedule := [.host .codeEnd, .core, .host (.code 1)] } :=
  ⟨by decide +kernel, rfl, rfl, by decide +kernel, by decide +kernel, by decide +kernel, by decide +kernel⟩

/-- The byte popped on the way, with the byte still queued, in order (00 R11). -/
theorem test_interleaved_drain : codeDrained 7 interleaved = [7] ∧ codeDrained 4 interleaved = [] := by decide +kernel

theorem test_meets_NopAndReservedCommand :
    (idleWith 0b00).cmd = 0b00#2 :: [] ∧ (doneWith 0b11).cmd = 0b11#2 :: [] := by decide +kernel

theorem test_meets_StartEncBeginsSession :
    (idleWith 0b01).cmd = 0b01#2 :: [] ∧ CFSafe (withTable largestTable (idleWith 1)).cfg.cf ∧
      ¬ CFSafe (withTable refusedTable (idleWith 1)).cfg.cf := ⟨rfl, test_safe_largest, test_refused⟩

theorem test_meets_StartDecBeginsSession :
    (doneWith 0b10).cmd = 0b10#2 :: [] ∧ CFSafe (doneWith 2).cfg.cf ∧
      ¬ CFSafe (withTable refusedTable (doneWith 2)).cfg.cf := ⟨rfl, test_safe_default, test_refused⟩

theorem test_meets_CommandsConsumedOnlyInIdleAndDone :
    (idleWith 0).fcode = .none ∧ exec (currentInstr (idleWith 0)) (idleWith 0) = .next (result .phIdle (idleWith 0)) ∧
      (fetchWith [0]).phase ≠ .idle ∧ (fetchWith [0]).phase ≠ .done ∧
      exec (currentInstr (fetchWith [0])) (fetchWith [0]) = .next (result .phFetch (fetchWith [0])) :=
  ⟨by decide +kernel, exec_result (i := .phIdle) (by decide +kernel), by decide +kernel, by decide +kernel,
    exec_result (i := .phFetch) (by decide +kernel)⟩

theorem test_meets_valid_table :
    CFValid cfLetters52 ∧ CFValid cfRange58 ∧ CFValid largestTable ∧ CFValid refusedTable :=
  ⟨test_safe_default.1, test_safe_range58.1, test_safe_largest.1, test_valid_refused⟩

theorem test_meets_FetchLatchesSymbol :
    (fetchWith []).symIn = [] ∧ (fetchWith [0]).symIn = BitVec.ofNat 9 (0 : Symbol).val :: [] ∧
      (fetchWith [256]).symIn = BitVec.ofNat 9 eofSymbol.val :: [] ∧ (fetchWith [257]).symIn = 257#9 :: [] ∧
      256 < (257#9).toNat ∧ 256 < (511#9).toNat := by decide +kernel

theorem test_meets_NarrowStoresExactQuotients :
    (∀ s ∈ [withTable largestTable (narrowAt 0x3FFFFFFF 0x80000000 0 1), narrowAt 0 0xFFFFFFFF 0 329,
        narrowAt 5 5 0 1], s.lower ≤ s.upper ∧ s.low < s.high ∧ s.high ≤ total s.cfg.cf) ∧
      (total largestTable).toNat ≤ 0x80000000 - 0x3FFFFFFF + 1 ∧
      (5 - 5 + 1) * 0 / (total cfLetters52).toNat = (5 - 5 + 1) * 1 / (total cfLetters52).toNat := by decide +kernel

theorem test_meets_NarrowedWidthFollowsWeight :
    exec .phNarrow (narrowAt 0 0xFFFFFFFF 65 69) = .next (result .phNarrow (narrowAt 0 0xFFFFFFFF 65 69)) ∧
      (result .phNarrow (narrowAt 0 0xFFFFFFFF 65 69)).phase = .renorm :=
  ⟨exec_result (by decide +kernel), by decide +kernel⟩

theorem test_meets_SubIntervalsPartitionInterval :
    CFValid cfLetters52 ∧ (5 : Word) ≤ 5 ∧ (0x3FFFFFFF : Word) ≤ 0x80000000 ∧ ¬ (5 : Word) ≤ 4 ∧
      ¬ (0x80000001 : Word) ≤ 0x80000000 :=
  ⟨test_safe_default.1, by decide, by decide, by decide, by decide⟩

theorem test_meets_patterns :
    Determinate false 0 0x7FFFFFFF ∧ Determinate true 0x80000000 0xFFFFFFFF ∧ Straddles 0x7FFFFFFF 0x80000000 ∧
      Straddles 0x40000000 0xBFFFFFFF ∧ Terminal 0x3FFFFFFF 0x80000000 ∧ Terminal 0x7FFFFFFF 0xC0000000 ∧
      Terminal 0 0xFFFFFFFF := by decide +kernel

theorem test_bit_ready :
    BitReady (renormDec 5 5 5) ∧ BitReady (fillWith [0xAC] false) ∧ BitReady (renormDecDry 5 5 5 true true) ∧
      ¬ BitReady (fillWith [] true) ∧ ¬ BitReady (fillWith [] false) := by decide +kernel

theorem test_meets_DeterminateBitStep :
    Determinate false (renormEnc 5 5).lower (renormEnc 5 5).upper ∧ (renormEnc 5 5).mode = .enc ∧
      Determinate true (renormDec 0x80000000 0xFFFFFFFF 0x80000000).lower (renormDec 0x80000000 0xFFFFFFFF 0x80000000).upper ∧
      (renormDec 0x80000000 0xFFFFFFFF 0x80000000).mode = .dec ∧
      BitReady (renormDec 0x80000000 0xFFFFFFFF 0x80000000) ∧
      (renormDecDry 5 5 5 true false).icnt = 0 ∧ (renormDecDry 5 5 5 true false).codeIn = [] ∧
      (renormDecDry 5 5 5 true false).codeInEnd = true ∧ (renormDecDry 5 5 5 true false).havelast = false ∧
      (renormDecDry 5 5 5 false true).codeInEnd = false := by decide +kernel

theorem test_meets_UnderflowStep :
    Straddles (renormEnc 0x7FFFFFFF 0x80000000).lower (renormEnc 0x7FFFFFFF 0x80000000).upper ∧
      ({ renormEnc 0x7FFFFFFF 0x80000000 with ufc := 2 ^ 32 - 2 } : State).ufc + 1 <
        2 ^ (renormEnc 0x7FFFFFFF 0x80000000).cfg.ufcBits ∧
      ({ renormEnc 0x7FFFFFFF 0x80000000 with ufc := 2 ^ 32 - 1 } : State).ufc =
        2 ^ (renormEnc 0x7FFFFFFF 0x80000000).cfg.ufcBits - 1 ∧
      BitReady (renormDec 0x40000000 0xBFFFFFFF 0xBFFFFFFF) ∧
      WindowInside (renormDec 0x40000000 0xBFFFFFFF 0xBFFFFFFF) ∧
      WindowInside (renormDec 0x40000000 0xBFFFFFFF 0x40000000) ∧
      (renormDecDry 0x40000000 0xBFFFFFFF 0x40000000 true false).havelast = false ∧
      (renormDecDry 0x40000000 0xBFFFFFFF 0x40000000 false false).codeInEnd = false := by decide +kernel

theorem test_meets_TerminalStepLeavesLoop :
    Terminal (renormEnc 0x3FFFFFFF 0x80000000).lower (renormEnc 0x3FFFFFFF 0x80000000).upper := by decide +kernel

theorem test_meets_UnreachablePatternFaults :
    (renormEnc 0x80000000 0x7FFFFFFF).lower.getLsbD 31 = true ∧
      (renormEnc 0x80000000 0x7FFFFFFF).upper.getLsbD 31 = false := by decide +kernel

theorem test_meets_LoopStepDoublesRange :
    ∀ s ∈ [renormEnc 5 5, renormEnc 0x40000000 0xBFFFFFFF, renormDec 5 5 5],
      s.phase = .renorm ∧ s.lower ≤ s.upper ∧ (nextState? (exec .phRenorm s)).isSome = true ∧
        (result .phRenorm s).phase = .renorm ∧ result .phRenorm s ≠ s := by decide +kernel

theorem test_meets_LoopEndsWithinThirtyTwoPasses :
    ({ Encoder.start with l := 5, u := 5 } : Encoder).l ≤ ({ Encoder.start with l := 5, u := 5 } : Encoder).u ∧
      2 ^ 31 < (0xC0000000 : Word).toNat - (0x40000000 : Word).toNat + 1 ∧
      (renormEnc 5 5).phase = .renorm ∧ (renormEnc 5 5).lower ≤ (renormEnc 5 5).upper ∧
      (renormEnc 5 5).mode = .enc ∧ 2 ^ 32 - 33 + 32 < 2 ^ (renormEnc 5 5).cfg.ufcBits ∧
      (renormDecDry 5 5 5 true true).phase = .renorm ∧ (renormDecDry 5 5 5 true true).mode = .dec ∧
      (renormDecDry 5 5 5 true true).icnt.toNat ≤ 8 ∧ (renormDecDry 5 5 5 true true).codeInEnd = true ∧
      (renormDecDry 5 5 5 true true).havelast = true := by decide +kernel +kernel

theorem test_meets_FixedPointIsWide :
    ∀ s ∈ [renormEnc 0x3FFFFFFF 0x80000000, { renormEnc 0x7FFFFFFF 0xC0000000 with sym := 256 },
      renormDec 0x3FFFFFFF 0x80000000 0x80000000],
      s.phase = .renorm ∧ s.lower ≤ s.upper ∧ (nextState? (exec .phRenorm s)).isSome = true ∧
        ((result .phRenorm s).phase = .fetch ∨ (result .phRenorm s).phase = .finish ∨
          (result .phRenorm s).phase = .scale) := by decide +kernel

theorem test_meets_EncoderAndDecoderMirror :
    (renormEnc 5 5).mode = .enc ∧ (renormDec 5 5 5).mode = .dec ∧ (renormEnc 5 5).lower = (renormDec 5 5 5).lower ∧
      (renormEnc 5 5).upper = (renormDec 5 5 5).upper ∧ (renormEnc 5 5).low = (renormDec 5 5 5).low ∧
      (renormEnc 5 5).high = (renormDec 5 5 5).high ∧ (renormEnc 5 5).cfg = (renormDec 5 5 5).cfg ∧
      (renormEnc 5 5).ufc + 1 < 2 ^ (renormEnc 5 5).cfg.ufcBits ∧ BitReady (renormDec 5 5 5) :=
  ⟨rfl, rfl, rfl, rfl, rfl, rfl, rfl, by decide +kernel, by decide +kernel⟩

theorem test_meets_PutbitPacksLeastSignificantFirst :
    (packer 0 0).nbits.toNat < 7 ∧ (packer 0x15 6).nbits.toNat < 7 ∧ (packer 0x55 7).nbits.toNat = 7 ∧
      PackerClean (packer 0x55 7) ∧ PackerClean (packer 0 0) := by decide +kernel

theorem test_meets_PadflushCompletesByte : (packer 0 0).nbits = 0 ∧ (packer 0 7).nbits ≠ 0 := by decide +kernel

theorem test_meets_PutBitsAppearAsPackedBytes : ({ packer 0 0 with codeOut := [1] } : State).nbits = 0 := by decide +kernel

theorem test_meets_DeferCountsOrFaults :
    ({ withUfcBits 1 (packer 0 0) with ufc := 0 } : State).ufc + 1 < 2 ^ (withUfcBits 1 (packer 0 0)).cfg.ufcBits ∧
      ({ withUfcBits 1 (packer 0 0) with ufc := 1 } : State).ufc = 2 ^ (withUfcBits 1 (packer 0 0)).cfg.ufcBits - 1 := by
  decide +kernel

theorem test_meets_GetbitTakesNextStreamBit :
    bitsIn { fillWith [] false with icnt := 8, ibuf := 0x01 } = true :: List.replicate 7 false ∧
      bitsIn { fillWith [] false with icnt := 1, ibuf := 0 } = [false] ∧
      bitsIn (fillWith [0xAC] false) = [false, false, true, true, false, true, false, true] ∧
      bitsIn (renormDecDry 5 5 5 true true) = [] ∧ (renormDecDry 5 5 5 true true).havelast = true ∧
      bitsIn (fillWith [] true) = [] ∧ (fillWith [] true).havelast = false ∧ (fillWith [] false).codeInEnd = false := by
  decide +kernel

/-- Also the hypotheses of `FillLoadsWindowMostSignificantFirst`. -/
theorem test_meets_GetbitSequenceIsStream :
    ([0xAC, 0xF5] : List Byte) ≠ [] ∧ (fillWith [0xAC, 0xF5] true).icnt = 0 ∧
      (fillWith [0xAC, 0xF5] true).havelast = false ∧ (fillWith [0xAC, 0xF5] true).codeIn = [0xAC, 0xF5] ∧
      (fillWith [0xAC, 0xF5] true).codeInEnd = true ∧ (fillWith [0xAC, 0xF5] true).fillcnt = 0 := by decide +kernel

theorem test_meets_ConsumeMovesWindow :
    BitReady (renormDec 0 0 0x80000000) ∧ BitReady (renormDec 0 0 0x7FFFFFFF) ∧
      (renormDec 0 0 0x80000000).window.getLsbD 31 ≠ (renormDec 0 0 0x80000000).window.getLsbD 30 ∧
      (renormDec 0 0 0x7FFFFFFF).window.getLsbD 31 ≠ (renormDec 0 0 0x7FFFFFFF).window.getLsbD 30 := by decide +kernel

theorem test_meets_FillShiftsOneBitIn :
    (fillWith [0xAC] false).fillcnt.toNat < 32 ∧ BitReady (fillWith [0xAC] false) ∧
      ({ renormDec 0 0 0 with fillcnt := 31 } : State).fillcnt.toNat < 32 ∧
      BitReady { renormDec 0 0 0 with fillcnt := 31 } := by decide +kernel

theorem test_meets_ScaleComputesPosition :
    WindowInside (scaleAt 0x3FFFFFFF 0x80000000 0x3FFFFFFF) ∧ WindowInside (scaleAt 0x3FFFFFFF 0x80000000 0x80000000) ∧
      total (scaleAt 0 0 0).cfg.cf ≠ 0 ∧
      (total largestTable).toNat ≤ 0x80000000 - 0x3FFFFFFF + 1 ∧
      ¬ WindowInside (scaleAt 5 9 4) ∧ ¬ WindowInside (scaleAt 5 9 10) := by decide +kernel

theorem test_meets_ScaleInvertsNarrow :
    exec .phScale (scaleAt 0 0xFFFFFFFF 0x3293D789) = .next (result .phScale (scaleAt 0 0xFFFFFFFF 0x3293D789)) ∧
      (result .phScale (scaleAt 0 0xFFFFFFFF 0x3293D789)).phase = .search :=
  ⟨exec_result (by decide +kernel), by decide +kernel⟩

theorem test_meets_SearchFindsUniqueSymbol :
    CFValid (searchAt 0).cfg.cf ∧ (searchAt 0).scaled < total (searchAt 0).cfg.cf ∧
      (searchAt 327).scaled < total (searchAt 327).cfg.cf ∧ (searchAt 328).scaled < total (searchAt 328).cfg.cf ∧
      total (searchAt 329).cfg.cf ≤ (searchAt 329).scaled := ⟨test_safe_default.1, by decide +kernel⟩

theorem test_meets_FaultEntryDiscardsOtherWrites :
    ∀ p ∈ [(Instr.symIllegal 1, fetchWith [0x101]), (.cmdReserved, idleWith 3), (.phFill, fillWith [] true)],
      p.2.fcode = .none ∧ (nextState? (exec p.1 p.2)).isSome = true ∧ (result p.1 p.2).fcode ≠ .none := by
  decide +kernel

theorem test_meets_FaultLeftOnlyByReset :
    ∀ s ∈ [({ State.reset with phase := .fault, fcode := .illcmd } : State),
      { State.reset with phase := .fault, fcode := .illcmd, schedule := [.host (.cmd 1)] }],
      s.fcode ≠ .none ∧ (nextState? (step s)).isSome = true := by decide +kernel

theorem test_meets_FaultLeftOnlyByReset_reset :
    (nextState? (step { State.reset with phase := .fault, fcode := .illcmd, schedule := [.host .reset] })).isSome =
      true := by decide +kernel

theorem test_meets_HostMovesActOnPorts :
    State.reset.codeInEnd = false ∧ State.reset.busy = false ∧
      ({ State.reset with phase := .fault, fcode := .illcmd } : State).busy = false ∧
      (idleWith 0).phase = .idle ∧ (doneWith 0).phase = .done := by decide +kernel

theorem test_meets_TableIsNeverWritten :
    (nextState? (exec .cmdReserved (idleWith 3))).isSome = true ∧ (nextState? (step (idleWith 3))).isSome = true ∧
      (nextState? (step { State.reset with schedule := [.host (.loadTable cfRange58)] })).isSome = true := by
  decide +kernel

theorem test_meets_RegisterWriters :
    (nextState? (exec .phRenorm (renormEnc 5 5))).isSome = true ∧ (renormEnc 5 5).mode = .enc ∧
      (nextState? (exec .phRenorm (renormDec 5 5 5))).isSome = true ∧ (renormDec 5 5 5).mode = .dec ∧
      (nextState? (exec .phNarrow (narrowAt 0 0xFFFFFFFF 65 69))).isSome = true ∧
      (nextState? (exec .phScale (scaleAt 0 0xFFFFFFFF 5))).isSome = true := by decide +kernel

/-- Also the hypothesis of `PortsAreQueues`: a push on each output. -/
theorem test_meets_PortsAreQueues :
    after .phSearch (searchAt 0) (·.byteOut) = some [0] ∧ after (.putbit true) (packer 0x2C 7) (·.codeOut) = some [0xAC] := by
  decide +kernel

theorem test_meets_UnspecifiedRegistersNeverReachOutput :
    SameLive (idleWith 1) { idleWith 1 with lower := 5, window := 9, acc := 3, mode := .dec } ∧
      SameLive (fetchWith [0x41]) { fetchWith [0x41] with window := 9, sym := 3, low := 7, ibuf := 1 } ∧
      SameLive (fillWith [1] false) { fillWith [1] false with ibuf := 9, lastbit := true, acc := 4, ufc := 2 } ∧
      (nextState? (step (fillWith [1] false))).isSome = true :=
  ⟨⟨by simp [SameFrame, idleWith], trivial⟩, ⟨by simp [SameFrame, fetchWith], by simp [SameEncoder, fetchWith, State.reset]⟩,
    ⟨by simp [SameFrame, fillWith], by simp [SameDecoder, fillWith, State.reset]⟩, by decide +kernel⟩

theorem test_meets_DecodeUndoesEncode :
    (Instr.symIllegal 0xFF).wellFormed = true ∧ (Instr.symIllegal 0xFF).format ≠ .prim ∧
      (Instr.phUnused 6).wellFormed = true ∧ (Instr.phUnused 6).format ≠ .prim := by decide +kernel

theorem test_meets_EncodeUndoesDecode :
    decode .ph 0b1110 = .ok (.phUnused 6) ∧ (3 < 2 ^ Format.cmd.width) ∧ (511 < 2 ^ Format.sym.width) ∧
      (15 < 2 ^ Format.rn.width) ∧ (15 < 2 ^ Format.ph.width) := by decide +kernel

theorem test_meets_EveryMoveKeepsInvariant :
    (nextState? (step (renormDec 5 5 5))).isSome = true ∧
      (nextState? (step { renormDec 5 5 5 with schedule := [.host .reset] })).isSome = true := by decide +kernel

theorem test_reset_state :
    ResetState State.reset ∧ ResetState { State.reset with lower := 9, upper := 3, ufc := 2 ^ 32 - 1, mode := .dec } :=
  ⟨⟨rfl, rfl, rfl, by decide +kernel⟩, ⟨rfl, rfl, rfl, by decide +kernel⟩⟩

/-- The other hypothesis of `RunsFromResetStayConsistent`: two moves from reset, a host push and a fault. -/
theorem test_meets_RunsFromResetStayConsistent :
    (nextState? (Host.Core.run Sys2Proof.core 2
      { State.reset with schedule := [.host (.cmd 3), .core] })).map (·.fcode) = some .illcmd := by
  decide +kernel

/-- The empty message of program P1 under the default table. -/
theorem test_meets_EncodeSessionComputesEncode :
    let s : State := { idleWith 1 with symIn := messageCodes [] ++ [0x41] }
    s.phase = .idle ∧ s.fcode = .none ∧ s.schedule = [] ∧ CFSafe s.cfg.cf ∧ s.cmd = 0b01#2 :: [] ∧
      s.symIn = messageCodes [] ++ [0x41#9] ∧ 32 * (([] : List Byte).length + 1) < 2 ^ s.cfg.ufcBits :=
  ⟨rfl, rfl, rfl, test_safe_default, rfl, rfl, by decide +kernel⟩

/-- The same with the command, the symbol and a pop between steps of the core. -/
theorem test_meets_EncodeSessionComputesEncode_interleaved :
    let s : State := { State.reset with
      schedule := [.core, .host (.cmd 0b01), .core, .core, .host (.sym 256), .core, .host .popCodeOut] }
    s.phase = .idle ∧ s.fcode = .none ∧ CFSafe s.cfg.cf ∧ 32 * (([] : List Byte).length + 1) < 2 ^ s.cfg.ufcBits ∧
      HostFeedsAndDrains s ∧ s.cmd ++ pushedCmd s.schedule = [0b01#2] ∧
      s.symIn ++ pushedSym s.schedule = messageCodes [] ++ [] :=
  ⟨rfl, rfl, test_safe_default, by decide +kernel, by decide +kernel, by decide +kernel, by decide +kernel⟩

/-- The stream `FF FE` of program P1; `Decode` of it is the empty message. -/
theorem test_meets_DecodeSessionComputesDecode :
    let s : State := { doneWith 2 with codeIn := [0xFF, 0xFE], codeInEnd := true }
    s.phase = .done ∧ s.fcode = .none ∧ s.schedule = [] ∧ CFSafe s.cfg.cf ∧ s.cmd = 0b10#2 :: [] ∧
      s.codeIn ≠ [] ∧ s.codeInEnd = true ∧ decodeStream s.cfg.cf 1 [0xFF, 0xFE] = some [] :=
  ⟨rfl, rfl, rfl, test_safe_default, rfl, by decide +kernel, rfl, by decide +kernel⟩

/-- The same with the second byte, the end flag and a pop between steps of the core. -/
theorem test_meets_DecodeSessionComputesDecode_interleaved :
    let s : State := { doneWith 2 with
      codeIn := [0xFF], schedule := [.core, .host (.code 0xFE), .core, .host .codeEnd, .core, .host .popByteOut] }
    s.phase = .done ∧ s.fcode = .none ∧ CFSafe s.cfg.cf ∧ ([0xFF, 0xFE] : List Byte) ≠ [] ∧
      decodeStream s.cfg.cf 1 [0xFF, 0xFE] = some [] ∧ HostFeedsAndDrains s ∧
      s.cmd ++ pushedCmd s.schedule = [0b10#2] ∧ s.codeIn ++ pushedCode s.schedule = [0xFF, 0xFE] ∧
      (s.codeInEnd || endsStream s.schedule) = true :=
  ⟨rfl, rfl, test_safe_default, by decide, by decide +kernel, by decide +kernel, by decide +kernel, by decide +kernel,
    by decide +kernel⟩

theorem test_meets_RoundTripLaw :
    let s : State := { idleWith 1 with symIn := messageCodes [0x41] }
    let d : State := { doneWith 2 with codeIn := [0xAC, 0xF5], codeInEnd := true }
    s.phase = .idle ∧ s.fcode = .none ∧ s.schedule = [] ∧ CFSafe s.cfg.cf ∧ s.cmd = 0b01#2 :: [] ∧
      s.symIn = messageCodes [0x41] ∧ s.codeOut = [] ∧ 32 * (([0x41] : List Byte).length + 1) < 2 ^ s.cfg.ufcBits ∧
      d.phase = .done ∧ d.fcode = .none ∧ d.schedule = [] ∧ d.cfg.cf = s.cfg.cf ∧ d.cmd = 0b10#2 :: [] ∧
      d.byteOut = [] ∧ d.codeInEnd = true :=
  ⟨rfl, rfl, rfl, test_safe_default, rfl, rfl, rfl, by decide +kernel, rfl, rfl, rfl, rfl, rfl, rfl, rfl⟩

/-- The same with each session fed and drained while it runs; `AC F5` is `Encode` of the message (program P2). -/
theorem test_meets_RoundTripLaw_interleaved :
    let s : State := { State.reset with
      schedule := [.host (.cmd 0b01), .core, .host (.sym 0x41), .core, .host .popCodeOut, .host (.sym 256)] }
    let d : State := { doneWith 2 with
      schedule := [.core, .host (.code 0xAC), .core, .host (.code 0xF5), .host .codeEnd, .core, .host .popByteOut] }
    s.phase = .idle ∧ s.fcode = .none ∧ CFSafe s.cfg.cf ∧ s.codeOut = [] ∧
      32 * (([0x41] : List Byte).length + 1) < 2 ^ s.cfg.ufcBits ∧ d.phase = .done ∧ d.fcode = .none ∧
      d.cfg.cf = s.cfg.cf ∧ d.byteOut = [] ∧ HostFeedsAndDrains s ∧ s.cmd ++ pushedCmd s.schedule = [0b01#2] ∧
      s.symIn ++ pushedSym s.schedule = messageCodes [0x41] ∧ HostFeedsAndDrains d ∧
      d.cmd ++ pushedCmd d.schedule = [0b10#2] ∧ (d.codeInEnd || endsStream d.schedule) = true ∧
      d.codeIn ++ pushedCode d.schedule = [0xAC, 0xF5] :=
  ⟨rfl, rfl, test_safe_default, rfl, by decide +kernel, rfl, rfl, rfl, rfl, by decide +kernel, by decide +kernel,
    by decide +kernel, by decide +kernel, by decide +kernel, by decide +kernel, by decide +kernel⟩

/-- `Encode` and `Decode` as functions: programs P1 and P2, and 4.2. -/
theorem test_session_functions :
    encodeMessage cfLetters52 [] = some [0xFF, 0xFE] ∧ encodeMessage cfLetters52 [0x41] = some [0xAC, 0xF5] ∧
      encodeMessage cfRange58 [0x5B, 0x41] = some [0x86, 0xBA, 0xC9] ∧
      decodeStream cfLetters52 2 [0xAC, 0xF5] = some [0x41] := by decide +kernel

end Sys2Proof.Tests
end

section
/-! PROOFS. Noninterference (spec/10_state.md R39): two states that agree on what the phase still depends on take the
same moves and go on agreeing. Each operation is shown to answer two such states alike; the step follows by phases. -/

namespace Sys2Proof.Machine

/-! ## The frame -/

/-- If the first outcome is a next state, so is the second, and the two states agree on their live registers. -/
def SameOutcome (o p : Out) : Prop := ∀ s', o = .next s' → ∃ t', p = .next t' ∧ SameLive s' t'

theorem SameOutcome.next {s t : State} (h : SameLive s t) : SameOutcome (.next s) (.next t) := by
  rintro s' ⟨⟩
  exact ⟨t, rfl, h⟩

theorem SameOutcome.refused (r : Refusal) (p : Out) : SameOutcome (.refused r) p := by
  rintro s' ⟨⟩

/-- Two branches on conditions that agree. -/
theorem SameOutcome.ite {p q : Prop} [Decidable p] [Decidable q] {a b c d : Out} (hpq : p ↔ q)
    (hyes : p → SameOutcome a b) (hno : ¬ p → SameOutcome c d) :
    SameOutcome (if p then a else c) (if q then b else d) := by
  by_cases hp : p
  · rw [if_pos hp, if_pos (hpq.1 hp)]
    exact hyes hp
  · rw [if_neg hp, if_neg (mt hpq.2 hp)]
    exact hno hp

theorem SameFrame.cfg_eq {s t : State} (h : SameFrame s t) : s.cfg = t.cfg := by
  obtain ⟨-, -, -, -, -, -, -, -, hcfg, -⟩ := h
  exact hcfg

theorem SameFrame.withPhase {s t : State} (h : SameFrame s t) (p : Phase) :
    SameFrame { s with phase := p } { t with phase := p } := by
  obtain ⟨-, h⟩ := h
  exact ⟨rfl, h⟩

theorem SameFrame.raise {s t : State} (h : SameFrame s t) (c : FCode) : SameFrame (s.raise c) (t.raise c) := by
  obtain ⟨-, -, h⟩ := h
  exact ⟨rfl, rfl, h⟩

theorem SameFrame.popCmd {s t : State} (h : SameFrame s t) : SameFrame s.popCmd t.popCmd := by
  simp_all [SameFrame]

theorem SameFrame.popSym {s t : State} (h : SameFrame s t) : SameFrame s.popSym t.popSym := by
  simp_all [SameFrame]

theorem SameFrame.pushCodeOut {s t : State} (h : SameFrame s t) (b : Byte) :
    SameFrame (s.pushCodeOut b) (t.pushCodeOut b) := by
  simp_all [SameFrame]

theorem SameFrame.pushByteOut {s t : State} (h : SameFrame s t) (b : Byte) :
    SameFrame (s.pushByteOut b) (t.pushByteOut b) := by
  simp_all [SameFrame]

theorem SameFrame.afterReset {s t : State} (h : SameFrame s t) : SameFrame s.afterReset t.afterReset := by
  simp_all [SameFrame]

/-- Outside a session no register is live. -/
theorem SameFrame.sameLive {s t : State} (h : SameFrame s t)
    (hp : s.phase = .idle ∨ s.phase = .done ∨ s.phase = .fault) : SameLive s t := by
  refine ⟨h, ?_⟩
  obtain hp | hp | hp := hp <;> rw [hp] <;> trivial

theorem sameOutcome_raiseFault {s t : State} (h : SameFrame s t) (c : FCode) :
    SameOutcome (raiseFault c s) (raiseFault c t) :=
  .next ⟨h.raise c, trivial⟩

/-! ## The bit packer -/

theorem putBit_sameEncoder {s t : State} (hf : SameFrame s t) (he : SameEncoder s t) (b : Bool) :
    SameFrame (putBit b s) (putBit b t) ∧ SameEncoder (putBit b s) (putBit b t) := by
  obtain ⟨hs, ht, hl, hu, hk, ha, hn⟩ := he
  have hset : setBit t.acc t.nbits b = setBit s.acc s.nbits b := by rw [ha, hn]
  by_cases h7 : s.nbits = 7#3
  · rw [putBit, putBit, if_pos h7, if_pos (hn ▸ h7), hset]
    exact ⟨hf.pushCodeOut _, hs, ht, hl, hu, hk, rfl, rfl⟩
  · rw [putBit, putBit, if_neg h7, if_neg (hn ▸ h7), hset]
    exact ⟨hf, hs, ht, hl, hu, hk, rfl, congrArg (· + 1) hn⟩

theorem putBits_sameEncoder {s t : State} (n : Nat) (hf : SameFrame s t) (he : SameEncoder s t) (b : Bool) :
    SameFrame (putBits n b s) (putBits n b t) ∧ SameEncoder (putBits n b s) (putBits n b t) := by
  induction n generalizing s t with
  | zero => exact ⟨hf, he⟩
  | succ n ih =>
    obtain ⟨hf, he⟩ := putBit_sameEncoder hf he b
    exact ih hf he

theorem padFlush_sameEncoder {s t : State} (hf : SameFrame s t) (he : SameEncoder s t) :
    SameFrame (padFlush s) (padFlush t) ∧ SameEncoder (padFlush s) (padFlush t) := by
  have hn : padCount s = padCount t := by
    obtain ⟨-, -, -, -, -, -, hn⟩ := he
    rw [padCount, padCount, hn]
  unfold padFlush
  rw [← hn]
  exact putBits_sameEncoder _ hf he true

theorem emit_sameEncoder {s t : State} (hf : SameFrame s t) (he : SameEncoder s t) (b : Bool) :
    SameFrame (emit b s) (emit b t) ∧ SameEncoder (emit b s) (emit b t) := by
  obtain ⟨hf', he'⟩ := putBit_sameEncoder hf he b
  obtain ⟨-, -, -, -, hk, -⟩ := he
  unfold emit
  rw [← hk]
  obtain ⟨hf', hs, ht, hl, hu, -, ha, hn⟩ := putBits_sameEncoder s.ufc hf' he' (!b)
  exact ⟨hf', hs, ht, hl, hu, rfl, ha, hn⟩

/-! ## The bit unpacker -/

/-- The same bit was taken and the two states agree on a decode session's registers, or none was for the same reason. -/
def SameRead (r q : BitRead) : Prop :=
  (∃ b u v, r = .bit b u ∧ q = .bit b v ∧ SameFrame u v ∧ SameDecoder u v) ∨
    (r = .noBits ∧ q = .noBits) ∨ (r = .held ∧ q = .held)

theorem SameRead.bit {b c : Bool} {u v : State} (hb : b = c) (hf : SameFrame u v) (hd : SameDecoder u v) :
    SameRead (.bit b u) (.bit c v) := by
  subst hb
  exact .inl ⟨b, u, v, rfl, rfl, hf, hd⟩

theorem takeBit_sameRead {s t : State} (hf : SameFrame s t) (hd : SameDecoder s t) (hb : s.ibuf = t.ibuf) :
    SameRead (takeBit s) (takeBit t) := by
  obtain ⟨hs, ht, hl, hu, hw, hi, -⟩ := hd
  have hbit : s.ibuf.getLsbD 0 = t.ibuf.getLsbD 0 := by rw [hb]
  refine .bit hbit hf ⟨hs, ht, hl, hu, hw, ?_, rfl, fun _ => ?_, fun _ => hbit⟩
  · exact congrArg (fun i : BitVec 4 => i - 1) hi
  · exact congrArg (fun i : Byte => i >>> 1) hb

theorem getBit_of_buffered {s : State} (h : s.icnt ≠ 0) : getBit s = takeBit s := by
  rw [getBit, if_neg h]

theorem getBit_of_byte {s : State} {b : Byte} {rest : List Byte} (h : s.icnt = 0) (hc : s.codeIn = b :: rest) :
    getBit s = takeBit { s with ibuf := b, icnt := 8, codeIn := rest } := by
  rw [getBit, if_pos h, hc]

/-- With no real bit left GETBIT is decided by the end flag and by whether there is a last bit (44 R205, R206). -/
theorem getBit_of_empty {s : State} (h : s.icnt = 0) (hc : s.codeIn = []) :
    getBit s = if s.codeInEnd then (if s.havelast then .bit s.lastbit s else .noBits) else .held := by
  unfold getBit
  simp only [if_pos h]
  split <;> simp_all

/-- GETBIT reads `IBUF` and `LASTBIT` only where they are live, so it answers both states alike. -/
theorem getBit_sameRead {s t : State} (hf : SameFrame s t) (hd : SameDecoder s t) : SameRead (getBit s) (getBit t) := by
  have ⟨hp, hfc, hsi, hco, hci, hce, hframe⟩ := hf
  have ⟨hs, ht, hl, hu, hw, hi, hh, hb, hlast⟩ := hd
  by_cases h0 : s.icnt = 0
  · have h0' : t.icnt = 0 := by rw [← hi, h0]
    cases hc : s.codeIn with
    | cons b rest =>
      rw [getBit_of_byte h0 hc, getBit_of_byte h0' (hci.symm.trans hc)]
      refine takeBit_sameRead ⟨hp, hfc, hsi, hco, rfl, hce, hframe⟩ ?_ (Eq.refl b)
      exact ⟨hs, ht, hl, hu, hw, rfl, hh, fun _ => rfl, hlast⟩
    | nil =>
      rw [getBit_of_empty h0 hc, getBit_of_empty h0' (hci.symm.trans hc), ← hce, ← hh]
      split
      · split
        next hhl => exact .bit (hlast hhl) hf hd
        next => exact .inr (.inl ⟨rfl, rfl⟩)
      · exact .inr (.inr ⟨rfl, rfl⟩)
  · have h0' : t.icnt ≠ 0 := by rwa [← hi]
    rw [getBit_of_buffered h0, getBit_of_buffered h0']
    exact takeBit_sameRead hf hd (hb h0)

/-- Taking a bit leaves `FILLCNT` alone. -/
theorem getBit_fillcnt {s u : State} {b : Bool} (h : getBit s = .bit b u) : u.fillcnt = s.fillcnt := by
  rw [(getBit_frame h).1]

theorem sameOutcome_afterBit {s t : State} {f : Bool → State → State} (h : SameLive s t) (hd : SameDecoder s t)
    (hnext : ∀ b u v, SameFrame u v → SameDecoder u v → u.fillcnt = s.fillcnt → v.fillcnt = t.fillcnt →
      SameLive (f b u) (f b v)) :
    SameOutcome (afterBit (getBit s) s f) (afterBit (getBit t) t f) := by
  obtain ⟨b, u, v, hs, ht, hf', hd'⟩ | ⟨hs, ht⟩ | ⟨hs, ht⟩ := getBit_sameRead h.1 hd
  · rw [hs, ht]
    exact .next (hnext b u v hf' hd' (getBit_fillcnt hs) (getBit_fillcnt ht))
  · rw [hs, ht]
    exact sameOutcome_raiseFault h.1 .nobits
  · rw [hs, ht]
    exact .next h

/-! ## The renormaliser -/

theorem renormE1_enc {s : State} (hm : s.mode = .enc) (b : Bool) : renormE1 b s = .next (emit b s).shiftInterval := by
  rw [renormE1, hm]

theorem renormE1_dec {s : State} (hm : s.mode = .dec) (b : Bool) :
    renormE1 b s = afterBit (getBit s) s fun c u => { u with window := shiftIn u.window c }.shiftInterval := by
  rw [renormE1, hm, ← afterBit_consumeShift]

theorem renormE3_enc {s : State} (hm : s.mode = .enc) :
    renormE3 s =
      if s.ufc + 1 < 2 ^ s.cfg.ufcBits then .next { s with ufc := s.ufc + 1 }.spliceInterval
      else raiseFault .ufcovf s := by
  unfold renormE3 defer
  by_cases hk : s.ufc + 1 < 2 ^ s.cfg.ufcBits <;> simp only [hm, hk, if_true, if_false]

theorem renormE3_dec {s : State} (hm : s.mode = .dec) :
    renormE3 s =
      afterBit (getBit s) s fun c u => { u with window := spliceIn u.window.msb u.window c }.spliceInterval := by
  rw [renormE3, hm, ← afterBit_consumeSplice]

theorem renormTerm_enc {s : State} (hm : s.mode = .enc) :
    renormTerm s = .next { s with phase := if s.sym = 256#9 then .finish else .fetch } := by
  unfold renormTerm
  split <;> simp_all

theorem renormTerm_dec {s : State} (hm : s.mode = .dec) : renormTerm s = .next { s with phase := .scale } := by
  unfold renormTerm
  split <;> simp_all

theorem sameLive_shiftInterval_enc {u v : State} (hf : SameFrame u v) (hy : u.sym = v.sym) (he : SameEncoder u v) :
    SameLive u.shiftInterval v.shiftInterval := by
  obtain ⟨-, hports⟩ := hf
  obtain ⟨hs, ht, hl, hu, hrest⟩ := he
  refine ⟨⟨rfl, hports⟩, .inl ⟨hy, hs, ht, ?_, ?_, hrest⟩⟩
  · simp only [State.shiftInterval_lower, hl]
  · simp only [State.shiftInterval_upper, hu]

theorem sameLive_shiftInterval_dec {u v : State} (hf : SameFrame u v) (hd : SameDecoder u v) (b : Bool) :
    SameLive { u with window := shiftIn u.window b }.shiftInterval
      { v with window := shiftIn v.window b }.shiftInterval := by
  obtain ⟨-, hports⟩ := hf
  obtain ⟨hs, ht, hl, hu, hw, hrest⟩ := hd
  refine ⟨⟨rfl, hports⟩, .inr ⟨hs, ht, ?_, ?_, ?_, hrest⟩⟩
  · simp only [State.shiftInterval_lower, hl]
  · simp only [State.shiftInterval_upper, hu]
  · simp only [State.shiftInterval_window, hw]

theorem sameLive_spliceInterval_enc {u v : State} (hf : SameFrame u v) (hy : u.sym = v.sym) (he : SameEncoder u v) :
    SameLive { u with ufc := u.ufc + 1 }.spliceInterval { v with ufc := v.ufc + 1 }.spliceInterval := by
  obtain ⟨-, hports⟩ := hf
  obtain ⟨hs, ht, hl, hu, hk, hrest⟩ := he
  refine ⟨⟨rfl, hports⟩, .inl ⟨hy, hs, ht, ?_, ?_, ?_, hrest⟩⟩
  · simp only [State.spliceInterval_lower, hl]
  · simp only [State.spliceInterval_upper, hu]
  · simp only [State.spliceInterval_ufc, hk]

theorem sameLive_spliceInterval_dec {u v : State} (hf : SameFrame u v) (hd : SameDecoder u v) (b : Bool) :
    SameLive { u with window := spliceIn u.window.msb u.window b }.spliceInterval
      { v with window := spliceIn v.window.msb v.window b }.spliceInterval := by
  obtain ⟨-, hports⟩ := hf
  obtain ⟨hs, ht, hl, hu, hw, hrest⟩ := hd
  refine ⟨⟨rfl, hports⟩, .inr ⟨hs, ht, ?_, ?_, ?_, hrest⟩⟩
  · simp only [State.spliceInterval_lower, hl]
  · simp only [State.spliceInterval_upper, hu]
  · simp only [State.spliceInterval_window, hw]

/-- What is live in RENORM (10 R39). -/
def SameRenorm (s t : State) : Prop := (s.sym = t.sym ∧ SameEncoder s t) ∨ SameDecoder s t

theorem sameOutcome_renormE1 {s t : State} (h : SameLive s t) (hr : SameRenorm s t) (b : Bool) :
    SameOutcome (renormE1 b s) (renormE1 b t) := by
  obtain ⟨hy, he⟩ | hd := hr
  · have ⟨hs, ht, _⟩ := he
    rw [renormE1_enc hs, renormE1_enc ht]
    obtain ⟨hf', he'⟩ := emit_sameEncoder h.1 he b
    have hy' : (emit b s).sym = (emit b t).sym := by rw [emit_frame b s, emit_frame b t, hy]
    exact .next (sameLive_shiftInterval_enc hf' hy' he')
  · have ⟨hs, ht, _⟩ := hd
    rw [renormE1_dec hs, renormE1_dec ht]
    exact sameOutcome_afterBit h hd fun c _ _ hf' hd' _ _ => sameLive_shiftInterval_dec hf' hd' c

theorem sameOutcome_renormE3 {s t : State} (h : SameLive s t) (hr : SameRenorm s t) :
    SameOutcome (renormE3 s) (renormE3 t) := by
  have ⟨hf, _⟩ := h
  obtain ⟨hy, he⟩ | hd := hr
  · have ⟨hs, ht, _, _, hk, _⟩ := he
    have hcfg := hf.cfg_eq
    rw [renormE3_enc hs, renormE3_enc ht]
    refine .ite (by rw [hk, hcfg]) (fun _ => ?_) (fun _ => ?_)
    · exact .next (sameLive_spliceInterval_enc hf hy he)
    · exact sameOutcome_raiseFault hf .ufcovf
  · have ⟨hs, ht, _⟩ := hd
    rw [renormE3_dec hs, renormE3_dec ht]
    exact sameOutcome_afterBit h hd fun c _ _ hf' hd' _ _ => sameLive_spliceInterval_dec hf' hd' c

theorem sameOutcome_renormTerm {s t : State} (hf : SameFrame s t) (hr : SameRenorm s t) :
    SameOutcome (renormTerm s) (renormTerm t) := by
  obtain ⟨hy, he⟩ | hd := hr
  · have ⟨hs, ht, _⟩ := he
    rw [renormTerm_enc hs, renormTerm_enc ht, ← hy]
    by_cases hend : s.sym = 256#9
    · simp only [hend, if_true]
      exact .next ⟨hf.withPhase .finish, he⟩
    · simp only [hend, if_false]
      exact .next ⟨hf.withPhase .fetch, he⟩
  · have ⟨hs, ht, _⟩ := hd
    rw [renormTerm_dec hs, renormTerm_dec ht]
    exact .next ⟨hf.withPhase .scale, hd⟩

/-! ## The phases -/

/-- IDLE and DONE: only ports and parameters are read, and a START writes the registers of its session. -/
theorem sameOutcome_consumeCommand {s t : State} (hf : SameFrame s t) (hp : s.phase = .idle ∨ s.phase = .done) :
    SameOutcome (consumeCommand s) (consumeCommand t) := by
  have ⟨_, _, _, _, _, _, _, hcmd, _⟩ := hf
  have hp' : s.phase = .idle ∨ s.phase = .done ∨ s.phase = .fault := hp.imp_right .inl
  have hsafe : CFSafe s.cfg.cf ↔ CFSafe t.cfg.cf := by rw [hf.cfg_eq]
  unfold consumeCommand
  rw [← hcmd]
  cases s.cmd with
  | nil => exact .next (hf.sameLive hp')
  | cons c rest =>
    dsimp only
    cases decodeCmd c with
    | nop => exact .next (hf.popCmd.sameLive hp')
    | startEnc =>
      refine .ite hsafe (fun _ => .next ?_) fun _ => sameOutcome_raiseFault hf.popCmd .config
      exact ⟨hf.popCmd.withPhase .fetch, rfl, rfl, rfl, rfl, rfl, rfl, rfl⟩
    | startDec =>
      refine .ite hsafe (fun _ => .next ?_) fun _ => sameOutcome_raiseFault hf.popCmd .config
      refine ⟨hf.popCmd.withPhase .fill, ⟨rfl, rfl, rfl, rfl, rfl, rfl, rfl, ?_, nofun⟩, rfl⟩
      exact fun hicnt => absurd rfl hicnt
    | reserved => exact sameOutcome_raiseFault hf.popCmd .illcmd

theorem sameOutcome_fetchSymbol {s t : State} (hf : SameFrame s t) (he : SameEncoder s t) (x : Symbol) :
    SameOutcome (fetchSymbol x s) (fetchSymbol x t) := by
  have hcfg := hf.cfg_eq
  refine .next ⟨hf.popSym.withPhase .narrow, ⟨rfl, ?_, ?_⟩, .inl he⟩
  · exact congrArg (fun c => lowOf c.cf x) hcfg
  · exact congrArg (fun c => highOf c.cf x) hcfg

theorem sameOutcome_execPhFetch {s t : State} (h : SameLive s t) (he : SameEncoder s t) :
    SameOutcome (execPhFetch s) (execPhFetch t) := by
  have ⟨hf, _⟩ := h
  have ⟨_, _, hsym, _⟩ := hf
  unfold execPhFetch
  rw [← hsym]
  cases s.symIn with
  | nil => exact .next h
  | cons c rest =>
    dsimp only
    cases decodeSym c with
    | byte v => exact sameOutcome_fetchSymbol hf he _
    | eof => exact sameOutcome_fetchSymbol hf he _
    | illegal v => exact sameOutcome_raiseFault hf.popSym .illsym

/-- Both modes keep the interval live. -/
theorem sameInterval {s t : State} (h : SameEncoder s t ∨ SameDecoder s t) :
    s.lower = t.lower ∧ s.upper = t.upper := by
  obtain ⟨-, -, hl, hu, -⟩ | ⟨-, -, hl, hu, -⟩ := h <;> exact ⟨hl, hu⟩

theorem sameOutcome_execPhNarrow {s t : State} (hf : SameFrame s t) (hlatch : SameLatches s t)
    (hr : SameEncoder s t ∨ SameDecoder s t) : SameOutcome (execPhNarrow s) (execPhNarrow t) := by
  have hcfg := hf.cfg_eq
  obtain ⟨hy, hlo, hhi⟩ := hlatch
  obtain ⟨hl, hu⟩ := sameInterval hr
  have hn : narrowed t.lower t.upper t.low t.high (total t.cfg.cf) =
      narrowed s.lower s.upper s.low s.high (total s.cfg.cf) := by rw [hl, hu, hlo, hhi, hcfg]
  unfold execPhNarrow
  rw [hn]
  cases narrowed s.lower s.upper s.low s.high (total s.cfg.cf) with
  | none => exact sameOutcome_raiseFault hf .invariant
  | some w =>
    refine .next ⟨hf.withPhase .renorm, ?_⟩
    obtain ⟨hs, ht, -, -, hrest⟩ | ⟨hs, ht, -, -, hrest⟩ := hr
    · exact .inl ⟨hy, hs, ht, rfl, rfl, hrest⟩
    · exact .inr ⟨hs, ht, rfl, rfl, hrest⟩

theorem sameOutcome_execPhRenorm {s t : State} (h : SameLive s t) (hr : SameRenorm s t) :
    SameOutcome (execPhRenorm s) (execPhRenorm t) := by
  have ⟨hf, _⟩ := h
  obtain ⟨hl, hu⟩ := sameInterval (hr.imp_left And.right)
  obtain ⟨b, hb⟩ | hx | hT | ⟨h1, h2⟩ := pattern_cases s.lower s.upper
  · rw [execPhRenorm_determinate hb, execPhRenorm_determinate (hl ▸ hu ▸ hb)]
    exact sameOutcome_renormE1 h hr b
  · rw [execPhRenorm_straddles hx, execPhRenorm_straddles (hl ▸ hu ▸ hx)]
    exact sameOutcome_renormE3 h hr
  · rw [execPhRenorm_terminal hT, execPhRenorm_terminal (hl ▸ hu ▸ hT)]
    exact sameOutcome_renormTerm hf hr
  · rw [execPhRenorm_unreachable h1 h2, execPhRenorm_unreachable (hl ▸ h1) (hu ▸ h2)]
    exact sameOutcome_raiseFault hf .invariant

theorem sameOutcome_execPhFinish {s t : State} (hf : SameFrame s t) (he : SameEncoder s t) :
    SameOutcome (execPhFinish s) (execPhFinish t) := by
  obtain ⟨hf, he⟩ := putBit_sameEncoder hf he false
  obtain ⟨hf, he⟩ := putBit_sameEncoder hf he true
  obtain ⟨hf, -⟩ := padFlush_sameEncoder hf he
  exact .next ⟨hf.withPhase .done, trivial⟩

theorem sameOutcome_execPhFill {s t : State} (h : SameLive s t) (hd : SameDecoder s t) (hc : s.fillcnt = t.fillcnt) :
    SameOutcome (execPhFill s) (execPhFill t) := by
  refine sameOutcome_afterBit h hd fun b u v hf' hd' hus hvt => ?_
  have huv : u.fillcnt = v.fillcnt := by rw [hus, hvt, hc]
  obtain ⟨hs, ht, hl, hu, hw, hunpacker⟩ := hd'
  rw [← huv, ← hw]
  have hd'' : SameDecoder { u with window := shiftIn u.window b } { v with window := shiftIn u.window b } :=
    ⟨hs, ht, hl, hu, rfl, hunpacker⟩
  refine ⟨hf'.withPhase _, ?_⟩
  by_cases hlast : u.fillcnt.toNat + 1 = 32
  · rw [if_pos hlast]
    exact hd''
  · rw [if_neg hlast]
    exact ⟨hd'', rfl⟩

theorem sameOutcome_execPhScale {s t : State} (hf : SameFrame s t) (hd : SameDecoder s t) :
    SameOutcome (execPhScale s) (execPhScale t) := by
  have hcfg := hf.cfg_eq
  have ⟨_, _, hl, hu, hw, _⟩ := hd
  refine .ite (by rw [hl, hu, hw, hcfg]) (fun _ => .next ⟨hf.withPhase .search, hd, ?_⟩) fun _ => ?_
  · change BitVec.ofNat 32 (scaledPosition s.lower s.upper s.window (total s.cfg.cf)) = BitVec.ofNat 32 _
    rw [hl, hu, hw, hcfg]
  · exact sameOutcome_raiseFault hf .invariant

theorem sameLive_foundByte {s t : State} (hf : SameFrame s t) (hd : SameDecoder s t) (v : Byte) :
    SameLive (foundByte v s) (foundByte v t) := by
  have hcfg := hf.cfg_eq
  refine ⟨(hf.pushByteOut v).withPhase .narrow, ⟨rfl, ?_, ?_⟩, .inr hd⟩
  · exact congrArg (fun c => lowOf c.cf (symbolOfByte v)) hcfg
  · exact congrArg (fun c => highOf c.cf (symbolOfByte v)) hcfg

theorem sameOutcome_execPhSearch {s t : State} (hf : SameFrame s t) (hd : SameDecoder s t) (hq : s.scaled = t.scaled) :
    SameOutcome (execPhSearch s) (execPhSearch t) := by
  have hcfg := hf.cfg_eq
  have hx : searchIndex s.cfg.cf s.scaled = searchIndex t.cfg.cf t.scaled := by rw [hq, hcfg]
  refine .ite (by rw [hq, hcfg]) (fun _ => .ite (by rw [hx]) (fun _ => ?_) fun _ => ?_) fun _ => ?_
  · rw [hx]
    exact .next (sameLive_foundByte hf hd _)
  · exact .next ⟨hf.withPhase .done, trivial⟩
  · exact sameOutcome_raiseFault hf .invariant

/-! ## The moves -/

theorem sameOutcome_currentInstr {s t : State} (h : SameLive s t) :
    SameOutcome (exec (currentInstr s) s) (exec (currentInstr t) t) := by
  have ⟨hf, hr⟩ := h
  have ⟨hp, hfc, _⟩ := hf
  unfold currentInstr
  rw [← hfc, ← hp]
  split
  · cases hps : s.phase with
    | idle => exact sameOutcome_consumeCommand hf (.inl hps)
    | fetch =>
      rw [hps] at hr
      exact sameOutcome_execPhFetch h hr
    | narrow =>
      rw [hps] at hr
      exact sameOutcome_execPhNarrow hf hr.1 hr.2
    | renorm =>
      rw [hps] at hr
      exact sameOutcome_execPhRenorm h hr
    | finish =>
      rw [hps] at hr
      exact sameOutcome_execPhFinish hf hr
    | fill =>
      rw [hps] at hr
      exact sameOutcome_execPhFill h hr.1 hr.2
    | scale =>
      rw [hps] at hr
      exact sameOutcome_execPhScale hf hr
    | search =>
      rw [hps] at hr
      exact sameOutcome_execPhSearch hf hr.1 hr.2
    | done => exact sameOutcome_consumeCommand hf (.inr hps)
    | fault => exact .next h
  · exact .next h

/-- The host's moves read the phase and the ports, and write no register but at a reset, with values both states get. -/
theorem sameOutcome_hostAct {s t : State} (h : SameLive s t) (a : HostAction) :
    SameOutcome (hostAct a s) (hostAct a t) := by
  have ⟨hf, hr⟩ := h
  have ⟨hp, hfc, hsym, hco, hci, hce, hbo, hcmd, hcfg, hmoves⟩ := hf
  cases a with
  | reset => exact .next ⟨hf.afterReset, trivial⟩
  | cmd c =>
    exact .next ⟨⟨hp, hfc, hsym, hco, hci, hce, hbo, congrArg (· ++ [c]) hcmd, hcfg, hmoves⟩, hr⟩
  | sym c =>
    exact .next ⟨⟨hp, hfc, congrArg (· ++ [c]) hsym, hco, hci, hce, hbo, hcmd, hcfg, hmoves⟩, hr⟩
  | code b =>
    refine .ite (by rw [hce]) (fun _ => .refused _ _) fun _ => ?_
    exact .next ⟨⟨hp, hfc, hsym, hco, congrArg (· ++ [b]) hci, hce, hbo, hcmd, hcfg, hmoves⟩, hr⟩
  | codeEnd => exact .next ⟨⟨hp, hfc, hsym, hco, hci, rfl, hbo, hcmd, hcfg, hmoves⟩, hr⟩
  | popCodeOut =>
    exact .next ⟨⟨hp, hfc, hsym, congrArg List.tail hco, hci, hce, hbo, hcmd, hcfg, hmoves⟩, hr⟩
  | popByteOut =>
    exact .next ⟨⟨hp, hfc, hsym, hco, hci, hce, congrArg List.tail hbo, hcmd, hcfg, hmoves⟩, hr⟩
  | emptyPorts =>
    refine .ite (by rw [State.busy, State.busy, hp]) (fun _ => .refused _ _) fun _ => ?_
    exact .next ⟨⟨hp, hfc, rfl, rfl, rfl, rfl, rfl, hcmd, hcfg, hmoves⟩, hr⟩
  | loadTable tb =>
    refine .ite (by rw [hp]) (fun _ => ?_) fun _ => .refused _ _
    refine .next ⟨⟨hp, hfc, hsym, hco, hci, hce, hbo, hcmd, ?_, hmoves⟩, hr⟩
    exact congrArg (fun c => { c with cf := tb }) hcfg
  | readStatus => exact .next h

theorem SameLive.withSchedule {s t : State} (h : SameLive s t) (r : List Move) :
    SameLive { s with schedule := r } { t with schedule := r } := by
  obtain ⟨⟨hp, hfc, hsym, hco, hci, hce, hbo, hcmd, hcfg, -, hre⟩, hr⟩ := h
  exact ⟨⟨hp, hfc, hsym, hco, hci, hce, hbo, hcmd, hcfg, rfl, hre⟩, hr⟩

theorem sameOutcome_step {s t : State} (h : SameLive s t) : SameOutcome (step s) (step t) := by
  have ⟨⟨_, _, _, _, _, _, _, _, _, hmoves, _⟩, _⟩ := h
  unfold step nextMove
  rw [← hmoves]
  cases s.schedule with
  | nil => exact sameOutcome_currentInstr h
  | cons m rest =>
    cases m with
    | core => exact sameOutcome_currentInstr (h.withSchedule rest)
    | host a => exact sameOutcome_hostAct (h.withSchedule rest) a

/-- Settles O50: the step answers two states that agree on their live registers alike. -/
theorem unspecifiedRegistersNeverReachOutput : Obligations.UnspecifiedRegistersNeverReachOutput :=
  fun _ _ s' h hs => sameOutcome_step h s' hs

end Sys2Proof.Machine
end

section
/-! PROOFS. Which operations write which registers (spec/10_state.md section 8, R20 to R32), read off `Effect`: each
lemma goes through the shapes of a next state in which its register may differ. -/

namespace Sys2Proof.Machine

section
variable {i : Instr} {s t : State}

/-- `LOWER` and `UPPER`: START, NARROW, RN_E1, RN_E3. -/
theorem Effect.interval_writer (h : Effect s i t) (hw : t.lower ≠ s.lower ∨ t.upper ≠ s.upper) :
    i ∈ [.startEnc, .startDec, .rnE3, .phIdle, .phDone, .phNarrow, .phRenorm] ∨
      (∃ x y, i = .rnE1b0 x y ∨ i = .rnE1b1 x y) := by
  cases h with
  | startEnc _ hi | startDec _ hi => grind
  | narrow => simp
  | determinateEnc _ _ _ _ _ _ _ hi | underflowEnc _ _ _ _ _ hi | consumeDec _ _ _ _ _ _ _ _ _ _ hi => grind
  | _ => simp at hw

theorem Effect.mode_writer (h : Effect s i t) (hw : t.mode ≠ s.mode) :
    i ∈ [.startEnc, .startDec, .phIdle, .phDone] := by
  cases h with
  | startEnc _ hi | startDec _ hi => grind
  | _ => exact absurd rfl hw

theorem Effect.ufc_writer (h : Effect s i t) (hw : t.ufc ≠ s.ufc) :
    i ∈ [.startEnc, .rnE3, .phIdle, .phDone, .phRenorm, .defer] ∨
      (∃ x y, i = .rnE1b0 x y ∨ i = .rnE1b1 x y ∨ i = .emit x) := by
  cases h with
  | startEnc _ hi => grind
  | determinateEnc _ _ _ _ _ _ _ hi | underflowEnc _ _ _ _ _ hi => grind
  | emit b => exact .inr ⟨b, false, .inr (.inr rfl)⟩
  | defer => simp
  | _ => exact absurd rfl hw

theorem Effect.window_writer (h : Effect s i t) (hw : t.window ≠ s.window) :
    i ∈ [.startDec, .rnE3, .phIdle, .phDone, .phRenorm, .phFill, .consumeShift, .consumeSplice] ∨
      (∃ x y, i = .rnE1b0 x y ∨ i = .rnE1b1 x y) := by
  cases h with
  | startDec _ hi => grind
  | consumeDec _ _ _ _ _ _ _ _ _ _ hi => grind
  | consume _ _ _ _ _ _ _ hi => obtain rfl | rfl := hi <;> simp
  | fill => simp
  | _ => exact absurd rfl hw

theorem Effect.latch_writer (h : Effect s i t) (hw : t.sym ≠ s.sym ∨ t.low ≠ s.low ∨ t.high ≠ s.high) :
    i ∈ [.fetchEof, .phFetch, .phSearch] ∨ ∃ v, i = .fetchByte v := by
  cases h with
  | fetch _ _ _ _ hi => grind
  | found | foundEof => simp
  | _ => simp at hw

theorem Effect.scale_writer (h : Effect s i t) (hw : t.range ≠ s.range ∨ t.scaled ≠ s.scaled) : i = .phScale := by
  cases h with
  | scale => rfl
  | _ => simp at hw

theorem Effect.fillcnt_writer (h : Effect s i t) (hw : t.fillcnt ≠ s.fillcnt) :
    i ∈ [.startDec, .phIdle, .phDone, .phFill] := by
  cases h with
  | startDec _ hi => grind
  | fill => simp
  | _ => exact absurd rfl hw

theorem Effect.packer_writer (h : Effect s i t) (hw : t.acc ≠ s.acc ∨ t.nbits ≠ s.nbits) :
    i ∈ [.startEnc, .phIdle, .phDone, .phRenorm, .phFinish, .padflush] ∨
      (∃ x y, i = .rnE1b0 x y ∨ i = .rnE1b1 x y ∨ i = .putbit x ∨ i = .emit x) := by
  cases h with
  | startEnc _ hi => grind
  | determinateEnc _ _ _ _ _ _ _ hi => grind
  | pack _ _ _ _ _ hi =>
    obtain ⟨rfl | ⟨b, rfl⟩, -⟩ | rfl := hi
    · simp
    · exact .inr ⟨b, false, .inr (.inr (.inl rfl))⟩
    · simp
  | emit b => exact .inr ⟨b, false, .inr (.inr (.inr rfl))⟩
  | _ => simp at hw

theorem Effect.lastbit_writer (h : Effect s i t) (hw : t.ibuf ≠ s.ibuf ∨ t.lastbit ≠ s.lastbit) :
    i ∈ [.rnE3, .phRenorm, .phFill, .getbit, .consumeShift, .consumeSplice] ∨
      (∃ x y, i = .rnE1b0 x y ∨ i = .rnE1b1 x y) := by
  cases h with
  | consumeDec _ _ _ _ _ _ _ _ _ _ hi => grind
  | consume _ _ _ _ _ _ _ hi => obtain rfl | rfl := hi <;> simp
  | getbit | fill => simp
  | _ => simp at hw

theorem Effect.icnt_writer (h : Effect s i t) (hw : t.icnt ≠ s.icnt ∨ t.havelast ≠ s.havelast) :
    i ∈ [.startDec, .rnE3, .phIdle, .phDone, .phRenorm, .phFill, .getbit, .consumeShift, .consumeSplice] ∨
      (∃ x y, i = .rnE1b0 x y ∨ i = .rnE1b1 x y) := by
  cases h with
  | startDec _ hi => grind
  | consumeDec _ _ _ _ _ _ _ _ _ _ hi => grind
  | consume _ _ _ _ _ _ _ hi => obtain rfl | rfl := hi <;> simp
  | getbit | fill => simp
  | _ => simp at hw

theorem mayFault_operations (h : mayFault i = true) :
    i ∈ [.startEnc, .startDec, .cmdReserved, .rnE3, .phIdle, .phFetch, .phNarrow, .phRenorm, .phFill, .phScale,
        .phSearch, .phDone, .getbit, .defer, .consumeShift, .consumeSplice] ∨
      (∃ v x y, i = .symIllegal v ∨ i = .rnE1b0 x y ∨ i = .rnE1b1 x y ∨ i = .rnUnreachable x y) := by
  cases i <;> simp_all [mayFault]

theorem Effect.fcode_writer (h : Effect s i t) (hw : t.fcode ≠ s.fcode) : t.phase = .fault ∧ mayFault i = true := by
  cases h with
  | fault _ _ _ _ hi => exact ⟨rfl, hi⟩
  | _ => exact absurd rfl hw

/-- A sub-operation by itself leaves `PHASE` alone unless it faults (log 13). -/
theorem Effect.phase_of_prim (h : Effect s i t) (hi : i.format = .prim) : t.phase = s.phase ∨ t.phase = .fault := by
  cases h with
  | fault => exact .inr rfl
  | same | nop | emit | defer | getbit | consume => exact .inl rfl
  | pack _ _ _ _ _ hp =>
    obtain ⟨-, rfl⟩ | rfl := hp
    · exact .inl rfl
    · cases hi
  | startEnc _ hm | startDec _ hm =>
    simp only [List.mem_cons, List.not_mem_nil, or_false] at hm
    obtain rfl | rfl | rfl := hm <;> cases hi
  | fetch _ _ _ _ hm =>
    simp only [List.mem_cons, List.not_mem_nil, or_false] at hm
    obtain (rfl | rfl) | ⟨v, rfl⟩ := hm <;> cases hi
  | determinateEnc _ _ _ _ _ _ _ hm => obtain rfl | ⟨x, y, rfl | rfl⟩ := hm <;> cases hi
  | underflowEnc _ _ _ _ _ hm => obtain rfl | rfl := hm <;> cases hi
  | consumeDec _ _ _ _ _ _ _ _ _ _ hm => obtain rfl | rfl | ⟨x, y, rfl | rfl⟩ := hm <;> cases hi
  | phase _ _ hm => obtain rfl | rfl | ⟨y, rfl⟩ := hm <;> cases hi
  | narrow | fill | scale | found | foundEof => cases hi

theorem Effect.renorm_enc_keeps (h : Effect s .phRenorm t) (hm : s.mode = .enc) :
    t.window = s.window ∧ t.ibuf = s.ibuf ∧ t.icnt = s.icnt ∧ t.codeIn = s.codeIn ∧ t.lastbit = s.lastbit ∧
      t.havelast = s.havelast := by
  cases h with
  | consumeDec _ _ _ _ _ _ _ _ _ hd => simp [hm] at hd
  | consume _ _ _ _ _ _ _ hi => simp at hi
  | startDec _ hi => simp at hi
  | _ => exact ⟨rfl, rfl, rfl, rfl, rfl, rfl⟩

theorem Effect.renorm_dec_keeps (h : Effect s .phRenorm t) (hm : s.mode = .dec) :
    t.ufc = s.ufc ∧ t.acc = s.acc ∧ t.nbits = s.nbits ∧ t.codeOut = s.codeOut := by
  cases h with
  | determinateEnc _ _ _ _ _ _ he => simp [hm] at he
  | underflowEnc _ _ _ _ he => simp [hm] at he
  | startEnc _ hi => simp at hi
  | pack _ _ _ _ _ hi => simp at hi
  | _ => exact ⟨rfl, rfl, rfl, rfl⟩

end

/-- Settles O48, register by register. -/
theorem registerWriters : Obligations.RegisterWriters := by
  intro i s t h
  have he := exec_effect h
  refine ⟨he.interval_writer, he.mode_writer, he.ufc_writer, he.window_writer, he.latch_writer, he.scale_writer,
    he.fillcnt_writer, he.packer_writer, he.lastbit_writer, he.icnt_writer, fun hw => ?_, fun hw => ?_, ?_, ?_⟩
  · obtain ⟨hp, hi⟩ := he.fcode_writer hw
    exact ⟨hp, mayFault_operations hi⟩
  · exact or_iff_not_imp_left.2 fun hi => (he.phase_of_prim (not_not.1 hi)).resolve_left hw
  · rintro rfl
    exact he.renorm_enc_keeps
  · rintro rfl
    exact he.renorm_dec_keeps

end Sys2Proof.Machine
end

section
/-! PROOFS. `STATUS` and reset (spec/10_state.md R26 to R29, R37). -/

namespace Sys2Proof.Machine

theorem status_phase (s : State) : s.status.extractLsb' 0 4 = s.phase.code := by
  rw [State.status, BitVec.extractLsb'_append_eq_right]

theorem status_mode (s : State) : s.status.extractLsb' 4 1 = s.mode.bit := by
  rw [State.status, BitVec.extractLsb'_append_eq_of_le (by decide), BitVec.extractLsb'_append_eq_right]

theorem status_fcode (s : State) : s.status.extractLsb' 5 3 = s.fcode.code := by
  rw [State.status, BitVec.extractLsb'_append_eq_of_le (by decide), BitVec.extractLsb'_append_eq_left]
theorem busy_iff (s : State) : s.busy = true ↔ s.phase ≠ .idle ∧ s.phase ≠ .done ∧ s.phase ≠ .fault := by
  simp [State.busy, and_assoc]

/-- FAULTED is the phase FAULT wherever `FCODE` is 0 exactly outside it (10 R29). -/
theorem faulted_iff {s : State} (h : s.fcode = .none ↔ s.phase ≠ .fault) :
    s.faulted = true ↔ s.phase = .fault := by
  simp [State.faulted, h]

/-- Settles O41: the fields of `STATUS` are read off the concatenation, FAULTED off the invariant's first part. -/
theorem statusShowsPhaseModeAndFault : Obligations.StatusShowsPhaseModeAndFault := by
  refine ⟨by decide, by decide, by decide, fun s => ?_⟩
  refine ⟨status_phase s, status_mode s, status_fcode s, rfl, busy_iff s, fun h => ?_⟩
  obtain ⟨hfault, -⟩ := h
  exact faulted_iff hfault

theorem resetState_afterReset (s : State) : ResetState s.afterReset :=
  ⟨rfl, rfl, rfl, Nat.mod_lt _ (Nat.two_pow_pos _)⟩

/-- Settles O45: what RESET leaves is `State.afterReset`. -/
theorem resetLeavesIdleAndPorts : Obligations.ResetLeavesIdleAndPorts := by
  refine ⟨fun s => ⟨s.afterReset, rfl, ?_⟩, rfl, rfl, rfl⟩
  exact ⟨rfl, rfl, rfl, rfl, rfl, rfl, rfl, rfl, rfl, resetState_afterReset s⟩

/-- In IDLE with no fault recorded the invariant asks only that the counter fit its width. -/
theorem ResetState.machineInv {s : State} (h : ResetState s) : MachineInv s := by
  obtain ⟨hp, hf, -, hu⟩ := h
  refine ⟨by simp [hp, hf], by simp [hf], hu, ?_, ?_⟩
  · simp [State.busy, hp]
  · simp [SessionInv, hp]

/-- Settles O55, from `ResetState.machineInv`. -/
theorem resetStatesSatisfyInvariant : Obligations.ResetStatesSatisfyInvariant :=
  ⟨fun _ h => h.machineInv, rfl, rfl, rfl, Nat.two_pow_pos 32⟩

end Sys2Proof.Machine
end

section
/-! PROOFS. The ports (spec/20_memory.md R60, R62, spec/10_state.md R33): what `Effect` leaves on each of them. -/

namespace Sys2Proof.Machine

section
variable {i : Instr} {s t : State}

/-- The oldest symbol code leaves `SYM_IN` in FETCH, or with a fault raised by its code. -/
theorem Effect.symIn_same_or_tail (h : Effect s i t) : t.symIn = s.symIn ∨ t.symIn = s.symIn.tail := by
  cases h with
  | fetch => exact .inr rfl
  | fault _ _ _ _ _ hs => exact hs
  | _ => exact .inl rfl

/-- The oldest byte leaves `CODE_IN` in the operations that take a stream bit. -/
theorem Effect.codeIn_same_or_tail (h : Effect s i t) : t.codeIn = s.codeIn ∨ t.codeIn = s.codeIn.tail := by
  cases h with
  | consumeDec _ _ _ _ _ _ _ _ _ _ _ hc | getbit _ _ _ _ _ hc | consume _ _ _ _ _ _ _ _ hc
  | fill _ _ _ _ _ _ _ _ hc => exact hc
  | _ => exact .inl rfl

/-- The oldest command leaves `CMD` when it is run, or with the fault it raises. -/
theorem Effect.cmd_same_or_tail (h : Effect s i t) : t.cmd = s.cmd ∨ t.cmd = s.cmd.tail := by
  cases h with
  | nop | startEnc | startDec => exact .inr rfl
  | fault _ _ _ _ _ _ hc => exact hc
  | _ => exact .inl rfl

theorem Effect.codeInEnd_eq (h : Effect s i t) : t.codeInEnd = s.codeInEnd := by
  cases h <;> rfl

/-- Only what puts a bit through the packer pushes to `CODE_OUT`. -/
theorem Effect.codeOut_append (h : Effect s i t) : ∃ new, t.codeOut = s.codeOut ++ new := by
  cases h with
  | determinateEnc _ _ _ _ _ _ _ _ hc | pack _ _ _ _ _ _ hc | emit _ _ _ _ hc => exact hc
  | _ => exact ⟨[], (List.append_nil _).symm⟩

/-- Only SEARCH pushes to `BYTE_OUT`, one byte. -/
theorem Effect.byteOut_same_or_push (h : Effect s i t) :
    t.byteOut = s.byteOut ∨ ∃ b, t.byteOut = s.byteOut ++ [b] := by
  cases h with
  | found b => exact .inr ⟨b, rfl⟩
  | _ => exact .inl rfl

end

/-- Settles O49, port by port. -/
theorem portsAreQueues : Obligations.PortsAreQueues := by
  intro i s t h
  have he := exec_effect h
  exact ⟨he.symIn_same_or_tail, he.codeIn_same_or_tail, he.cmd_same_or_tail, he.codeInEnd_eq, he.codeOut_append,
    he.byteOut_same_or_push⟩

end Sys2Proof.Machine
end

section
/-! PROOFS. A stream read bit by bit (spec/44_bit_channel.md R208), and FILL (spec/43_decoder.md R182, spec/20_memory.md
R55). `StreamTaken` says how far the stream has been read and is kept by GETBIT; `Filling` adds what FILL has put in the
window. -/

namespace Sys2Proof.Machine

/-! ## The stream as a function of the position -/

theorem streamBit_cons_of_lt {n : Nat} (b : Byte) (c : List Byte) (h : n < 8) :
    streamBit (b :: c) n = b.getLsbD n := by
  have hlen : n < 8 * (b :: c).length := by rw [List.length_cons]; omega
  rw [streamBit, if_pos hlen, Nat.div_eq_of_lt h, Nat.mod_eq_of_lt h, List.getD_cons_zero]

theorem streamBit_cons_add_eight {n : Nat} (b : Byte) (c : List Byte) (h : n < 8 * c.length) :
    streamBit (b :: c) (n + 8) = streamBit c n := by
  have hlen : n + 8 < 8 * (b :: c).length := by rw [List.length_cons]; omega
  rw [streamBit, if_pos hlen, streamBit, if_pos h, Nat.add_div_right n (by decide), Nat.add_mod_right,
    List.getD_cons_succ]

/-- Up to the stream's end, `streamBit` reads its bits in stream order. -/
theorem bytesBits_getElem {c : List Byte} {n : Nat} (h : n < (bytesBits c).length) :
    (bytesBits c)[n] = streamBit c n := by
  induction c generalizing n with
  | nil => cases h
  | cons b c ih =>
    simp only [bytesBits_cons]
    by_cases hn : n < 8
    · rw [List.getElem_append_left (by simpa using hn), byteBits_getElem, streamBit_cons_of_lt b c hn]
    · obtain ⟨m, rfl⟩ : ∃ m, n = m + 8 := ⟨n - 8, by omega⟩
      have hm : m < 8 * c.length := by
        rw [bytesBits_length, List.length_cons] at h
        omega
      rw [List.getElem_append_right (by simp), streamBit_cons_add_eight b c hm]
      exact ih (by simpa using hm)

theorem bytesBits_drop {c : List Byte} {n : Nat} (h : n < 8 * c.length) :
    (bytesBits c).drop n = streamBit c n :: (bytesBits c).drop (n + 1) := by
  have hlen : n < (bytesBits c).length := by rwa [bytesBits_length]
  rw [List.drop_eq_getElem_cons hlen, bytesBits_getElem]

theorem bytesBits_drop_of_le {c : List Byte} {n : Nat} (h : 8 * c.length ≤ n) : (bytesBits c).drop n = [] :=
  List.drop_of_length_le (by rwa [bytesBits_length])

/-- From its last bit on, the stream repeats that bit. -/
theorem streamBit_succ_of_le {c : List Byte} {n : Nat} (h : 8 * c.length ≤ n + 1) :
    streamBit c (n + 1) = streamBit c n := by
  rw [streamBit, if_neg (by omega)]
  by_cases hn : n < 8 * c.length
  · have hdiv : n / 8 = c.length - 1 := by omega
    have hmod : n % 8 = 7 := by omega
    rw [streamBit, if_pos hn, hdiv, hmod, List.getD_eq_getElem?_getD, ← List.getLast?_eq_getElem?,
      List.getLastD_eq_getLast?]
  · rw [streamBit, if_neg hn]

/-! ## Reading it -/

/-- The first `n` bits of the whole stream `c`, completed past its end by its last bit, have been taken (44 R208). -/
structure StreamTaken (c : List Byte) (n : Nat) (s : State) : Prop where
  icnt_le : s.icnt.toNat ≤ 8
  ended : s.codeInEnd = true
  left : bitsIn s = (bytesBits c).drop n
  last : ∀ k, n = k + 1 → s.havelast = true ∧ s.lastbit = streamBit c k

theorem streamTaken_zero {c : List Byte} {s : State} (hi : s.icnt = 0) (hc : s.codeIn = c) (he : s.codeInEnd = true) :
    StreamTaken c 0 s where
  icnt_le := by simp [hi]
  ended := he
  left := by simp [bitsIn, hi, hc]
  last := by simp

theorem StreamTaken.bitReady {c : List Byte} {n : Nat} {s : State} (h : StreamTaken c n s) (hc : c ≠ []) :
    BitReady s := by
  refine ⟨h.icnt_le, ?_⟩
  cases n with
  | zero => exact .inl (by simpa [h.left, bytesBits_eq_nil_iff] using hc)
  | succ k => exact .inr ⟨h.ended, (h.last k rfl).1⟩

/-- GETBIT takes the next bit of the stream. -/
theorem StreamTaken.getBit_next {c : List Byte} {n : Nat} {s : State} (h : StreamTaken c n s) (hc : c ≠ []) :
    ∃ u, getBit s = .bit (streamBit c n) u ∧ StreamTaken c (n + 1) u := by
  obtain ⟨b, u, hget, htook⟩ := getBit_of_ready s (h.bitReady hc)
  rw [TookBit, h.left] at htook
  by_cases hn : n < 8 * c.length
  · rw [bytesBits_drop hn] at htook
    obtain ⟨rfl, hleft, hicnt, hu⟩ := htook
    refine ⟨u, hget, hicnt, ?_, hleft, ?_⟩
    · rw [hu]
      exact h.ended
    · rintro k ⟨⟩
      rw [hu]
      exact ⟨rfl, rfl⟩
  · rw [bytesBits_drop_of_le (by omega)] at htook
    obtain ⟨rfl, rfl⟩ := htook
    have hpos : 0 < c.length := List.length_pos_iff.2 hc
    obtain ⟨k, rfl⟩ : ∃ k, n = k + 1 := ⟨n - 1, by omega⟩
    obtain ⟨hhave, hlast⟩ := h.last k rfl
    rw [hlast, ← streamBit_succ_of_le (by omega)] at hget
    refine ⟨u, hget, h.icnt_le, h.ended, ?_, ?_⟩
    · rw [h.left, bytesBits_drop_of_le (by omega), bytesBits_drop_of_le (by omega)]
    · rintro _ ⟨⟩
      exact ⟨hhave, by rw [hlast, streamBit_succ_of_le (by omega)]⟩

/-! ## FILL -/

theorem getBit_window {s u : State} {b : Bool} (h : getBit s = .bit b u) : u.window = s.window := by
  rw [(getBit_frame h).1]

theorem shiftIn_getLsbD_zero (w : Word) (b : Bool) : (shiftIn w b).getLsbD 0 = b := by
  simp [shiftIn]

theorem shiftIn_getLsbD_succ {j : Nat} (w : Word) (b : Bool) (h : j < 31) :
    (shiftIn w b).getLsbD (j + 1) = w.getLsbD j := by
  simp [shiftIn, h]

/-- FILL has put the first `n` bits of the stream `c` in the window, the newest at the low end (43 R182). -/
structure Filling (c : List Byte) (n : Nat) (s : State) : Prop where
  taken : StreamTaken c n s
  fillcnt_eq : s.fillcnt = BitVec.ofNat 6 n
  window_bit : ∀ k, k < n → s.window.getLsbD (n - 1 - k) = streamBit c k
  scale : n = 32 → s.phase = .scale

/-- What FILL writes once it has its bit. -/
theorem execPhFill_of_bit {b : Bool} {s u : State} (h : getBit s = .bit b u) :
    execPhFill s = .next { u with
      window := shiftIn u.window b, fillcnt := u.fillcnt + 1,
      phase := if u.fillcnt.toNat + 1 = 32 then .scale else .fill } := by
  rw [execPhFill, h, afterBit]

theorem execPhFill_filling {c : List Byte} {n : Nat} {s : State} (h : Filling c n s) (hc : c ≠ []) (hn : n < 32) :
    ∃ t, execPhFill s = .next t ∧ Filling c (n + 1) t := by
  obtain ⟨u, hget, htaken⟩ := h.taken.getBit_next hc
  have hcnt : u.fillcnt = BitVec.ofNat 6 n := (getBit_fillcnt hget).trans h.fillcnt_eq
  refine ⟨_, execPhFill_of_bit hget, ⟨htaken.icnt_le, htaken.ended, htaken.left, htaken.last⟩, ?_, ?_, ?_⟩
  · rw [hcnt, BitVec.ofNat_add]
    rfl
  · intro k hk
    rw [getBit_window hget, Nat.add_sub_cancel]
    obtain rfl | hlt := Nat.eq_or_lt_of_le (Nat.le_of_lt_succ hk)
    · rw [Nat.sub_self, shiftIn_getLsbD_zero]
    · rw [show n - k = n - 1 - k + 1 by omega, shiftIn_getLsbD_succ _ _ (by omega), h.window_bit k hlt]
  · intro hlast
    refine if_pos ?_
    rw [hcnt, BitVec.toNat_ofNat, Nat.mod_eq_of_lt (by omega), hlast]

theorem execAll_phFill_filling {c : List Byte} {n : Nat} {s : State} (m : Nat) (h : Filling c n s) (hc : c ≠ [])
    (hm : n + m ≤ 32) : ∃ t, execAll (List.replicate m .phFill) s = some t ∧ Filling c (n + m) t := by
  induction m generalizing n s with
  | zero => exact ⟨s, rfl, h⟩
  | succ m ih =>
    obtain ⟨u, hu, hfill⟩ := execPhFill_filling h hc (by omega)
    have hexec : exec .phFill s = .next u := hu
    obtain ⟨t, ht, hend⟩ := ih hfill (by omega)
    refine ⟨t, ?_, by rwa [Nat.add_right_comm] at hend⟩
    rw [List.replicate_succ, execAll, hexec]
    exact ht

/-- Settles O37: thirty-two steps of `Filling` from an empty fill. -/
theorem fillLoadsWindowMostSignificantFirst : Obligations.FillLoadsWindowMostSignificantFirst := by
  intro s c hc hfill hicnt _ hin hend
  have hstart : Filling c 0 s := ⟨streamTaken_zero hicnt hin hend, hfill, by simp, by simp⟩
  obtain ⟨t, ht, hfilled⟩ := execAll_phFill_filling 32 hstart hc (by decide)
  exact ⟨t, ht, hfilled.scale rfl, hfilled.fillcnt_eq, fun k => hfilled.window_bit k.val k.isLt⟩

end Sys2Proof.Machine
end

section
/-! PROOFS. The four code formats (spec/30_encoding.md R80 to R88): which codes decode, and that `decode` and `encode`
undo each other. `Selects` says once what `decode` answers. -/

namespace Sys2Proof

/-- The code `w` of format `f` selects the operation `i`: each format with its own decoder (30 R80). -/
inductive Selects : Format → Nat → Instr → Prop where
  | cmd (c : CmdCode) : Selects .cmd c.toNat (decodeCmd c).toInstr
  | sym (c : SymCode) : Selects .sym c.toNat (decodeSym c).toInstr
  | rn (p : BitVec 4) : Selects .rn p.toNat (decodeRn p).toInstr
  | ph (p : BitVec 4) : Selects .ph p.toNat (decodePh p)

theorem Selects.fits {f : Format} {w : Nat} {i : Instr} (h : Selects f w i) : f ≠ .prim ∧ w < 2 ^ f.width := by
  cases h with
  | cmd c | sym c => exact ⟨by decide, c.isLt⟩
  | rn p | ph p => exact ⟨by decide, p.isLt⟩

theorem Selects.decode_eq {f : Format} {w : Nat} {i : Instr} (h : Selects f w i) : decode f w = .ok i := by
  obtain ⟨hf, hw⟩ := h.fits
  rw [decode.eq_def, if_neg hf, if_neg (Nat.not_le.2 hw)]
  cases h <;> simp

/-- Every code that fits its format's width selects an operation. -/
theorem exists_selects {f : Format} {w : Nat} (hf : f ≠ .prim) (h : w < 2 ^ f.width) : ∃ i, Selects f w i := by
  cases f with
  | cmd => exact ⟨_, .cmd (BitVec.ofNatLT w h)⟩
  | sym => exact ⟨_, .sym (BitVec.ofNatLT w h)⟩
  | rn => exact ⟨_, .rn (BitVec.ofNatLT w h)⟩
  | ph => exact ⟨_, .ph (BitVec.ofNatLT w h)⟩
  | prim => exact absurd rfl hf

theorem fits_of_decode {f : Format} {w : Nat} {i : Instr} (h : decode f w = .ok i) : f ≠ .prim ∧ w < 2 ^ f.width := by
  unfold decode at h
  split at h
  · cases h
  next hf =>
    split at h
    · cases h
    next hw => exact ⟨hf, Nat.lt_of_not_le hw⟩

theorem decode_eq_ok_iff {f : Format} {w : Nat} {i : Instr} : decode f w = .ok i ↔ Selects f w i := by
  refine ⟨fun h => ?_, Selects.decode_eq⟩
  obtain ⟨hf, hw⟩ := fits_of_decode h
  obtain ⟨j, hj⟩ := exists_selects hf hw
  obtain rfl : j = i := Except.ok.inj (hj.decode_eq.symm.trans h)
  exact hj

/-! ## From a code to the operation and back -/

/-- All that a symbol code can be (30 R82, R83). -/
theorem decodeSym_cases (c : SymCode) :
    (decodeSym c = .byte (c.setWidth 8) ∧ c.toNat < 256) ∨ (decodeSym c = .eof ∧ c.toNat = 256) ∨
      (decodeSym c = .illegal (c.setWidth 8) ∧ 256 < c.toNat) := by
  rcases Nat.lt_trichotomy c.toNat 256 with hlt | heq | hgt
  · have hc : (c.setWidth 8).setWidth 9 = c := by
      apply BitVec.eq_of_toNat_eq
      simp only [BitVec.toNat_setWidth]
      omega
    have hd := decodeSym_byte (c.setWidth 8)
    rw [hc] at hd
    exact .inl ⟨hd, hlt⟩
  · have hc : c = 256#9 := BitVec.eq_of_toNat_eq heq
    exact .inr (.inl ⟨hc ▸ decodeSym_eof, heq⟩)
  · exact .inr (.inr ⟨decodeSym_illegal c hgt, hgt⟩)

theorem decodeSym_toInstr (c : SymCode) : encode (decodeSym c).toInstr = c.toNat := by
  have hc := c.isLt
  obtain ⟨hd, hlt⟩ | ⟨hd, heq⟩ | ⟨hd, hgt⟩ := decodeSym_cases c
  · rw [hd]
    change (c.setWidth 8).toNat = c.toNat
    rw [BitVec.toNat_setWidth, Nat.mod_eq_of_lt hlt]
  · rw [hd]
    exact heq.symm
  · rw [hd]
    change 256 + (c.setWidth 8).toNat = c.toNat
    rw [BitVec.toNat_setWidth]
    omega

theorem decodeSym_wellFormed (c : SymCode) :
    (decodeSym c).toInstr.wellFormed = true ∧ (decodeSym c).toInstr.format = .sym := by
  obtain ⟨hd, -⟩ | ⟨hd, -⟩ | ⟨hd, hgt⟩ := decodeSym_cases c
  · rw [hd]
    exact ⟨rfl, rfl⟩
  · rw [hd]
    exact ⟨rfl, rfl⟩
  · have hv : (c.setWidth 8).toNat ≠ 0 := by
      have hc := c.isLt
      rw [BitVec.toNat_setWidth]
      omega
    rw [hd]
    exact ⟨bne_iff_ne.2 fun h0 => hv (congrArg BitVec.toNat h0), rfl⟩

theorem decodeCmd_wellFormed (c : CmdCode) :
    (decodeCmd c).toInstr.wellFormed = true ∧ (decodeCmd c).toInstr.format = .cmd := by
  cases decodeCmd c <;> exact ⟨rfl, rfl⟩

theorem decodeRn_wellFormed (p : BitVec 4) :
    (decodeRn p).toInstr.wellFormed = true ∧ (decodeRn p).toInstr.format = .rn := by
  cases decodeRn p <;> exact ⟨rfl, rfl⟩

theorem decodePh_wellFormed (p : BitVec 4) : (decodePh p).wellFormed = true ∧ (decodePh p).format = .ph := by
  revert p
  decide

theorem Selects.encode_eq {f : Format} {w : Nat} {i : Instr} (h : Selects f w i) :
    i.wellFormed = true ∧ i.format = f ∧ encode i = w := by
  cases h with
  | cmd c =>
    obtain ⟨hwf, hfmt⟩ := decodeCmd_wellFormed c
    exact ⟨hwf, hfmt, decodeCmd_toInstr c⟩
  | sym c =>
    obtain ⟨hwf, hfmt⟩ := decodeSym_wellFormed c
    exact ⟨hwf, hfmt, decodeSym_toInstr c⟩
  | rn p =>
    obtain ⟨hwf, hfmt⟩ := decodeRn_wellFormed p
    exact ⟨hwf, hfmt, decodeRn_toInstr p⟩
  | ph p =>
    obtain ⟨hwf, hfmt⟩ := decodePh_wellFormed p
    exact ⟨hwf, hfmt, decodePh_encode p⟩

/-- Settles O52, from `Selects.encode_eq` and, for every code that fits, `exists_selects`. -/
theorem encodeUndoesDecode : Obligations.EncodeUndoesDecode := by
  refine ⟨fun f w i h => (decode_eq_ok_iff.1 h).encode_eq, fun f w hf hw => ?_⟩
  obtain ⟨i, hi⟩ := exists_selects hf hw
  exact ⟨i, hi.decode_eq⟩

/-! ## From an operation to its code and back

An operation that some code selects is selected by its own code, by `Selects.encode_eq`; so it is enough to find for
each operation some code that selects it. -/

theorem Selects.selects_encode {f : Format} {w : Nat} {i : Instr} (h : Selects f w i) :
    Selects i.format (encode i) i := by
  obtain ⟨-, hfmt, henc⟩ := h.encode_eq
  rwa [hfmt, henc]

/-- The code of the illegal symbol `v` is 1 followed by `v` (30 R83). -/
theorem decodeSym_cons_true {v : Byte} (hv : v ≠ 0) : decodeSym (BitVec.cons true v) = .illegal v := by
  have hcode : (BitVec.cons true v).toNat = 256 + v.toNat := by
    rw [BitVec.toNat_cons']
    rfl
  have hpos : v.toNat ≠ 0 := fun h => hv (BitVec.eq_of_toNat_eq h)
  rw [decodeSym_illegal _ (by omega), BitVec.setWidth_cons]

/-- Each row of 30 R85 is met by a pattern with any values of the bits the row leaves free. -/
theorem exists_decodeRn (o : RnOp) : ∃ p, decodeRn p = o := by
  cases o with
  | e1b0 x y => exact ⟨BitVec.ofNat 4 (rnBits false x false y), by cases x <;> cases y <;> rfl⟩
  | e1b1 x y => exact ⟨BitVec.ofNat 4 (rnBits true x true y), by cases x <;> cases y <;> rfl⟩
  | e3 => exact ⟨0b0110#4, rfl⟩
  | term001 y => exact ⟨BitVec.ofNat 4 (rnBits false false true y), by cases y <;> rfl⟩
  | term0111 => exact ⟨0b0111#4, rfl⟩
  | unreachable x y => exact ⟨BitVec.ofNat 4 (rnBits true x false y), by cases x <;> cases y <;> rfl⟩

theorem exists_selects_sym {c : SymCode} {o : SymOp} (h : decodeSym c = o) : ∃ f w, Selects f w o.toInstr := by
  rw [← h]
  exact ⟨_, _, .sym c⟩

theorem exists_selects_rn (o : RnOp) : ∃ f w, Selects f w o.toInstr := by
  obtain ⟨p, rfl⟩ := exists_decodeRn o
  exact ⟨_, _, .rn p⟩

/-- The unused phase code with operand `p` is 1 followed by `p` (30 R86). -/
theorem decodePh_cons_true {p : BitVec 3} (hp : p ≠ 0 ∧ p ≠ 7) : decodePh (BitVec.cons true p) = .phUnused p := by
  revert p
  decide

/-- Every well-formed operation that has a code is selected by some code: the rows of 30 R81 to R86. -/
theorem exists_selects_of_wellFormed {i : Instr} (hw : i.wellFormed = true) (hf : i.format ≠ .prim) :
    ∃ f w, Selects f w i := by
  cases i with
  | nop => exact ⟨_, _, .cmd 0b00#2⟩
  | startEnc => exact ⟨_, _, .cmd 0b01#2⟩
  | startDec => exact ⟨_, _, .cmd 0b10#2⟩
  | cmdReserved => exact ⟨_, _, .cmd 0b11#2⟩
  | fetchByte v => exact exists_selects_sym (decodeSym_byte v)
  | fetchEof => exact ⟨_, _, .sym 256#9⟩
  | symIllegal v => exact exists_selects_sym (decodeSym_cons_true (bne_iff_ne.1 hw))
  | rnE1b0 x y => exact exists_selects_rn (.e1b0 x y)
  | rnE1b1 x y => exact exists_selects_rn (.e1b1 x y)
  | rnE3 => exact exists_selects_rn .e3
  | rnTerm001 y => exact exists_selects_rn (.term001 y)
  | rnTerm0111 => exact exists_selects_rn .term0111
  | rnUnreachable x y => exact exists_selects_rn (.unreachable x y)
  | phIdle => exact ⟨_, _, .ph 0⟩
  | phFetch => exact ⟨_, _, .ph 1⟩
  | phNarrow => exact ⟨_, _, .ph 2⟩
  | phRenorm => exact ⟨_, _, .ph 3⟩
  | phFinish => exact ⟨_, _, .ph 4⟩
  | phFill => exact ⟨_, _, .ph 5⟩
  | phScale => exact ⟨_, _, .ph 6⟩
  | phSearch => exact ⟨_, _, .ph 7⟩
  | phDone => exact ⟨_, _, .ph 8⟩
  | phFault => exact ⟨_, _, .ph 15⟩
  | phUnused p =>
    have hp : p ≠ 0 ∧ p ≠ 7 := by simpa [Instr.wellFormed] using hw
    rw [← decodePh_cons_true hp]
    exact ⟨_, _, .ph _⟩
  | lookup _ | putbit _ | padflush | getbit | emit _ | defer | consumeShift | consumeSplice => exact absurd rfl hf

/-- Settles O51: some code selects the operation, hence its own code does. -/
theorem decodeUndoesEncode : Obligations.DecodeUndoesEncode := by
  intro i hw hf
  obtain ⟨f, w, h⟩ := exists_selects_of_wellFormed hw hf
  exact h.selects_encode.decode_eq

/-- Settles O53: the ten codes evaluated. -/
theorem sampleCodesDecode : Obligations.SampleCodesDecode :=
  ⟨rfl, rfl, rfl, rfl, rfl, rfl, rfl, rfl, rfl, rfl⟩

end Sys2Proof
end

section
/-! PROOFS. The operation a code selects and the one the machine runs (spec/30_encoding.md R84 to R91): the pattern of
the interval registers, and a code put where the next step reads it. -/

namespace Sys2Proof.Machine

/-! ## The pattern of the interval registers -/

theorem decodeRn_of_determinate {b : Bool} {l u : Word} (h : Determinate b l u) :
    decodeRn (rnPattern l u) =
      if b then .e1b1 (l.getLsbD 30) (u.getLsbD 30) else .e1b0 (l.getLsbD 30) (u.getLsbD 30) := by
  obtain ⟨hl, hu⟩ := h
  rw [rnPattern_decode, hl, hu, if_pos rfl]

theorem decodeRn_of_straddles {l u : Word} (h : Straddles l u) : decodeRn (rnPattern l u) = .e3 := by
  obtain ⟨hl, hl', hu, hu'⟩ := h
  rw [rnPattern_decode, hl, hl', hu, hu']
  rfl

theorem decodeRn_of_terminal {l u : Word} (h : Terminal l u) :
    decodeRn (rnPattern l u) = .term0111 ∨ decodeRn (rnPattern l u) = .term001 (u.getLsbD 30) := by
  obtain ⟨hl, hu, hend⟩ := h
  rw [rnPattern_decode, hl, hu]
  cases hl' : l.getLsbD 30 with
  | false => exact .inr rfl
  | true =>
    rw [hl'] at hend
    rw [hend.resolve_left Bool.noConfusion]
    exact .inl rfl

/-- An interval in order meets one of the three conditions of 41 R136, R138 and R140: the top bits 1 and 0 would put
`UPPER` below `LOWER` (41 R141). -/
theorem pattern_cases_of_le {l u : Word} (h : l ≤ u) :
    (∃ b, Determinate b l u) ∨ Straddles l u ∨ Terminal l u := by
  obtain hb | hs | ht | ⟨hl, hu⟩ := pattern_cases l u
  · exact .inl hb
  · exact .inr (.inl hs)
  · exact .inr (.inr ht)
  · rw [getLsbD_31_iff] at hl
    rw [getLsbD_31_eq_false_iff] at hu
    rw [BitVec.le_def] at h
    omega

theorem decodeRn_ne_unreachable {l u : Word} (h : l ≤ u) (x y : Bool) :
    decodeRn (rnPattern l u) ≠ .unreachable x y := by
  obtain ⟨b, hb⟩ | hs | ht := pattern_cases_of_le h
  · rw [decodeRn_of_determinate hb]
    cases b <;> exact RnOp.noConfusion
  · rw [decodeRn_of_straddles hs]
    exact RnOp.noConfusion
  · obtain hd | hd := decodeRn_of_terminal ht
    · rw [hd]
      exact RnOp.noConfusion
    · rw [hd]
      exact RnOp.noConfusion

/-- Settles O18, condition by condition. -/
theorem patternSelectsOperation : Obligations.PatternSelectsOperation :=
  fun _ _ => ⟨decodeRn_of_determinate, decodeRn_of_determinate, decodeRn_of_straddles, decodeRn_of_terminal,
    pattern_cases_of_le, decodeRn_ne_unreachable⟩

/-! ## The code at the head of a port is the operation that runs -/

theorem step_of_phase {s : State} {q : Phase} (hp : s.phase = q) (hs : s.schedule = []) (hf : s.fcode = .none) :
    step s = exec q.instr s := by
  have hi : currentInstr s = q.instr := by rw [currentInstr, if_pos hf, hp]
  rw [step, nextMove, hs, ← hi]

/-- In IDLE and DONE the oldest command runs (45 R222). -/
theorem exec_of_cmd_cons {s : State} {q : Phase} {c : CmdCode} {rest : List CmdCode} (hq : q = .idle ∨ q = .done)
    (h : s.cmd = c :: rest) : exec q.instr s = exec (decodeCmd c).toInstr s := by
  have hrun : exec q.instr s = consumeCommand s := by
    obtain rfl | rfl := hq
    · rfl
    · rfl
  rw [hrun, consumeCommand, h]
  dsimp only
  cases decodeCmd c <;> rfl

/-- In FETCH the oldest symbol code runs (42 R162). -/
theorem execPhFetch_cons {s : State} {c : SymCode} {rest : List SymCode} (h : s.symIn = c :: rest) :
    execPhFetch s = exec (decodeSym c).toInstr s := by
  rw [execPhFetch, h]
  dsimp only
  cases decodeSym c <;> rfl

/-- In RENORM the operation of the pattern runs (30 R85). -/
theorem execPhRenorm_eq (s : State) : execPhRenorm s = exec (decodeRn (rnPattern s.lower s.upper)).toInstr s := by
  rw [execPhRenorm]
  cases decodeRn (rnPattern s.lower s.upper) <;> rfl

/-! ## Placing a code -/

theorem placeCode_cmd_cmd (c : CmdCode) (s : State) : (placeCode .cmd c.toNat s).cmd = c :: s.cmd := by
  simp [placeCode]

theorem placeCode_cmd_phase (w : Nat) (s : State) :
    (placeCode .cmd w s).phase = .idle ∨ (placeCode .cmd w s).phase = .done := by
  by_cases h : s.phase = .done <;> simp [placeCode, h]

theorem placeCode_sym_symIn (c : SymCode) (s : State) : (placeCode .sym c.toNat s).symIn = c :: s.symIn := by
  simp [placeCode]

@[simp] theorem withTopBits_getLsbD_31 (b31 b30 : Bool) (w : Word) : (withTopBits b31 b30 w).getLsbD 31 = b31 := by
  simp [withTopBits, BitVec.getElem_cons]

@[simp] theorem withTopBits_getLsbD_30 (b31 b30 : Bool) (w : Word) : (withTopBits b31 b30 w).getLsbD 30 = b30 := by
  simp [withTopBits, BitVec.getElem_cons]

/-- The four bits placed at the tops of `LOWER` and `UPPER` are the pattern they show (30 R84). -/
theorem placeCode_rn_pattern (p : BitVec 4) (s : State) :
    rnPattern (placeCode .rn p.toNat s).lower (placeCode .rn p.toNat s).upper = p := by
  simp only [placeCode, rnPattern, withTopBits_getLsbD_31, withTopBits_getLsbD_30]
  revert p
  decide

theorem placeCode_ph_of_phase {p : BitVec 4} {q : Phase} (h : phaseOfCode p = some q) (s : State) :
    placeCode .ph p.toNat s = { s with phase := q, fcode := .none, schedule := [] } := by
  simp [placeCode, h]

/-- `decodePh` gives a phase code the operation of the phase it names, and PH_UNUSED to the codes that name none. -/
theorem decodePh_eq_elim (p : BitVec 4) :
    decodePh p = (phaseOfCode p).elim (.phUnused (p.setWidth 3)) Phase.instr := by
  revert p
  decide

/-- A phase code that is not refused names a phase (30 R86). -/
theorem exists_phaseOfCode {p : BitVec 4} (h : ∀ v, decodePh p ≠ .phUnused v) :
    ∃ q, phaseOfCode p = some q ∧ decodePh p = q.instr := by
  rw [decodePh_eq_elim] at h ⊢
  cases hq : phaseOfCode p with
  | none => exact absurd (by rw [hq]; rfl) (h (p.setWidth 3))
  | some q => exact ⟨q, rfl, rfl⟩

/-- Settles O3: the placed code stands where the phase that `placeCode` sets reads it, format by format. -/
theorem placedCodeIsRunNext : Obligations.PlacedCodeIsRunNext := by
  intro f w i s h hused
  cases decode_eq_ok_iff.1 h with
  | cmd c =>
    rw [step_of_phase rfl rfl rfl]
    exact exec_of_cmd_cons (placeCode_cmd_phase _ s) (placeCode_cmd_cmd c s)
  | sym c =>
    rw [step_of_phase (q := .fetch) rfl rfl rfl]
    exact execPhFetch_cons (placeCode_sym_symIn c s)
  | rn p =>
    rw [step_of_phase (q := .renorm) rfl rfl rfl]
    refine (execPhRenorm_eq _).trans ?_
    rw [placeCode_rn_pattern]
  | ph p =>
    obtain ⟨q, hq, hdec⟩ := exists_phaseOfCode hused
    rw [hdec, placeCode_ph_of_phase hq]
    exact step_of_phase rfl rfl rfl

/-- Settles O44: the refusal is the meaning of `phUnused`, whatever the state (log 8). -/
theorem unusedPhaseCodesRefused : Obligations.UnusedPhaseCodesRefused :=
  fun _ _ => rfl

end Sys2Proof.Machine
end

section
/-! PROOFS. The frequency model (spec/40_frequency_model.md R111 to R119): the two named tables, the ranges a valid
table gives the symbols, and that no move but the host's replacement changes the table (spec/20_memory.md R65). -/

namespace Sys2Proof.Machine

/-! ## The named tables -/

theorem cfSafe_cfLetters52 : CFSafe cfLetters52 :=
  ⟨cfValid_of_isChain (by decide +kernel) (by decide +kernel), by decide +kernel⟩

theorem cfSafe_cfRange58 : CFSafe cfRange58 :=
  ⟨cfValid_of_isChain (by decide +kernel) (by decide +kernel), by decide +kernel⟩

/-- Settles O11: the check of each table in one pass, the two totals and two of the ranges read off. -/
theorem namedTablesAreSafe : Obligations.NamedTablesAreSafe :=
  ⟨cfSafe_cfLetters52, cfSafe_cfRange58, by decide +kernel, by decide +kernel, by decide +kernel, by decide +kernel⟩

/-! ## The ranges under a valid table -/

/-- Settles O12: LOOKUP reads the two boundaries; at the first symbol the lower one is `CF[0]`, at the last the upper
one is `TOTAL`. -/
theorem lookupGivesBoundaries : Obligations.LookupGivesBoundaries := by
  refine fun s x => ⟨rfl, rfl, fun h => ?_⟩
  have ⟨hzero, _⟩ := h
  exact ⟨hzero, rfl, lowOf_lt_highOf _ h x, highOf_le_total _ h x⟩

/-- Each boundary is above the one before it, so it is at least its index (40 R112). -/
theorem index_le_cfAt {t : Table} (h : CFValid t) (i : TableIndex) : i.val ≤ (cfAt t i).toNat := by
  induction i using Fin.induction with
  | zero => exact Nat.zero_le _
  | succ i ih => exact Nat.succ_le_of_lt (ih.trans_lt (lowOf_lt_highOf t h i))

/-- The ranges cover exactly the positions below `TOTAL`, each once. A position below `TOTAL`
fits a word, and `existsUnique_symbol` speaks of words. -/
theorem existsUnique_symbol_iff {t : Table} (h : CFValid t) (q : Nat) :
    (∃! x : Symbol, (lowOf t x).toNat ≤ q ∧ q < (highOf t x).toNat) ↔ q < (total t).toNat := by
  constructor
  · rintro ⟨x, ⟨-, hq⟩, -⟩
    exact hq.trans_le (highOf_le_total t h x)
  · intro hq
    exact existsUnique_symbol t h (BitVec.ofNatLT q (hq.trans (total t).isLt)) hq

/-- Settles O13: the boundaries are strictly increasing from 0 to `TOTAL`. -/
theorem rangesPartitionPositions : Obligations.RangesPartitionPositions :=
  fun t h => ⟨index_le_cfAt h, total_ge t h, fun x => ⟨lowOf_lt_highOf t h x, highOf_le_total t h x⟩,
    existsUnique_symbol_iff h⟩

/-! ## Who writes the table -/

/-- No shape of a next state has another table or counter width. -/
theorem Effect.cfg_eq {i : Instr} {s t : State} (h : Effect s i t) : t.cfg = s.cfg := by
  cases h <;> rfl

/-- Of the host's moves only the replacement writes the table, which outside IDLE and DONE is refused (log 6). -/
theorem hostAct_cfg_cases {a : HostAction} {s t : State} (h : hostAct a s = .next t) :
    t.cfg = s.cfg ∨
      ∃ tb, a = .loadTable tb ∧ (s.phase = .idle ∨ s.phase = .done) ∧ t.cfg = { s.cfg with cf := tb } := by
  cases a with
  | loadTable tb =>
    simp only [hostAct] at h
    split at h
    next hp =>
      cases h
      exact .inr ⟨tb, rfl, hp, rfl⟩
    · cases h
  | code b | emptyPorts =>
    simp only [hostAct] at h
    split at h <;> cases h
    exact .inl rfl
  | _ =>
    cases h
    exact .inl rfl

/-- Settles O47: an operation's next state is one of the shapes of `Effect`; a move is an operation or the host's. -/
theorem tableIsNeverWritten : Obligations.TableIsNeverWritten := by
  refine ⟨fun i s t h => (exec_effect h).cfg_eq, fun s t h => ?_⟩
  obtain ⟨r, he⟩ | ⟨a, r, hs, he⟩ := step_cases s <;> rw [he] at h
  · have hkeep := (exec_effect h).cfg_eq
    exact .inl hkeep
  · obtain hkeep | ⟨tb, rfl, hload⟩ := hostAct_cfg_cases h
    · exact .inl hkeep
    · exact .inr ⟨tb, by rw [hs, List.head?_cons], hload⟩

end Sys2Proof.Machine
end

section
/-! PROOFS. NARROW (spec/41_interval_coder.md R131 to R133): the exact quotients, the width a weight receives, and the
partition of the interval. -/

namespace Sys2Proof.Machine

theorem intervalRange_eq {l u : Word} (h : l ≤ u) : u.toNat - l.toNat + 1 = intervalRange l u := by
  rw [BitVec.le_def] at h
  unfold intervalRange
  omega

theorem execPhNarrow_of_some {s : State} {l u : Word}
    (h : narrowed s.lower s.upper s.low s.high (total s.cfg.cf) = some (l, u)) :
    execPhNarrow s = .next { s with lower := l, upper := u, phase := .renorm } := by
  rw [execPhNarrow, h]

theorem execPhNarrow_of_none {s : State} (h : narrowed s.lower s.upper s.low s.high (total s.cfg.cf) = none) :
    execPhNarrow s = raiseFault .invariant s := by
  rw [execPhNarrow, h]

theorem narrowed_eq_none {l u low high tot : Word} (h : narrowEnd l u high tot ≤ narrowLow l u low tot) :
    narrowed l u low high tot = none :=
  if_neg fun hlt => absurd hlt.1 (Nat.not_lt.2 h)

/-- The first symbol's sub-interval begins at `LOWER` (41 R133). -/
theorem narrowLow_zero (l u tot : Word) : narrowLow l u 0 tot = l.toNat := by
  simp [narrowLow]

/-- The last symbol's sub-interval ends at `UPPER` (41 R133). -/
theorem narrowEnd_total {l u tot : Word} (hle : l ≤ u) (ht : 0 < tot.toNat) :
    narrowEnd l u tot tot = u.toNat + 1 := by
  rw [BitVec.le_def] at hle
  rw [narrowEnd, Nat.mul_div_cancel _ ht, intervalRange]
  omega

/-- Settles O15: the quotients of the statement are those of `narrowLow` and `narrowEnd`, which differ or do not. -/
theorem narrowStoresExactQuotients : Obligations.NarrowStoresExactQuotients := by
  intro s hle hlh hht
  rw [BitVec.lt_def] at hlh
  rw [BitVec.le_def] at hht
  have htot : 0 < (total s.cfg.cf).toNat := by omega
  rw [intervalRange_eq hle]
  refine ⟨fun hr => ?_, fun hq => ?_, fun hq => ?_⟩
  · exact Nat.lt_of_add_lt_add_left (narrow_nonempty s.lower s.upper _ _ _ hlh htot hr)
  · have hne : narrowLow s.lower s.upper s.low (total s.cfg.cf) < narrowEnd s.lower s.upper s.high (total s.cfg.cf) :=
      Nat.add_lt_add_left hq _
    obtain ⟨hl0, hu0⟩ := narrow_nested s.lower s.upper s.low s.high (total s.cfg.cf) hle hht
    have hupper := s.upper.isLt
    obtain ⟨l, u, hn, hl, hu⟩ := narrowed_eq_some s.lower s.upper s.low s.high (total s.cfg.cf) hne (by omega)
    have hnest : s.lower ≤ l ∧ l ≤ u ∧ u ≤ s.upper := by
      simp only [BitVec.le_def]
      omega
    obtain ⟨hsl, hlu, hus⟩ := hnest
    refine ⟨_, execPhNarrow_of_some hn, hl, hu, hsl, hlu, hus, fun h0 => ?_, fun ht => ?_, rfl⟩
    · rw [h0, narrowLow_zero] at hl
      exact BitVec.eq_of_toNat_eq hl
    · rw [ht, narrowEnd_total hle htot] at hu
      exact BitVec.eq_of_toNat_eq (Nat.succ.inj hu)
  · exact execPhNarrow_of_none (narrowed_eq_none (Nat.add_le_add_left hq.ge _))

/-- The floors of two products and of the product of their difference (41 R133). -/
theorem div_sub_div_eq (r a b c : Nat) (hab : a ≤ b) (hc : 0 < c) :
    r * b / c - r * a / c = r * (b - a) / c ∨ r * b / c - r * a / c = r * (b - a) / c + 1 := by
  have hsum : r * b = r * a + r * (b - a) := by rw [← Nat.mul_add, Nat.add_sub_cancel' hab]
  rw [hsum, Nat.add_div hc, Nat.add_assoc, Nat.add_sub_cancel_left]
  split
  · exact .inr rfl
  · exact .inl rfl

/-- Settles O16: the width is the difference of the two quotients. -/
theorem narrowedWidthFollowsWeight : Obligations.NarrowedWidthFollowsWeight := by
  intro s t hle hlh hht hstep hp
  rw [BitVec.lt_def] at hlh
  rw [BitVec.le_def] at hht
  obtain ⟨l, u, hn, rfl⟩ | ⟨-, rfl⟩ := execPhNarrow_cases hstep
  · obtain ⟨hl, hu, hlu⟩ := narrowed_inv _ _ _ _ _ _ _ hn
    have hdiv := div_sub_div_eq (intervalRange s.lower s.upper) s.low.toNat s.high.toNat (total s.cfg.cf).toNat
      hlh.le (by omega)
    have hwidth : u.toNat - l.toNat + 1 = intervalRange s.lower s.upper * s.high.toNat / (total s.cfg.cf).toNat -
        intervalRange s.lower s.upper * s.low.toNat / (total s.cfg.cf).toNat := by
      rw [BitVec.le_def] at hlu
      unfold narrowLow at hl
      unfold narrowEnd at hu
      omega
    rw [intervalRange_eq hle, hwidth]
    exact hdiv
  · cases hp

/-- Settles O17: inside the interval, a value's scaled position decides whose sub-interval it lies in (43 R184), and the
symbols partition the positions (40 R112). -/
theorem subIntervalsPartitionInterval : Obligations.SubIntervalsPartitionInterval := by
  intro t l u w ht hle within
  have hinside (x : Symbol) (hx : within x) : l ≤ w ∧ w ≤ u := by
    obtain ⟨hlow, hend⟩ := hx
    obtain ⟨hl, hu⟩ := narrow_nested l u (lowOf t x) (highOf t x) (total t) hle (highOf_le_total t ht x)
    rw [BitVec.le_def, BitVec.le_def]
    omega
  refine ⟨⟨fun ⟨x, hx, _⟩ => hinside x hx, fun ⟨hlw, hwu⟩ => ?_⟩, hinside⟩
  have htot := total_ge t ht
  have hpos := scaledPosition_lt l u w (total t) hlw hwu (by omega)
  have hiff (x : Symbol) : (lowOf t x).toNat ≤ scaledPosition l u w (total t) ∧
      scaledPosition l u w (total t) < (highOf t x).toNat ↔ within x := by
    obtain ⟨hlow, hhigh⟩ := scaledPosition_iff l u w (lowOf t x) (highOf t x) (total t) hlw hwu (by omega)
    exact and_congr hlow hhigh
  exact (existsUnique_congr hiff).1 ((existsUnique_symbol_iff ht _).2 hpos)

end Sys2Proof.Machine
end

section
/-! PROOFS. The renormaliser step by step (spec/41_interval_coder.md R136 to R142): RN_E1, RN_E3, RN_TERM and the
unreachable pattern, each in both modes. -/

namespace Sys2Proof.Machine

/-! ## What an operation leaves alone -/

@[simp] theorem emit_lower (b : Bool) (s : State) : (emit b s).lower = s.lower := by rw [emit_frame]
@[simp] theorem emit_upper (b : Bool) (s : State) : (emit b s).upper = s.upper := by rw [emit_frame]
@[simp] theorem emit_mode (b : Bool) (s : State) : (emit b s).mode = s.mode := by rw [emit_frame]
@[simp] theorem emit_sym (b : Bool) (s : State) : (emit b s).sym = s.sym := by rw [emit_frame]
@[simp] theorem emit_fcode (b : Bool) (s : State) : (emit b s).fcode = s.fcode := by rw [emit_frame]
@[simp] theorem emit_cfg (b : Bool) (s : State) : (emit b s).cfg = s.cfg := by rw [emit_frame]

theorem getBit_interval {s u : State} {b : Bool} (h : getBit s = .bit b u) :
    u.lower = s.lower ∧ u.upper = s.upper := by
  rw [(getBit_frame h).1]
  exact ⟨rfl, rfl⟩

theorem getBit_mode {s u : State} {b : Bool} (h : getBit s = .bit b u) : u.mode = s.mode := by
  rw [(getBit_frame h).1]

/-! ## The interval after a step, as arithmetic -/

/-- RN_E1 takes the determinate bit off, doubles, and lets `c` in (41 R136). -/
theorem shiftIn_toNat_of_top {w : Word} {b : Bool} (c : Bool) (h : w.getLsbD 31 = b) :
    (shiftIn w c).toNat = 2 * (w.toNat - b.toNat * 2 ^ 31) + c.toNat := by
  have hshift := shiftIn_determinate w b c h
  have hge : b.toNat * 2 ^ 31 ≤ w.toNat := by
    cases b with
    | false => exact Nat.zero_le _
    | true =>
      rw [getLsbD_31_iff] at h
      exact h
  omega

/-- RN_E3 takes `2^30` off `LOWER` and `UPPER`, doubles, and lets 0 and 1 in (41 R138). -/
theorem spliceIn_toNat_of_straddles {l u : Word} (h : Straddles l u) :
    (spliceIn false l false).toNat = 2 * (l.toNat - 2 ^ 30) ∧
    (spliceIn true u true).toNat = 2 * (u.toNat - 2 ^ 30) + 1 := by
  obtain ⟨hl31, hl30, hu31, hu30⟩ := h
  have hl := spliceIn_lower l false hl31 hl30
  have hu := spliceIn_upper u true hu31 hu30
  simp only [Bool.toNat_false, Bool.toNat_true] at hl hu
  omega

/-- RN_E3 takes `2^30` off a window inside the interval as well (43 R188). -/
theorem spliceIn_window_toNat {l u w : Word} (c : Bool) (h : Straddles l u) (hl : l ≤ w) (hu : w ≤ u) :
    (spliceIn w.msb w c).toNat = 2 * (w.toNat - 2 ^ 30) + c.toNat := by
  have hsplice := window_splice_toNat (c := c) h hl hu
  obtain ⟨hl31, hl30, -⟩ := h
  rw [getLsbD_31_eq_false_iff] at hl31
  rw [getLsbD_30_iff] at hl30
  rw [BitVec.le_def] at hl
  omega

theorem shiftIn_toNat_mod (w : Word) (b : Bool) : (shiftIn w b).toNat = 2 * w.toNat % 2 ^ 32 + b.toNat := by
  rw [shiftIn_toNat]
  omega

/-! ## A stream bit that is there, never was, or may still come -/

/-- A stream that never had a bit is the fault of 44 R206. -/
theorem afterBit_of_exhausted {s : State} (f : Bool → State → State) (h0 : s.icnt = 0) (hc : s.codeIn = [])
    (he : s.codeInEnd = true) (hl : s.havelast = false) : afterBit (getBit s) s f = raiseFault .nobits s := by
  rw [getBit_of_empty h0 hc, he, hl]
  rfl

/-- A step whose bit may still come is held (45 R231). -/
theorem afterBit_of_waiting {s : State} (f : Bool → State → State) (h0 : s.icnt = 0) (hc : s.codeIn = [])
    (he : s.codeInEnd = false) : afterBit (getBit s) s f = .next s := by
  rw [getBit_of_empty h0 hc, he]
  rfl

theorem renormE1_of_bit {s u : State} {c : Bool} (hm : s.mode = .dec) (h : getBit s = .bit c u) (b : Bool) :
    renormE1 b s = .next { u with window := shiftIn u.window c }.shiftInterval := by
  rw [renormE1_dec hm, h, afterBit]

theorem renormE3_of_bit {s u : State} {c : Bool} (hm : s.mode = .dec) (h : getBit s = .bit c u) :
    renormE3 s = .next { u with window := spliceIn u.window.msb u.window c }.spliceInterval := by
  rw [renormE3_dec hm, h, afterBit]

theorem renormE3_of_room {s : State} (hm : s.mode = .enc) (hk : s.ufc + 1 < 2 ^ s.cfg.ufcBits) :
    renormE3 s = .next { s with ufc := s.ufc + 1 }.spliceInterval := by
  rw [renormE3_enc hm, if_pos hk]

/-! ## RN_E1 -/

/-- The two rows of RN_E1 are one operation with the determinate bit as its operand. -/
theorem exec_rnE1 (b x y : Bool) (s : State) :
    exec (if b then .rnE1b1 x y else .rnE1b0 x y) s = renormE1 b s := by
  cases b with
  | false => rfl
  | true => rfl

/-- RN_E1 in encode mode changes the interval, the counter, the packer and `CODE_OUT`. -/
theorem shiftInterval_emit_frame (b : Bool) (s : State) :
    (emit b s).shiftInterval = { s with
      lower := shiftIn (emit b s).lower false, upper := shiftIn (emit b s).upper true, ufc := 0,
      acc := (emit b s).acc, nbits := (emit b s).nbits, codeOut := (emit b s).codeOut, phase := .renorm } := by
  rw [emit_lower, emit_upper]
  exact congrArg State.shiftInterval (emit_frame b s)

/-- Settles O19: RN_E1 in encode mode, with a bit ready, exhausted, and held. -/
theorem determinateBitStep : Obligations.DeterminateBitStep := by
  intro b x y s h i
  have hi : exec i s = renormE1 b s := exec_rnE1 b x y s
  rw [hi]
  obtain ⟨hl, hu⟩ := h
  refine ⟨execPhRenorm_determinate ⟨hl, hu⟩, fun hm => ?_, fun hm hr => ?_, fun hm h0 hc he hlast => ?_,
    fun hm h0 hc he => ?_⟩
  · refine ⟨_, renormE1_enc hm b, ?_, ?_, bitsOut_emit b s, shiftInterval_emit_frame b s⟩
    · simpa using shiftIn_toNat_of_top false hl
    · simpa using shiftIn_toNat_of_top true hu
  · obtain ⟨c, u, hget, htook⟩ := getBit_of_ready s hr
    obtain ⟨hlower, hupper⟩ := getBit_interval hget
    refine ⟨c, u, _, renormE1_of_bit hm hget b, htook, ?_, ?_, ?_, rfl⟩
    · simpa [hlower] using shiftIn_toNat_of_top false hl
    · simpa [hupper] using shiftIn_toNat_of_top true hu
    · rw [State.shiftInterval_window, getBit_window hget, shiftIn_toNat_mod]
  · rw [renormE1_dec hm]
    exact afterBit_of_exhausted _ h0 hc he hlast
  · rw [renormE1_dec hm]
    exact afterBit_of_waiting _ h0 hc he

/-! ## RN_E3 -/

/-- Settles O20: RN_E3 in encode mode with room and at the maximum, in decode mode with a bit ready, exhausted, and
held. -/
theorem underflowStep : Obligations.UnderflowStep := by
  intro s h
  have hexec : exec .rnE3 s = renormE3 s := rfl
  rw [hexec]
  obtain ⟨hlower, hupper⟩ := spliceIn_toNat_of_straddles h
  refine ⟨execPhRenorm_straddles h, fun hm hk => ?_, fun hm hk => ?_, fun hm hr hw => ?_,
    fun hm h0 hc he hlast => ?_, fun hm h0 hc he => ?_⟩
  · exact ⟨_, renormE3_of_room hm hk, hlower, hupper, rfl⟩
  · rw [renormE3_enc hm, if_neg (by omega)]
    rfl
  · obtain ⟨c, u, hget, htook⟩ := getBit_of_ready s hr
    obtain ⟨hl, hu⟩ := getBit_interval hget
    obtain ⟨hwl, hwu⟩ := hw
    refine ⟨c, u, _, renormE3_of_bit hm hget, htook, ?_, ?_, ?_, rfl⟩
    · simpa [hl] using hlower
    · simpa [hu] using hupper
    · rw [State.spliceInterval_window, getBit_window hget, spliceIn_window_toNat c h hwl hwu]
  · rw [renormE3_dec hm]
    exact afterBit_of_exhausted _ h0 hc he hlast
  · rw [renormE3_dec hm]
    exact afterBit_of_waiting _ h0 hc he

/-! ## RN_TERM and the unreachable pattern -/

/-- Settles O21: the two rows of RN_TERM and the phase on a terminal interval are `renormTerm`, mode by mode. -/
theorem terminalStepLeavesLoop : Obligations.TerminalStepLeavesLoop := by
  intro y s next
  have hterm : renormTerm s = .next { s with phase := next } := by
    unfold next
    split
    next hm => exact renormTerm_enc hm
    next hm => exact renormTerm_dec hm
  exact ⟨hterm, hterm, fun hT => (execPhRenorm_terminal hT).trans hterm⟩

/-- Settles O22: both the row and the phase on its pattern raise the fault and no more. -/
theorem unreachablePatternFaults : Obligations.UnreachablePatternFaults :=
  fun _ _ _ => ⟨rfl, fun hl hu => execPhRenorm_unreachable hl hu⟩

end Sys2Proof.Machine
end

section
/-! PROOFS. The loop of the renormaliser (spec/41_interval_coder.md R134, R143, R144, R146). `Pass` is what one pass
does to the interval, of the machine in either mode and of `Encode`: it doubles the range, so thirty-two are enough. -/

namespace Sys2Proof.Machine

/-! ## One pass of the loop -/

/-- One pass takes the interval `l`, `u` to `l'`, `u'`: the shift of RN_E1 or the splice of RN_E3. -/
inductive Pass (l u : Word) : Word → Word → Prop where
  | shift (b : Bool) (h : Determinate b l u) : Pass l u (shiftIn l false) (shiftIn u true)
  | splice (h : Straddles l u) : Pass l u (spliceIn false l false) (spliceIn true u true)

theorem Pass.le {l u l' u' : Word} (h : Pass l u l' u') (hle : l ≤ u) : l' ≤ u' := by
  cases h with
  | shift b hb => exact shiftIn_le l u b false true hb hle (by simp)
  | splice hs => exact splice_le hs hle

/-- A pass exactly doubles the range (41 R143). -/
theorem Pass.intervalRange_double {l u l' u' : Word} (h : Pass l u l' u') (hle : l ≤ u) :
    intervalRange l' u' = 2 * intervalRange l u := by
  cases h with
  | shift b hb => exact intervalRange_shift l u b hb hle
  | splice hs => exact intervalRange_splice l u hs hle

theorem terminal_or_pass {l u : Word} (hle : l ≤ u) : Terminal l u ∨ ∃ l' u', Pass l u l' u' := by
  obtain ⟨b, hb⟩ | hs | hT := pattern_cases_of_le hle
  · exact .inr ⟨_, _, .shift b hb⟩
  · exact .inr ⟨_, _, .splice hs⟩
  · exact .inl hT

/-- No pass is made from an interval above `2^31` wide (41 R143). -/
theorem terminal_of_wide {l u : Word} (hle : l ≤ u) (hwide : 2 ^ 31 < intervalRange l u) : Terminal l u := by
  obtain ⟨b, hb⟩ | hs | hT := pattern_cases_of_le hle
  · exact absurd (intervalRange_of_determinate l u b hb) (Nat.not_le.2 hwide)
  · exact absurd (intervalRange_of_straddles l u hs) (Nat.not_le.2 hwide)
  · exact hT

/-- What a step in RENORM does to the interval: a pass, or nothing, in a held step, a fault, or RN_TERM. -/
theorem execPhRenorm_interval {s t : State} (hle : s.lower ≤ s.upper) (h : execPhRenorm s = .next t) :
    (Pass s.lower s.upper t.lower t.upper ∧ t.phase = .renorm) ∨ t = s ∨ t.phase = .fault ∨
      (Terminal s.lower s.upper ∧ t.lower = s.lower ∧ t.upper = s.upper ∧ t.phase ≠ .renorm) := by
  obtain ⟨b, hb⟩ | hs | hT := pattern_cases_of_le hle
  · rw [execPhRenorm_determinate hb] at h
    obtain ⟨-, rfl⟩ | ⟨-, ⟨c, u, hu, rfl⟩ | ⟨-, rfl⟩ | ⟨-, rfl⟩⟩ := renormE1_cases h
    · exact .inl ⟨by simpa using Pass.shift b hb, rfl⟩
    · obtain ⟨hl, hu'⟩ := getBit_interval hu
      exact .inl ⟨by simpa [hl, hu'] using Pass.shift b hb, rfl⟩
    · exact .inr (.inr (.inl rfl))
    · exact .inr (.inl rfl)
  · rw [execPhRenorm_straddles hs] at h
    obtain ⟨-, ⟨-, rfl⟩ | ⟨-, rfl⟩⟩ | ⟨-, ⟨c, u, hu, rfl⟩ | ⟨-, rfl⟩ | ⟨-, rfl⟩⟩ := renormE3_cases h
    · exact .inl ⟨Pass.splice hs, rfl⟩
    · exact .inr (.inr (.inl rfl))
    · obtain ⟨hl, hu'⟩ := getBit_interval hu
      exact .inl ⟨by simpa [hl, hu'] using Pass.splice hs, rfl⟩
    · exact .inr (.inr (.inl rfl))
    · exact .inr (.inl rfl)
  · rw [execPhRenorm_terminal hT] at h
    refine .inr (.inr (.inr ⟨hT, ?_⟩))
    obtain ⟨-, rfl⟩ | ⟨-, rfl⟩ := renormTerm_cases h
    · refine ⟨rfl, rfl, ?_⟩
      simp only
      split <;> simp
    · exact ⟨rfl, rfl, nofun⟩

/-- Settles O23: the step is a pass. -/
theorem loopStepDoublesRange : Obligations.LoopStepDoublesRange := by
  intro s t _ hle hstep hp hne
  obtain ⟨hpass, -⟩ | rfl | hf | ⟨-, -, -, hout⟩ := execPhRenorm_interval hle hstep
  · have hle' := hpass.le hle
    rw [intervalRange_eq hle, intervalRange_eq hle']
    exact ⟨hle', hpass.intervalRange_double hle⟩
  · exact absurd rfl hne
  · rw [hf] at hp
    cases hp
  · exact absurd hp hout

/-- Settles O25: the step is RN_TERM, which leaves its terminal interval as it is. -/
theorem fixedPointIsWide : Obligations.FixedPointIsWide := by
  intro s t hs hle hstep hp
  obtain ⟨-, hr⟩ | rfl | hf | ⟨hT, hl, hu, -⟩ := execPhRenorm_interval hle hstep
  · simp [hr] at hp
  · simp [hs] at hp
  · simp [hf] at hp
  · rw [hl, hu, intervalRange_eq hle]
    have ⟨hl31, hu31, hnot⟩ := hT
    exact ⟨hl31, hu31, hnot, intervalRange_terminal _ _ hT⟩

/-! ## The loop of the machine -/

/-- Nothing stops the next `k` passes: the counter has room for `k` more, or a stream bit can be had at any time. -/
def RoomFor (k : Nat) (s : State) : Prop :=
  s.mode = .enc ∧ s.ufc + k < 2 ^ s.cfg.ufcBits ∨
    s.mode = .dec ∧ s.icnt.toNat ≤ 8 ∧ s.codeInEnd = true ∧ s.havelast = true

theorem roomFor_of_bit {k : Nat} {s u : State} {c : Bool} (hm : s.mode = .dec) (hicnt : s.icnt.toNat ≤ 8)
    (hend : s.codeInEnd = true) (h : getBit s = .bit c u) : RoomFor k u := by
  obtain ⟨hicnt', hlast'⟩ := getBit_keeps hicnt h
  refine .inr ⟨(getBit_mode h).trans hm, hicnt', ?_, hlast'⟩
  rw [(getBit_frame h).1]
  exact hend

theorem execPhRenorm_pass {k : Nat} {s : State} {l u : Word} (hroom : RoomFor (k + 1) s)
    (hpass : Pass s.lower s.upper l u) :
    ∃ t, execPhRenorm s = .next t ∧ t.lower = l ∧ t.upper = u ∧ t.phase = .renorm ∧ RoomFor k t := by
  cases hpass with
  | shift b hb =>
    rw [execPhRenorm_determinate hb]
    obtain ⟨hm, hk⟩ | ⟨hm, hicnt, hend, hlast⟩ := hroom
    · refine ⟨_, renormE1_enc hm b, by simp, by simp, rfl, .inl ⟨by simpa using hm, ?_⟩⟩
      rw [State.shiftInterval_ufc, State.shiftInterval_cfg, emit_cfg]
      change 0 + k < _
      omega
    · obtain ⟨c, v, hget, -⟩ := getBit_of_ready s ⟨hicnt, .inr ⟨hend, hlast⟩⟩
      obtain ⟨hl, hu⟩ := getBit_interval hget
      have hroom : RoomFor k v := roomFor_of_bit hm hicnt hend hget
      exact ⟨_, renormE1_of_bit hm hget b, by simp [hl], by simp [hu], rfl, hroom⟩
  | splice hs =>
    rw [execPhRenorm_straddles hs]
    obtain ⟨hm, hk⟩ | ⟨hm, hicnt, hend, hlast⟩ := hroom
    · refine ⟨_, renormE3_of_room hm (by omega), rfl, rfl, rfl, .inl ⟨hm, ?_⟩⟩
      change s.ufc + 1 + k < 2 ^ s.cfg.ufcBits
      omega
    · obtain ⟨c, v, hget, -⟩ := getBit_of_ready s ⟨hicnt, .inr ⟨hend, hlast⟩⟩
      obtain ⟨hl, hu⟩ := getBit_interval hget
      have hroom : RoomFor k v := roomFor_of_bit hm hicnt hend hget
      exact ⟨_, renormE3_of_bit hm hget, by simp [hl], by simp [hu], rfl, hroom⟩

/-- Where `k` passes would take the range above `2^31`, at most `k` lead to a terminal interval. -/
theorem execAll_phRenorm_terminal {k : Nat} {s : State} (hroom : RoomFor k s) (hp : s.phase = .renorm)
    (hle : s.lower ≤ s.upper) (hwide : 2 ^ 31 < 2 ^ k * intervalRange s.lower s.upper) :
    ∃ n t, n ≤ k ∧ execAll (List.replicate n .phRenorm) s = some t ∧ t.phase = .renorm ∧
      intervalRange t.lower t.upper = 2 ^ n * intervalRange s.lower s.upper ∧ Terminal t.lower t.upper := by
  induction k generalizing s with
  | zero =>
    rw [Nat.pow_zero, Nat.one_mul] at hwide
    exact ⟨0, s, le_rfl, rfl, hp, by simp, terminal_of_wide hle hwide⟩
  | succ k ih =>
    obtain hT | ⟨l, u, hpass⟩ := terminal_or_pass hle
    · exact ⟨0, s, Nat.zero_le _, rfl, hp, by simp, hT⟩
    · obtain ⟨v, hstep, rfl, rfl, hpv, hroom'⟩ := execPhRenorm_pass hroom hpass
      have hdouble := hpass.intervalRange_double hle
      have hpow (m : Nat) : 2 ^ m * intervalRange v.lower v.upper =
          2 ^ (m + 1) * intervalRange s.lower s.upper := by rw [hdouble, ← Nat.mul_assoc, ← Nat.pow_succ]
      obtain ⟨n, t, hn, hrun, hpt, hrange, hT⟩ := ih hroom' hpv (hpass.le hle) (by rwa [hpow])
      refine ⟨n + 1, t, Nat.succ_le_succ hn, ?_, hpt, by rw [hrange, hpow], hT⟩
      have hexec : exec .phRenorm s = .next v := hstep
      rw [List.replicate_succ, execAll, hexec]
      exact hrun

/-! ## The loop of `Encode` -/

theorem encIter_of_terminal {e : Encoder} (h : Terminal e.l e.u) : encIter e = none := by
  obtain ⟨hl, hu, hnot⟩ := h
  rw [encIter, hl, hu, if_neg (by decide), if_neg]
  rintro ⟨hl30, hu30⟩
  rw [hl30, hu30] at hnot
  exact absurd hnot (by decide)

theorem encIter_of_pass {e : Encoder} {l u : Word} (h : Pass e.l e.u l u) :
    ∃ e', encIter e = some e' ∧ e'.l = l ∧ e'.u = u := by
  unfold encIter
  cases h with
  | shift b hb =>
    obtain ⟨hl, hu⟩ := hb
    rw [if_pos (hl.trans hu.symm)]
    exact ⟨_, rfl, rfl, rfl⟩
  | splice hs =>
    obtain ⟨hl31, hl30, hu31, hu30⟩ := hs
    rw [hl31, hu31, if_neg (by decide), if_pos ⟨hl30, hu30⟩]
    exact ⟨_, rfl, rfl, rfl⟩

/-- Where `k` passes would take the range above `2^31`, the loop of `Encode` ends within `k`. -/
theorem encRenorm_terminal {k : Nat} {e : Encoder} (hle : e.l ≤ e.u)
    (hwide : 2 ^ 31 < 2 ^ k * intervalRange e.l e.u) : Terminal (encRenorm k e).l (encRenorm k e).u := by
  induction k generalizing e with
  | zero =>
    rw [Nat.pow_zero, Nat.one_mul] at hwide
    exact terminal_of_wide hle hwide
  | succ k ih =>
    obtain hT | ⟨l, u, hpass⟩ := terminal_or_pass hle
    · rw [encRenorm, encIter_of_terminal hT]
      exact hT
    · obtain ⟨e', hiter, rfl, rfl⟩ := encIter_of_pass hpass
      rw [encRenorm, hiter]
      refine ih (hpass.le hle) ?_
      rwa [hpass.intervalRange_double hle, ← Nat.mul_assoc, ← Nat.pow_succ]

/-- Thirty-two doublings take any range above `2^31`. -/
theorem wide_after_thirty_two {l u : Word} (hle : l ≤ u) : 2 ^ 31 < 2 ^ 32 * intervalRange l u := by
  rw [← intervalRange_eq hle]
  omega

theorem renormTerm_next (s : State) :
    ∃ p, renormTerm s = .next { s with phase := p } ∧ (p = .fetch ∨ p = .finish ∨ p = .scale) := by
  obtain hm | hm : s.mode = .enc ∨ s.mode = .dec := by cases s.mode <;> simp
  · refine ⟨_, renormTerm_enc hm, ?_⟩
    by_cases heof : s.sym = 256#9
    · exact .inr (.inl (if_pos heof))
    · exact .inl (if_neg heof)
  · exact ⟨_, renormTerm_dec hm, .inr (.inr rfl)⟩

/-- Settles O24: every pass doubles the range, and an interval above `2^31` wide is terminal. -/
theorem loopEndsWithinThirtyTwoPasses : Obligations.LoopEndsWithinThirtyTwoPasses := by
  refine ⟨fun l u hle hwide => ?_, fun s hp hle hroom => ?_, fun e hle => ?_⟩
  · rw [intervalRange_eq hle] at hwide
    exact terminal_of_wide hle hwide
  · obtain ⟨n, t, hn, hrun, hpt, hrange, hT⟩ := execAll_phRenorm_terminal hroom hp hle (wide_after_thirty_two hle)
    obtain ⟨p, hterm, hout⟩ := renormTerm_next t
    rw [intervalRange_eq hle]
    rw [← intervalRange_eq hT.le] at hrange
    exact ⟨n, t, _, hn, hrun, hpt, hrange, hT, (execPhRenorm_terminal hT).trans hterm, rfl, hout⟩
  · have hT := encRenorm_terminal hle (wide_after_thirty_two hle)
    exact ⟨encIter_of_terminal hT, hT⟩

/-! ## Encoder and decoder side by side -/

theorem leaves_loop {p : Phase} (h : p = .fetch ∨ p = .finish ∨ p = .scale) : p ≠ .renorm ∧ p ≠ .fault := by
  obtain rfl | rfl | rfl := h <;> decide

/-- On the same interval both modes make the same pass, both leave the loop, or both fault (41 R146). -/
theorem execPhRenorm_mirror {s t : State} (hs : s.mode = .enc) (ht : t.mode = .dec) (hl : s.lower = t.lower)
    (hu : s.upper = t.upper) (hk : s.ufc + 1 < 2 ^ s.cfg.ufcBits) (hr : BitReady t) :
    ∃ s' t', execPhRenorm s = .next s' ∧ execPhRenorm t = .next t' ∧ s'.lower = t'.lower ∧
      s'.upper = t'.upper ∧ (s'.phase = .renorm ↔ t'.phase = .renorm) ∧ (s'.phase = .fault ↔ t'.phase = .fault) := by
  obtain ⟨c, v, hget, -⟩ := getBit_of_ready t hr
  obtain ⟨hvl, hvu⟩ := getBit_interval hget
  obtain ⟨b, hb⟩ | hx | hT | ⟨h1, h2⟩ := pattern_cases s.lower s.upper
  · rw [execPhRenorm_determinate hb, execPhRenorm_determinate (hl ▸ hu ▸ hb)]
    refine ⟨_, _, renormE1_enc hs b, renormE1_of_bit ht hget b, ?_, ?_, Iff.rfl, Iff.rfl⟩
    · simp [hl, hvl]
    · simp [hu, hvu]
  · rw [execPhRenorm_straddles hx, execPhRenorm_straddles (hl ▸ hu ▸ hx)]
    refine ⟨_, _, renormE3_of_room hs hk, renormE3_of_bit ht hget, ?_, ?_, Iff.rfl, Iff.rfl⟩
    · simp [hl, hvl]
    · simp [hu, hvu]
  · rw [execPhRenorm_terminal hT, execPhRenorm_terminal (hl ▸ hu ▸ hT)]
    obtain ⟨p, hp, hout⟩ := renormTerm_next s
    obtain ⟨q, hq, hout'⟩ := renormTerm_next t
    refine ⟨_, _, hp, hq, hl, hu, ?_⟩
    obtain ⟨hpr, hpf⟩ := leaves_loop hout
    obtain ⟨hqr, hqf⟩ := leaves_loop hout'
    exact ⟨iff_of_false hpr hqr, iff_of_false hpf hqf⟩
  · rw [execPhRenorm_unreachable h1 h2, execPhRenorm_unreachable (hl ▸ h1) (hu ▸ h2)]
    exact ⟨_, _, rfl, rfl, hl, hu, Iff.rfl, Iff.rfl⟩

/-- Settles O26: NARROW reads the interval, the latches and the table only; the renormaliser's step is the same pass. -/
theorem encoderAndDecoderMirror : Obligations.EncoderAndDecoderMirror := by
  intro s t hs ht hl hu hlow hhigh hcfg hk hr
  refine ⟨?_, execPhRenorm_mirror hs ht hl hu hk hr⟩
  have hsame : narrowed t.lower t.upper t.low t.high (total t.cfg.cf) =
      narrowed s.lower s.upper s.low s.high (total s.cfg.cf) := by rw [hl, hu, hlow, hhigh, hcfg]
  cases hn : narrowed s.lower s.upper s.low s.high (total s.cfg.cf) with
  | none => exact ⟨_, _, execPhNarrow_of_none hn, execPhNarrow_of_none (hsame.trans hn), hl, hu, rfl⟩
  | some w => exact ⟨_, _, execPhNarrow_of_some hn, execPhNarrow_of_some (hsame.trans hn), rfl, rfl, rfl⟩

end Sys2Proof.Machine
end

section
/-! PROOFS. The invariant of the machine (spec/41_interval_coder.md R141, R144, spec/43_decoder.md R190,
spec/60_exceptions.md R244): each phase's operation keeps it, hence every move, hence every run from a reset. -/

namespace Sys2Proof.Machine

/-! ## The invariant in a session and in FAULT -/

/-- What a session keeps beside `SessionInv`: no fault recorded (10 R29), the counter within its width (10 R21), a safe
table (40 R114). -/
def Running (s : State) : Prop := s.fcode = .none ∧ s.ufc < 2 ^ s.cfg.ufcBits ∧ CFSafe s.cfg.cf

theorem Running.safe {s : State} (h : Running s) : CFSafe s.cfg.cf := by
  obtain ⟨-, -, hsafe⟩ := h
  exact hsafe

theorem MachineInv.sessionInv {s : State} (h : MachineInv s) : SessionInv s := by
  obtain ⟨-, -, -, -, hsession⟩ := h
  exact hsession

theorem MachineInv.ufc_fits {s : State} (h : MachineInv s) : s.ufc < 2 ^ s.cfg.ufcBits := by
  obtain ⟨-, -, hufc, -⟩ := h
  exact hufc

theorem MachineInv.fcode_none {s : State} (h : MachineInv s) (hp : s.phase ≠ .fault) : s.fcode = .none := by
  obtain ⟨hfault, -⟩ := h
  exact hfault.2 hp

theorem MachineInv.running {s : State} (h : MachineInv s) (hb : s.busy = true) : Running s := by
  have ⟨_, _, hufc, hsafe, _⟩ := h
  obtain ⟨-, -, hp⟩ := (busy_iff s).1 hb
  exact ⟨h.fcode_none hp, hufc, hsafe hb⟩

theorem machineInv_of_running {s : State} (h : Running s) (hp : s.phase ≠ .fault) (hs : SessionInv s) :
    MachineInv s := by
  obtain ⟨hfcode, hufc, hsafe⟩ := h
  exact ⟨iff_of_true hfcode hp, by simp [hfcode], hufc, fun _ => hsafe, hs⟩

/-- A fault other than that of the unreachable arms keeps the invariant. -/
theorem machineInv_raise {s : State} {c : FCode} (hu : s.ufc < 2 ^ s.cfg.ufcBits) (hc : c ≠ .none)
    (hi : c ≠ .invariant) : MachineInv (s.raise c) :=
  ⟨iff_of_false hc (not_not.2 rfl), hi, hu, nofun, trivial⟩

theorem Running.getBit {s u : State} {b : Bool} (h : Running s) (hu : getBit s = .bit b u) : Running u := by
  rw [(getBit_frame hu).1]
  exact h

/-! ## The commands and FETCH -/

/-- The interval of a START is terminal (45 R223, R224). -/
theorem terminal_start : Terminal 0 0xFFFFFFFF := by decide

theorem window_in_start (w : Word) : 0 ≤ w ∧ w ≤ 0xFFFFFFFF := by
  rw [BitVec.le_def, BitVec.le_def]
  exact ⟨Nat.zero_le _, Nat.le_of_lt_succ w.isLt⟩

theorem consumeCommand_keeps_inv {s t : State} (h : MachineInv s) (hp : s.phase = .idle ∨ s.phase = .done)
    (hstep : consumeCommand s = .next t) : MachineInv t := by
  have hfc : s.fcode = .none := h.fcode_none (by obtain hp | hp := hp <;> simp [hp])
  obtain ⟨-, rfl⟩ | ⟨c, rest, -, ⟨-, hstep⟩ | ⟨-, hstep⟩ | ⟨-, hstep⟩ | ⟨-, hstep⟩⟩ := consumeCommand_cases hstep
  · exact h
  · cases hstep
    exact h
  · unfold execStartEnc at hstep
    split at hstep <;> cases hstep
    next hsafe =>
      refine machineInv_of_running ⟨hfc, Nat.two_pow_pos _, hsafe⟩ nofun ⟨⟨rfl, ?_⟩, terminal_start⟩
      exact fun i _ => BitVec.getLsbD_zero
    next => exact machineInv_raise h.ufc_fits nofun nofun
  · unfold execStartDec at hstep
    split at hstep <;> cases hstep
    next hsafe =>
      refine machineInv_of_running ⟨hfc, h.ufc_fits, hsafe⟩ nofun ⟨rfl, Nat.zero_le _, rfl, rfl, ?_, ?_⟩
      · exact Nat.zero_lt_succ _
      · exact fun hfill => absurd rfl hfill
    next => exact machineInv_raise h.ufc_fits nofun nofun
  · cases hstep
    exact machineInv_raise h.ufc_fits nofun nofun

theorem symCode_toNat (x : Symbol) : (BitVec.ofNat 9 x.val).toNat = x.val := by
  rw [BitVec.toNat_ofNat, Nat.mod_eq_of_lt (by omega)]

theorem execPhFetch_keeps_inv {s t : State} (h : MachineInv s) (hp : s.phase = .fetch)
    (hstep : execPhFetch s = .next t) : MachineInv t := by
  have hrun := h.running (by simp [State.busy, hp])
  obtain ⟨hkeeps, hT⟩ : EncodeKeeps s ∧ Terminal s.lower s.upper := by simpa only [SessionInv, hp] using h.sessionInv
  obtain ⟨-, rfl⟩ | ⟨x, -, -, hstep⟩ | ⟨-, -, -, -, rfl⟩ := execPhFetch_cases hstep
  · exact h
  · cases hstep
    refine machineInv_of_running hrun nofun ⟨hT, x, ⟨?_, rfl, rfl⟩, .inl hkeeps⟩
    exact symCode_toNat x
  · exact machineInv_raise h.ufc_fits nofun nofun

/-! ## NARROW -/

/-- NARROW never faults under the invariant, and a window in the symbol's sub-interval stays inside (43 R184, R190). -/
theorem execPhNarrow_keeps_inv {s t : State} (h : MachineInv s) (hp : s.phase = .narrow)
    (hstep : execPhNarrow s = .next t) : MachineInv t := by
  have hrun := h.running (by simp [State.busy, hp])
  have hsession := h.sessionInv
  simp only [SessionInv, hp] at hsession
  obtain ⟨hT, x, ⟨hsym, hlow, hhigh⟩, hmode⟩ := hsession
  obtain ⟨l, u, hn, hl, hu, -, hle, -⟩ := narrowed_of_safe s.cfg.cf hrun.safe s.lower s.upper hT x
  rw [← hlow, ← hhigh] at hn
  rw [← hlow] at hl
  rw [← hhigh] at hu
  obtain ⟨l', u', hn', rfl⟩ | ⟨hn', -⟩ := execPhNarrow_cases hstep
  · obtain ⟨rfl, rfl⟩ : l = l' ∧ u = u' := by simpa [hn] using hn'
    refine machineInv_of_running hrun nofun ⟨hle, ?_⟩
    obtain hkeeps | ⟨⟨hm, hicnt, hlast, hwl, hwu⟩, -, hqlow, hqhigh⟩ := hmode
    · exact .inl ⟨hkeeps, by simp only [hsym]; omega⟩
    · have htot := total_ge s.cfg.cf hrun.safe.1
      obtain ⟨hlo, hhi⟩ := scaledPosition_iff s.lower s.upper s.window s.low s.high (total s.cfg.cf) hwl hwu (by omega)
      have hge := hlo.1 hqlow
      have hlt := hhi.1 hqhigh
      refine .inr ⟨hm, hicnt, hlast, ?_, ?_⟩ <;> rw [BitVec.le_def] <;> simp only <;> omega
  · rw [hn] at hn'
    cases hn'

/-! ## The renormaliser -/

/-- What holds at the start of a step in RENORM. -/
abbrev RenormKeeps (s : State) : Prop :=
  s.lower ≤ s.upper ∧ ((EncodeKeeps s ∧ s.sym.toNat ≤ 256) ∨ DecodeKeeps s)

/-- A pass of the decoder that keeps the window inside keeps the invariant. -/
theorem machineInv_of_decodePass {s u t : State} {b : Bool} (hrun : Running s) (hkeeps : DecodeKeeps s)
    (hget : getBit s = .bit b u)
    (ht : t = { u with lower := t.lower, upper := t.upper, window := t.window, phase := .renorm })
    (hwindow : WindowInside t) : MachineInv t := by
  obtain ⟨hm, hicnt, -⟩ := hkeeps
  obtain ⟨hicnt', hlast'⟩ := getBit_keeps hicnt hget
  have hm' := (getBit_mode hget).trans hm
  have hrun' := hrun.getBit hget
  have ⟨hwl, hwu⟩ := hwindow
  rw [ht]
  exact machineInv_of_running hrun' nofun ⟨BitVec.le_trans hwl hwu, .inr ⟨hm', hicnt', hlast', hwindow⟩⟩

theorem renormE1_keeps_inv {s t : State} {b : Bool} (h : MachineInv s) (hrun : Running s) (hkeeps : RenormKeeps s)
    (hb : Determinate b s.lower s.upper) (hstep : renormE1 b s = .next t) : MachineInv t := by
  obtain ⟨hle, hmode⟩ := hkeeps
  have hle' := shiftIn_le s.lower s.upper b false true hb hle (by simp)
  obtain ⟨hm, rfl⟩ | ⟨hm, ⟨c, u, hu, rfl⟩ | ⟨-, rfl⟩ | ⟨-, rfl⟩⟩ := renormE1_cases hstep
  · obtain ⟨⟨-, hclean⟩, hsym⟩ := hmode.resolve_right fun hd => by simp [DecodeKeeps, hm] at hd
    obtain ⟨hfcode, -, hsafe⟩ := hrun
    have hrun' : Running (emit b s).shiftInterval :=
      ⟨by simpa using hfcode, Nat.two_pow_pos _, by simpa using hsafe⟩
    have hkeeps' : EncodeKeeps (emit b s).shiftInterval := ⟨by simpa using hm, packerClean_emit b s hclean⟩
    exact machineInv_of_running hrun' nofun ⟨by simpa using hle', .inl ⟨hkeeps', by simpa using hsym⟩⟩
  · have hkeeps := hmode.resolve_left fun he => by simp [EncodeKeeps, hm] at he
    have ⟨_, _, _, hwl, hwu⟩ := hkeeps
    obtain ⟨hl, hu'⟩ := getBit_interval hu
    refine machineInv_of_decodePass hrun hkeeps hu rfl ?_
    simpa [WindowInside, hl, hu', getBit_window hu] using window_shift hb hwl hwu
  · exact machineInv_raise h.ufc_fits nofun nofun
  · exact h

theorem renormE3_keeps_inv {s t : State} (h : MachineInv s) (hrun : Running s) (hkeeps : RenormKeeps s)
    (hs : Straddles s.lower s.upper) (hstep : renormE3 s = .next t) : MachineInv t := by
  obtain ⟨hle, hmode⟩ := hkeeps
  have hle' := splice_le hs hle
  obtain ⟨hm, ⟨hfits, rfl⟩ | ⟨-, rfl⟩⟩ | ⟨hm, ⟨c, u, hu, rfl⟩ | ⟨-, rfl⟩ | ⟨-, rfl⟩⟩ := renormE3_cases hstep
  · obtain ⟨hfcode, -, hsafe⟩ := hrun
    have hkeeps := hmode.resolve_right fun hd => by simp [DecodeKeeps, hm] at hd
    exact machineInv_of_running ⟨hfcode, hfits, hsafe⟩ nofun ⟨hle', .inl hkeeps⟩
  · exact machineInv_raise h.ufc_fits nofun nofun
  · have hkeeps := hmode.resolve_left fun he => by simp [EncodeKeeps, hm] at he
    have ⟨_, _, _, hwl, hwu⟩ := hkeeps
    obtain ⟨hl, hu'⟩ := getBit_interval hu
    refine machineInv_of_decodePass hrun hkeeps hu rfl ?_
    simpa [WindowInside, hl, hu', getBit_window hu] using window_splice hs hwl hwu
  · exact machineInv_raise h.ufc_fits nofun nofun
  · exact h

theorem renormTerm_keeps_inv {s t : State} (hrun : Running s) (hkeeps : RenormKeeps s)
    (hT : Terminal s.lower s.upper) (hstep : renormTerm s = .next t) : MachineInv t := by
  obtain ⟨-, hmode⟩ := hkeeps
  obtain ⟨hm, rfl⟩ | ⟨hm, rfl⟩ := renormTerm_cases hstep
  · obtain ⟨hkeeps, -⟩ := hmode.resolve_right fun hd => by simp [DecodeKeeps, hm] at hd
    by_cases heof : s.sym = 256#9
    · rw [if_pos heof]
      exact machineInv_of_running hrun nofun ⟨hkeeps, hT, heof⟩
    · rw [if_neg heof]
      exact machineInv_of_running hrun nofun ⟨hkeeps, hT⟩
  · have hkeeps := hmode.resolve_left fun he => by simp [EncodeKeeps, hm] at he
    exact machineInv_of_running hrun nofun ⟨hkeeps, hT⟩

/-- With `LOWER <= UPPER` the unreachable pattern does not occur (41 R141). -/
theorem execPhRenorm_keeps_inv {s t : State} (h : MachineInv s) (hp : s.phase = .renorm)
    (hstep : execPhRenorm s = .next t) : MachineInv t := by
  have hrun := h.running (by simp [State.busy, hp])
  have hkeeps : RenormKeeps s := by simpa only [SessionInv, hp] using h.sessionInv
  obtain ⟨b, hb⟩ | hs | hT := pattern_cases_of_le hkeeps.1
  · exact renormE1_keeps_inv h hrun hkeeps hb (execPhRenorm_determinate hb ▸ hstep)
  · exact renormE3_keeps_inv h hrun hkeeps hs (execPhRenorm_straddles hs ▸ hstep)
  · exact renormTerm_keeps_inv hrun hkeeps hT (execPhRenorm_terminal hT ▸ hstep)

/-! ## FINISH and the decoder's phases -/

theorem execPhFinish_keeps_inv {s t : State} (h : MachineInv s) (hp : s.phase = .finish)
    (hstep : execPhFinish s = .next t) : MachineInv t := by
  have hrun := h.running (by simp [State.busy, hp])
  cases hstep
  rw [marker_frame]
  exact machineInv_of_running hrun nofun trivial

theorem execPhFill_keeps_inv {s t : State} (h : MachineInv s) (hp : s.phase = .fill)
    (hstep : execPhFill s = .next t) : MachineInv t := by
  have hrun := h.running (by simp [State.busy, hp])
  have hsession := h.sessionInv
  simp only [SessionInv, hp] at hsession
  obtain ⟨hm, hicnt, hlower, hupper, hcnt, -⟩ := hsession
  obtain ⟨b, u, hu, rfl⟩ | ⟨-, rfl⟩ | ⟨-, rfl⟩ := afterBit_cases hstep
  · obtain ⟨hicnt', hlast'⟩ := getBit_keeps hicnt hu
    obtain ⟨hl, hu'⟩ := getBit_interval hu
    rw [hlower] at hl
    rw [hupper] at hu'
    have hm' := (getBit_mode hu).trans hm
    have hrun' := hrun.getBit hu
    rw [← getBit_fillcnt hu] at hcnt
    by_cases hend : u.fillcnt.toNat + 1 = 32
    · rw [if_pos hend]
      refine machineInv_of_running hrun' nofun
        ⟨⟨hm', hicnt', hlast', ?_⟩, ?_⟩
      · simp only [WindowInside, hl, hu']
        exact window_in_start _
      · simp only [hl, hu']
        exact terminal_start
    · rw [if_neg hend]
      refine machineInv_of_running hrun' nofun
        ⟨hm', hicnt', hl, hu', ?_, fun _ => hlast'⟩
      change (u.fillcnt.toNat + 1) % 2 ^ 6 < 32
      omega
  · exact machineInv_raise h.ufc_fits nofun nofun
  · exact h

theorem execPhScale_keeps_inv {s t : State} (h : MachineInv s) (hp : s.phase = .scale)
    (hstep : execPhScale s = .next t) : MachineInv t := by
  have hrun := h.running (by simp [State.busy, hp])
  obtain ⟨hkeeps, hT⟩ : DecodeKeeps s ∧ Terminal s.lower s.upper := by simpa only [SessionInv, hp] using h.sessionInv
  have ⟨_, _, _, hwl, hwu⟩ := hkeeps
  have htot := total_ge s.cfg.cf hrun.safe.1
  have hpos := scaledPosition_lt s.lower s.upper s.window (total s.cfg.cf) hwl hwu (by omega)
  obtain ⟨-, -, rfl⟩ | ⟨hout, -⟩ := execPhScale_cases hstep
  · refine machineInv_of_running hrun nofun ⟨hkeeps, hT, ?_⟩
    exact (BitVec.toNat_ofNat _ _).trans (Nat.mod_eq_of_lt (hpos.trans (total s.cfg.cf).isLt))
  · refine absurd ⟨hwl, hwu, fun h0 => ?_⟩ hout
    simp [h0] at htot

theorem symbolOfByte_ofNat {x : Symbol} (hx : x.val < 256) : symbolOfByte (BitVec.ofNat 8 x.val) = x := by
  apply Fin.ext
  simp only [symbolOfByte, BitVec.toNat_ofNat]
  omega

theorem foundByte_latchesHold {x : Symbol} (hx : x.val < 256) (s : State) :
    LatchesHold (foundByte (BitVec.ofNat 8 x.val) s) x := by
  unfold LatchesHold foundByte
  rw [symbolOfByte_ofNat hx]
  refine ⟨?_, rfl, rfl⟩
  simp only [BitVec.toNat_setWidth, BitVec.toNat_ofNat]
  omega

theorem execPhSearch_keeps_inv {s t : State} (h : MachineInv s) (hp : s.phase = .search)
    (hstep : execPhSearch s = .next t) : MachineInv t := by
  have hrun := h.running (by simp [State.busy, hp])
  have hsession := h.sessionInv
  simp only [SessionInv, hp] at hsession
  obtain ⟨hkeeps, hT, hq⟩ := hsession
  have ⟨_, _, _, hwl, hwu⟩ := hkeeps
  have htot := total_ge s.cfg.cf hrun.safe.1
  have hpos := scaledPosition_lt s.lower s.upper s.window (total s.cfg.cf) hwl hwu (by omega)
  obtain ⟨hlt, hbyte, rfl⟩ | ⟨-, -, rfl⟩ | ⟨hge, -⟩ := execPhSearch_cases hstep
  · obtain ⟨x, hx, hlow, hhigh⟩ := searchIndex_spec s.cfg.cf hrun.safe.1 s.scaled hlt
    rw [hx] at hbyte ⊢
    have hlatch := foundByte_latchesHold hbyte s
    have ⟨_, hl, hh⟩ := hlatch
    refine machineInv_of_running hrun nofun
      ⟨hT, x, hlatch, .inr ⟨hkeeps, ?_, ?_, ?_⟩⟩
    · rintro rfl
      exact absurd hbyte (by decide)
    · rw [hl]
      exact hq ▸ hlow
    · rw [hh]
      exact hq ▸ hhigh
  · exact machineInv_of_running hrun nofun trivial
  · rw [BitVec.le_def, hq] at hge
    omega

/-! ## Every move -/

theorem core_keeps_inv {s t : State} (h : MachineInv s) (hstep : exec (currentInstr s) s = .next t) :
    MachineInv t := by
  unfold currentInstr at hstep
  split at hstep
  · cases hp : s.phase with
    | idle => exact consumeCommand_keeps_inv h (.inl hp) (by rwa [hp] at hstep)
    | fetch => exact execPhFetch_keeps_inv h hp (by rwa [hp] at hstep)
    | narrow => exact execPhNarrow_keeps_inv h hp (by rwa [hp] at hstep)
    | renorm => exact execPhRenorm_keeps_inv h hp (by rwa [hp] at hstep)
    | finish => exact execPhFinish_keeps_inv h hp (by rwa [hp] at hstep)
    | fill => exact execPhFill_keeps_inv h hp (by rwa [hp] at hstep)
    | scale => exact execPhScale_keeps_inv h hp (by rwa [hp] at hstep)
    | search => exact execPhSearch_keeps_inv h hp (by rwa [hp] at hstep)
    | done => exact consumeCommand_keeps_inv h (.inr hp) (by rwa [hp] at hstep)
    | fault =>
      rw [hp] at hstep
      cases hstep
      exact h
  · cases hstep
    exact h

/-- The host writes no register of the invariant but at a reset and, outside a session, the table. -/
theorem hostAct_keeps_inv {a : HostAction} {s t : State} (h : MachineInv s) (hact : hostAct a s = .next t) :
    MachineInv t := by
  cases a with
  | reset =>
    cases hact
    exact (resetState_afterReset s).machineInv
  | loadTable tb =>
    simp only [hostAct] at hact
    split at hact <;> cases hact
    next hp =>
      obtain ⟨hfault, hinv, hufc, -, -⟩ := h
      refine ⟨hfault, hinv, hufc, ?_, ?_⟩
      · obtain hp | hp := hp <;> simp [State.busy, hp]
      · obtain hp | hp := hp <;> simp [SessionInv, hp]
  | code b | emptyPorts =>
    simp only [hostAct] at hact
    split at hact <;> cases hact
    exact h
  | _ =>
    cases hact
    exact h

/-- Settles O54: a move is a step of the core or the host's, with the schedule advanced. -/
theorem everyMoveKeepsInvariant : Obligations.EveryMoveKeepsInvariant := by
  intro s t h hstep
  have hsched (r : List Move) : MachineInv { s with schedule := r } := h
  obtain ⟨r, he⟩ | ⟨a, r, -, he⟩ := step_cases s <;> rw [he] at hstep
  · exact core_keeps_inv (hsched r) hstep
  · exact hostAct_keeps_inv (hsched r) hstep

/-! ## Every run -/

theorem run_succ_eq_next {M : Host.Core} {n : Nat} {s t : M.State} (h : M.run (n + 1) s = .next t) :
    ∃ u, M.step s = .next u ∧ M.run n u = .next t := by
  rw [Host.Core.run] at h
  split at h
  next u hu => exact ⟨u, hu, h⟩
  · cases h
  · cases h

theorem run_keeps_inv {n : Nat} {s t : State} (h : MachineInv s)
    (hrun : Host.Core.run Sys2Proof.core n s = .next t) : MachineInv t := by
  induction n generalizing s with
  | zero =>
    cases hrun
    exact h
  | succ n ih =>
    obtain ⟨u, hstep, hrest⟩ := run_succ_eq_next hrun
    exact ih (everyMoveKeepsInvariant s u h hstep) hrest

/-- In a session the interval is in order (41 R141). -/
theorem MachineInv.lower_le_upper {s : State} (h : MachineInv s) (hb : s.busy = true) : s.lower ≤ s.upper := by
  have hs := h.sessionInv
  cases hp : s.phase with
  | idle | done | fault => simp [State.busy, hp] at hb
  | fetch | scale =>
    simp only [SessionInv, hp] at hs
    obtain ⟨-, hT⟩ := hs
    exact hT.le
  | narrow =>
    simp only [SessionInv, hp] at hs
    obtain ⟨hT, -⟩ := hs
    exact hT.le
  | renorm =>
    simp only [SessionInv, hp] at hs
    obtain ⟨hle, -⟩ := hs
    exact hle
  | finish | search =>
    simp only [SessionInv, hp] at hs
    obtain ⟨-, hT, -⟩ := hs
    exact hT.le
  | fill =>
    simp only [SessionInv, hp] at hs
    obtain ⟨-, -, hl, hu, -⟩ := hs
    rw [hl, hu]
    exact terminal_start.le

/-- A session is an encode session, a decode session in its fill, or a decode session past it. -/
theorem MachineInv.session_cases {s : State} (h : MachineInv s) (hb : s.busy = true) :
    EncodeKeeps s ∨ s.phase = .fill ∨ DecodeKeeps s := by
  have hs := h.sessionInv
  cases hp : s.phase with
  | idle | done | fault => simp [State.busy, hp] at hb
  | fetch | finish =>
    simp only [SessionInv, hp] at hs
    exact .inl hs.1
  | narrow =>
    simp only [SessionInv, hp] at hs
    obtain ⟨-, -, -, hkeeps | ⟨hkeeps, -⟩⟩ := hs
    · exact .inl hkeeps
    · exact .inr (.inr hkeeps)
  | renorm =>
    simp only [SessionInv, hp] at hs
    obtain ⟨-, ⟨hkeeps, -⟩ | hkeeps⟩ := hs
    · exact .inl hkeeps
    · exact .inr (.inr hkeeps)
  | fill => exact .inr (.inl rfl)
  | scale | search =>
    simp only [SessionInv, hp] at hs
    exact .inr (.inr hs.1)

/-- In a decode session past its fill the window is inside the interval (43 R190). -/
theorem MachineInv.windowInside {s : State} (h : MachineInv s) (hb : s.busy = true) (hm : s.mode = .dec)
    (hfill : s.phase ≠ .fill) : WindowInside s := by
  obtain ⟨henc, -⟩ | hp | ⟨-, -, -, hw⟩ := h.session_cases hb
  · rw [hm] at henc
    cases henc
  · exact absurd hp hfill
  · exact hw

/-- Settles O56: a reset state meets the invariant, and the invariant holds along the run. -/
theorem runsFromResetStayConsistent : Obligations.RunsFromResetStayConsistent := by
  intro s t n hs hrun
  have h := run_keeps_inv hs.machineInv hrun
  have ⟨_, hinv, _⟩ := h
  exact ⟨hinv, h.lower_le_upper, h.windowInside⟩

end Sys2Proof.Machine
end

section
/-! PROOFS. The encoder (spec/42_encoder.md R162 to R167): FETCH and the symbol codes, EMIT, DEFER and FINISH. -/

namespace Sys2Proof.Machine

/-! ## EMIT and DEFER -/

/-- Settles O30: EMIT reads `UFC` before it clears it. -/
theorem emitResolvesDeferredBits : Obligations.EmitResolvesDeferredBits :=
  fun s b => ⟨emit b s, rfl, bitsOut_emit b s, emit_frame b s⟩

theorem execDefer_of_room {s : State} (h : s.ufc + 1 < 2 ^ s.cfg.ufcBits) :
    execDefer s = .next { s with ufc := s.ufc + 1 } := by
  rw [execDefer, defer, if_pos h]

theorem execDefer_of_full {s : State} (h : 2 ^ s.cfg.ufcBits ≤ s.ufc + 1) : execDefer s = raiseFault .ufcovf s := by
  rw [execDefer, defer, if_neg (Nat.not_lt.mpr h)]

/-- Settles O31: the counter has room below its maximum and none at it. -/
theorem deferCountsOrFaults : Obligations.DeferCountsOrFaults :=
  fun s => ⟨execDefer_of_room, fun h => execDefer_of_full (by omega)⟩

/-! ## FINISH -/

/-- Equal bits come out the same with the last one put last. -/
theorem putBits_succ_last (n : Nat) (b : Bool) (s : State) : putBits (n + 1) b s = putBit b (putBits n b s) := by
  induction n generalizing s with
  | zero => rfl
  | succ n ih => exact ih (putBit b s)

/-- A PUTBIT that leaves no bit held has filled a byte with its bit at the top (44 R201). -/
theorem putBit_fills_byte {b : Bool} {s : State} (h : (putBit b s).nbits = 0) :
    (putBit b s).acc = 0 ∧ ∃ last, (putBit b s).codeOut = s.codeOut ++ [last] ∧ last.getLsbD 7 = b := by
  have h7 : s.nbits = 7#3 := by
    rw [putBit_nbits] at h
    bv_omega
  rw [putBit, if_pos h7]
  refine ⟨rfl, _, rfl, ?_⟩
  rw [setBit_getLsbD _ _ _ _ (by decide), h7]
  rfl

/-- A one put and padded ends in a byte whose top bit is 1, and leaves `ACC` empty (42 R167). -/
theorem padFlush_putBit_true_ends (s : State) :
    (padFlush (putBit true s)).acc = 0 ∧
      ∃ init last, (padFlush (putBit true s)).codeOut = init ++ [last] ∧ last.getLsbD 7 = true := by
  have hlast : padFlush (putBit true s) = putBit true (putBits (padCount (putBit true s)) true s) :=
    putBits_succ_last _ true s
  have hn := padFlush_nbits (putBit true s)
  rw [hlast] at hn ⊢
  obtain ⟨hacc, hbyte⟩ := putBit_fills_byte hn
  exact ⟨hacc, _, hbyte⟩

/-- The padding follows from the number of bits put before it. -/
theorem padCount_eq (s : State) : padCount s = (8 - (bitsOut s).length % 8) % 8 := by
  rw [padCount, bitsOut_length_mod]

/-- The marker and the padding, put bit by bit, are `finishBits` of the bits put before (42 R167). -/
theorem bitsOut_marker (s : State) :
    bitsOut (padFlush (putBit true (putBit false s))) = finishBits (bitsOut s) := by
  have hmarked : bitsOut (putBit true (putBit false s)) = bitsOut s ++ [false, true] := by
    rw [bitsOut_putBit, bitsOut_putBit, List.append_assoc]
    rfl
  rw [bitsOut_padFlush, padCount_eq, hmarked, List.length_append]
  rfl

/-- Settles O32: the last bit put is a one that completes its byte. -/
theorem finishPutsMarkerAndPadding : Obligations.FinishPutsMarkerAndPadding := by
  intro s
  obtain ⟨hacc, hends⟩ := padFlush_putBit_true_ends (putBit false s)
  have hnbits := padFlush_nbits (putBit true (putBit false s))
  have hframe := marker_frame s
  rw [hacc, hnbits] at hframe
  refine ⟨_, rfl, hnbits, ?_, congrArg (fun t : State => { t with phase := .done }) hframe, hends⟩
  exact (bitsOut_of_nbits_zero _ hnbits).symm.trans (bitsOut_marker s)

/-! ## FETCH and the symbol codes -/

theorem State.popSym_of_cons {s : State} {c : SymCode} {rest : List SymCode} (h : s.symIn = c :: rest) :
    s.popSym = { s with symIn := rest } := by
  rw [State.popSym, h, List.tail_cons]

theorem fetchSymbol_of_cons {s : State} {c : SymCode} {rest : List SymCode} (x : Symbol) (h : s.symIn = c :: rest) :
    fetchSymbol x s = .next { s with
      symIn := rest, sym := BitVec.ofNat 9 x.val, low := cfAt s.cfg.cf x.castSucc, high := cfAt s.cfg.cf x.succ,
      phase := .narrow } := by
  rw [fetchSymbol, State.popSym_of_cons h]
  rfl

theorem execSymIllegal_of_cons {s : State} {c : SymCode} {rest : List SymCode} (h : s.symIn = c :: rest) :
    execSymIllegal s = .next { s with symIn := rest, fcode := .illsym, phase := .fault } := by
  rw [execSymIllegal, State.popSym_of_cons h]
  rfl

/-- The code of a symbol selects the FETCH of that symbol (30 R82). -/
theorem exec_decodeSym_symbol (x : Symbol) (s : State) :
    exec (decodeSym (BitVec.ofNat 9 x.val)).toInstr s = fetchSymbol x s := by
  by_cases hx : x.val < 256
  · have hcode : BitVec.ofNat 9 x.val = (BitVec.ofNat 8 x.val).setWidth 9 := by
      apply BitVec.eq_of_toNat_eq
      simp only [BitVec.toNat_ofNat, BitVec.toNat_setWidth]
      omega
    rw [hcode, decodeSym_byte]
    change fetchSymbol (symbolOfByte (BitVec.ofNat 8 x.val)) s = _
    rw [symbolOfByte_ofNat hx]
  · obtain rfl : x = eofSymbol := Fin.ext (by change x.val = 256; omega)
    rfl

/-- The symbol of a byte, written as a code, is the byte widened (30 R82). -/
theorem symCode_symbolOfByte (v : Byte) : BitVec.ofNat 9 (symbolOfByte v).val = v.setWidth 9 :=
  BitVec.ofNat_toNat 9 v

/-- FETCH of a byte symbol latches the byte widened, with the pair of LOOKUP (42 R162). -/
theorem execFetchByte_of_cons {s : State} {c : SymCode} {rest : List SymCode} (v : Byte) (h : s.symIn = c :: rest) :
    execFetchByte v s = .next { s with
      symIn := rest, sym := v.setWidth 9, low := (lookup s.cfg.cf (symbolOfByte v)).1,
      high := (lookup s.cfg.cf (symbolOfByte v)).2, phase := .narrow } := by
  rw [execFetchByte, fetchSymbol_of_cons _ h, symCode_symbolOfByte]
  rfl

theorem execPhFetch_of_nil {s : State} (h : s.symIn = []) : execPhFetch s = .next s := by
  rw [execPhFetch, h]
  rfl

/-- Settles O14: held with no symbol, a symbol's code latched, a code above 256 a fault, and the three rows. -/
theorem fetchLatchesSymbol : Obligations.FetchLatchesSymbol := by
  intro s
  refine ⟨execPhFetch_of_nil, fun x rest h => (execPhFetch_cons h).trans ?_,
    fun c rest h hgt => (execPhFetch_cons h).trans ?_, fun v c rest h =>
    ⟨execFetchByte_of_cons v h, fetchSymbol_of_cons eofSymbol h, execSymIllegal_of_cons h⟩⟩
  · rw [exec_decodeSym_symbol, fetchSymbol_of_cons x h]
  · rw [decodeSym_illegal c hgt]
    exact execSymIllegal_of_cons h

end Sys2Proof.Machine
end

section
/-! PROOFS. The decoder's operations one by one (spec/43_decoder.md R182 to R188): CONSUME_SHIFT, CONSUME_SPLICE, FILL,
SCALE and SEARCH. -/

namespace Sys2Proof.Machine

/-! ## CONSUME_SHIFT, CONSUME_SPLICE and FILL -/

theorem execConsumeShift_of_bit {s u : State} {b : Bool} (h : getBit s = .bit b u) :
    execConsumeShift s = .next { u with window := shiftIn u.window b } := by
  rw [execConsumeShift, afterBit_consumeShift, h, afterBit]

theorem execConsumeSplice_of_bit {s u : State} {b : Bool} (h : getBit s = .bit b u) :
    execConsumeSplice s = .next { u with window := spliceIn u.window.msb u.window b } := by
  rw [execConsumeSplice, afterBit_consumeSplice, h, afterBit]

theorem spliceIn_getLsbD_31 (top : Bool) (w : Word) (b : Bool) : (spliceIn top w b).getLsbD 31 = top := by
  simp [spliceIn, BitVec.getElem_cons]

theorem spliceIn_getLsbD_zero (top : Bool) (w : Word) (b : Bool) : (spliceIn top w b).getLsbD 0 = b := by
  simp [spliceIn]

theorem spliceIn_getLsbD_succ {j : Nat} (top : Bool) (w : Word) (b : Bool) (h : j < 30) :
    (spliceIn top w b).getLsbD (j + 1) = w.getLsbD j := by
  have hj : j ≠ 30 := by omega
  simp [spliceIn, BitVec.getLsbD_cons, h, hj]

/-- Where the window's two top bits differ, CONSUME_SPLICE takes `2^30` off it (43 R188). -/
theorem spliceIn_toNat_of_differ {w : Word} (b : Bool) (h : w.getLsbD 31 ≠ w.getLsbD 30) :
    (spliceIn w.msb w b).toNat = 2 * (w.toNat - 2 ^ 30) + b.toNat := by
  have hmsb : w.msb = w.getLsbD 31 := BitVec.msb_eq_getLsbD_last w
  have hlt := w.isLt
  rw [spliceIn_toNat, hmsb]
  cases h31 : w.getLsbD 31 with
  | false =>
    have h30 : w.getLsbD 30 = true := eq_true_of_ne_false fun h30 => h (h31.trans h30.symm)
    rw [getLsbD_31_eq_false_iff] at h31
    rw [getLsbD_30_iff] at h30
    rw [Bool.toNat_false]
    omega
  | true =>
    have h30 : w.getLsbD 30 = false := eq_false_of_ne_true fun h30 => h (h31.trans h30.symm)
    rw [getLsbD_31_iff] at h31
    rw [getLsbD_30_eq_false_iff] at h30
    rw [Bool.toNat_true]
    omega

/-- Settles O35: both operations take their bit as GETBIT does and let it into the window that GETBIT left alone. -/
theorem consumeMovesWindow : Obligations.ConsumeMovesWindow := by
  intro s hr
  obtain ⟨b, u, hget, htook⟩ := getBit_of_ready s hr
  have hw := getBit_window hget
  refine ⟨b, u, htook, ⟨_, execConsumeShift_of_bit hget, ?_⟩, ⟨_, execConsumeSplice_of_bit hget, ?_⟩⟩
  · rw [hw, shiftIn_toNat_mod]
  · rw [hw]
    refine ⟨?_, spliceIn_getLsbD_zero _ _ _, fun i => spliceIn_getLsbD_succ _ _ _ i.isLt,
      spliceIn_toNat_of_differ b⟩
    rw [spliceIn_getLsbD_31]
    exact BitVec.msb_eq_getLsbD_last s.window

/-- Settles O36: FILL takes its bit as GETBIT does, which leaves the window and the count alone. -/
theorem fillShiftsOneBitIn : Obligations.FillShiftsOneBitIn := by
  intro s _ hr
  obtain ⟨b, u, hget, htook⟩ := getBit_of_ready s hr
  refine ⟨b, u, shiftIn s.window b, htook, ?_, shiftIn_toNat_mod s.window b⟩
  have hfill := execPhFill_of_bit hget
  rwa [getBit_window hget, getBit_fillcnt hget] at hfill

/-! ## SCALE -/

theorem execPhScale_of_inside {s : State} (hw : WindowInside s) (ht : total s.cfg.cf ≠ 0) :
    execPhScale s = .next { s with
      range := BitVec.ofNat 33 (intervalRange s.lower s.upper)
      scaled := BitVec.ofNat 32 (scaledPosition s.lower s.upper s.window (total s.cfg.cf))
      phase := .search } :=
  if_pos ⟨hw.1, hw.2, ht⟩

theorem execPhScale_of_outside {s : State} (hw : ¬ WindowInside s) : execPhScale s = raiseFault .invariant s :=
  if_neg fun ⟨hl, hu, _⟩ => hw ⟨hl, hu⟩

theorem total_pos_of_ne_zero {t : Word} (h : t ≠ 0) : 0 < t.toNat :=
  Nat.pos_of_ne_zero fun h0 => h (BitVec.eq_of_toNat_eq h0)

/-- SCALE stores its quotient whole (43 R183). -/
theorem scaled_toNat {l u w tot : Word} (hl : l ≤ w) (hu : w ≤ u) (ht : 0 < tot.toNat) :
    (BitVec.ofNat 32 (scaledPosition l u w tot)).toNat = scaledPosition l u w tot := by
  rw [BitVec.toNat_ofNat, Nat.mod_eq_of_lt ((scaledPosition_lt l u w tot hl hu ht).trans tot.isLt)]

/-- At the bottom of an interval at least `TOTAL` wide the position is 0 (43 R183). -/
theorem scaledPosition_bottom {l u tot : Word} (ht : 0 < tot.toNat) (hwide : tot.toNat ≤ intervalRange l u) :
    scaledPosition l u l tot = 0 := by
  rw [scaledPosition, Nat.add_sub_cancel_left, Nat.one_mul, Nat.div_eq_of_lt (by omega)]

/-- At the top of an interval the position is `TOTAL - 1` (43 R183). -/
theorem scaledPosition_top {l u tot : Word} (hle : l ≤ u) (ht : 0 < tot.toNat) :
    scaledPosition l u u tot = tot.toNat - 1 := by
  have hr : 0 < intervalRange l u := by
    rw [← intervalRange_eq hle]
    exact Nat.succ_pos _
  obtain ⟨n, hn⟩ : ∃ n, tot.toNat = n + 1 := ⟨tot.toNat - 1, by omega⟩
  rw [scaledPosition, ← intervalRange, hn, Nat.mul_succ, Nat.add_sub_assoc hr, Nat.mul_add_div hr,
    Nat.div_eq_of_lt (by omega)]
  rfl

/-- Settles O38: inside the interval the quotient is below `TOTAL` and fits its register, outside SCALE faults. -/
theorem scaleComputesPosition : Obligations.ScaleComputesPosition := by
  intro s
  refine ⟨fun hw htot => ?_, fun hw => execPhScale_of_outside hw⟩
  have ⟨hl, hu⟩ := hw
  have hle := BitVec.le_trans hl hu
  have ht := total_pos_of_ne_zero htot
  have hpos := scaled_toNat hl hu ht
  refine ⟨_, execPhScale_of_inside hw htot, ?_, ?_, ?_, fun hwide => ⟨fun hbottom => ?_, fun htop => ?_⟩, rfl⟩
  · have hlt : intervalRange s.lower s.upper < 2 ^ 33 := by
      rw [← intervalRange_eq hle]
      omega
    rw [intervalRange_eq hle, BitVec.toNat_ofNat, Nat.mod_eq_of_lt hlt]
  · have hwin : s.window.toNat - s.lower.toNat + 1 = s.window.toNat + 1 - s.lower.toNat := intervalRange_eq hl
    rw [hpos, intervalRange_eq hle, hwin, scaledPosition]
  · rw [BitVec.lt_def, hpos]
    exact scaledPosition_lt s.lower s.upper s.window (total s.cfg.cf) hl hu ht
  · rw [intervalRange_eq hle] at hwide
    rw [hbottom, scaledPosition_bottom ht hwide]
    rfl
  · rw [hpos, htop, scaledPosition_top hle ht]

/-- Settles O39: where SCALE does not fault it stores the position whole, and the position inverts NARROW. -/
theorem scaleInvertsNarrow : Obligations.ScaleInvertsNarrow := by
  intro s t x hstep hp
  obtain ⟨⟨hl, hu⟩, htot, rfl⟩ | ⟨-, rfl⟩ := execPhScale_cases hstep
  · have ht := total_pos_of_ne_zero htot
    obtain ⟨hlow, hhigh⟩ := scaledPosition_iff s.lower s.upper s.window (lowOf s.cfg.cf x) (highOf s.cfg.cf x)
      (total s.cfg.cf) hl hu ht
    rw [BitVec.le_def, BitVec.lt_def, scaled_toNat hl hu ht, hlow, hhigh]
  · cases hp

/-! ## SEARCH -/

theorem execPhSearch_of_byte {s : State} (hq : s.scaled < total s.cfg.cf)
    (hx : searchIndex s.cfg.cf s.scaled < 256) :
    execPhSearch s = .next (foundByte (BitVec.ofNat 8 (searchIndex s.cfg.cf s.scaled)) s) := by
  rw [execPhSearch, if_pos hq, if_pos hx]

theorem execPhSearch_of_eof {s : State} (hq : s.scaled < total s.cfg.cf)
    (hx : ¬ searchIndex s.cfg.cf s.scaled < 256) :
    execPhSearch s = .next { s with sym := 256#9, phase := .done } := by
  rw [execPhSearch, if_pos hq, if_neg hx]

theorem execPhSearch_of_ge {s : State} (hq : total s.cfg.cf ≤ s.scaled) :
    execPhSearch s = raiseFault .invariant s :=
  if_neg (BitVec.not_lt.2 hq)

/-- What SEARCH leaves when it finds the byte symbol `x` (43 R185). -/
theorem foundByte_eq {x : Symbol} (hx : x.val < 256) (s : State) :
    foundByte (BitVec.ofNat 8 x.val) s = { s with
      sym := BitVec.ofNat 9 x.val, byteOut := s.byteOut ++ [BitVec.ofNat 8 x.val],
      low := lowOf s.cfg.cf x, high := highOf s.cfg.cf x, phase := .narrow } := by
  have hsym : (BitVec.ofNat 8 x.val).setWidth 9 = BitVec.ofNat 9 x.val := by
    rw [← symCode_symbolOfByte, symbolOfByte_ofNat hx]
  rw [foundByte, symbolOfByte_ofNat hx, hsym]
  rfl

/-- No symbol before the one whose range holds a position ends above it (40 R112). -/
theorem highOf_le_lowOf {t : Table} (ht : CFValid t) {x y : Symbol} (h : y < x) :
    (highOf t y).toNat ≤ (lowOf t x).toNat :=
  (cfAt_strictMono t ht).monotone (Fin.succ_le_castSucc_iff.2 h)

/-- Settles O40: the scan stops at the symbol whose range holds the position, a byte or the end-of-stream symbol. -/
theorem searchFindsUniqueSymbol : Obligations.SearchFindsUniqueSymbol := by
  intro s
  refine ⟨fun ht hq => ?_, fun hq => execPhSearch_of_ge hq⟩
  obtain ⟨x, hx, hlow, hhigh⟩ := searchIndex_spec s.cfg.cf ht s.scaled hq
  refine ⟨x, ⟨hlow, hhigh, fun y hy hlt => ?_⟩, fun heof => ?_, fun hne => ?_⟩
  · have hle := highOf_le_lowOf ht hy
    rw [BitVec.le_def] at hlow
    rw [BitVec.lt_def] at hlt
    omega
  · have hend : ¬ searchIndex s.cfg.cf s.scaled < 256 := by
      rw [hx, heof]
      decide
    exact execPhSearch_of_eof hq hend
  · have hbyte : x.val < 256 := by
      have hval : x.val ≠ 256 := fun h => hne (Fin.ext h)
      omega
    have hfound : execPhSearch s = _ := execPhSearch_of_byte hq (hx ▸ hbyte)
    rw [hx, foundByte_eq hbyte] at hfound
    exact hfound

end Sys2Proof.Machine
end

section
/-! PROOFS. The round trip on the functions (spec/43_decoder.md R192): the run of `Encode` is followed backwards, from
the window the decoder holds at the end of the stream to the one it starts from. `Coded` says which window the decoder
holds beside the encoder, and each operation of `Encode` finds the window before it from the window after it. -/

namespace Sys2Proof.Machine

/-! ## A stretch of the stream as a number -/

/-- The `m` stream bits from position `n` on, the oldest most significant (20 R55). -/
def bitsValue (f : Nat → Bool) (n : Nat) : Nat → Nat
  | 0 => 0
  | m + 1 => 2 * bitsValue f n m + (f (n + m)).toNat

theorem bitsValue_add (f : Nat → Bool) (n a m : Nat) :
    bitsValue f n (a + m) = bitsValue f n a * 2 ^ m + bitsValue f (n + a) m := by
  induction m with
  | zero => simp [bitsValue]
  | succ m ih =>
    rw [← Nat.add_assoc, bitsValue, bitsValue, ih, Nat.pow_succ, Nat.add_assoc n a m]
    ring

/-- A bit, then `k` complements of it (42 R163). -/
theorem bitsValue_deferred {f : Nat → Bool} {n k : Nat} {b : Bool} (h0 : f n = b)
    (h : ∀ i < k, f (n + 1 + i) = !b) : bitsValue f n (1 + k) + (!b).toNat = 2 ^ k := by
  induction k with
  | zero => cases b <;> simp [bitsValue, h0]
  | succ k ih =>
    have hlast := h k (Nat.lt_succ_self k)
    have hprev := ih fun i hi => h i (Nat.lt_succ_of_lt hi)
    rw [← Nat.add_assoc, bitsValue, ← Nat.add_assoc, hlast, Nat.pow_succ]
    omega

/-- The window that FILL loads is the stretch of the first bits (43 R182). -/
theorem fillWindow_toNat (c : List Byte) {n : Nat} (h : n ≤ 32) :
    (fillWindow c n).toNat = bitsValue (streamBit c) 0 n ∧ bitsValue (streamBit c) 0 n < 2 ^ n := by
  induction n with
  | zero => exact ⟨rfl, Nat.one_pos⟩
  | succ n ih =>
    obtain ⟨heq, hlt⟩ := ih (by omega)
    have hpow : 2 ^ n ≤ 2 ^ 31 := Nat.pow_le_pow_right (by decide) (by omega)
    have hbit := (streamBit c n).toNat_le
    rw [fillWindow, bitsValue, Nat.zero_add, shiftIn_toNat, heq, Nat.pow_succ]
    omega

/-! ## The window beside the encoder -/

/-- The stream `f` begins with `bits`. -/
def Spells (f : Nat → Bool) (bits : List Bool) : Prop := ∀ i (h : i < bits.length), bits[i] = f i

theorem Spells.of_append {f : Nat → Bool} {bits more : List Bool} (h : Spells f (bits ++ more)) : Spells f bits := by
  intro i hi
  rw [← h i (by rw [List.length_append]; omega), List.getElem_append_left hi]

theorem Spells.getElem_append {f : Nat → Bool} {bits more : List Bool} (h : Spells f (bits ++ more)) (i : Nat)
    (hi : i < more.length) : f (bits.length + i) = more[i] := by
  rw [← h _ (by rw [List.length_append]; omega), List.getElem_append_right (by omega)]
  simp only [Nat.add_sub_cancel_left]

/-- The decoder of the stream `f` holds the window `w` when the encoder that wrote it is at `e`: the window is inside
the interval, and the `32 + k` bits after those already put, `k` being those deferred, are the window with the amount
that the `k` splices took off put back. -/
structure Coded (f : Nat → Bool) (e : Encoder) (w : Word) : Prop where
  spells : Spells f e.bits
  lower_le : e.l ≤ w
  le_upper : w ≤ e.u
  value : bitsValue f e.bits.length (32 + e.k) + 2 ^ 31 = w.toNat + 2 ^ 31 * 2 ^ e.k

/-- The decoder with that window: it has taken the bits put, those deferred, and a window's width more. -/
def decoderAt (e : Encoder) (w : Word) : Decoder := { l := e.l, u := e.u, w := w, t := e.bits.length + e.k + 32 }

/-! ## One pass of the loop, backwards -/

theorem encIter_of_determinate {b : Bool} {e : Encoder} (h : Determinate b e.l e.u) :
    encIter e = some {
      l := shiftIn e.l false, u := shiftIn e.u true, k := 0, bits := e.bits ++ b :: List.replicate e.k (!b) } := by
  obtain ⟨hl, hu⟩ := h
  rw [encIter, hl, hu, if_pos rfl]

theorem encIter_of_straddles {e : Encoder} (h : Straddles e.l e.u) :
    encIter e = some {
      l := spliceIn false e.l false, u := spliceIn true e.u true, k := e.k + 1, bits := e.bits } := by
  obtain ⟨hl31, hl30, hu31, hu30⟩ := h
  rw [encIter, hl31, hu31, if_neg (by decide), if_pos ⟨hl30, hu30⟩]

theorem decIter_of_determinate {b : Bool} {d : Decoder} (c : List Byte) (h : Determinate b d.l d.u) :
    decIter c d = some {
      l := shiftIn d.l false, u := shiftIn d.u true, w := shiftIn d.w (streamBit c d.t), t := d.t + 1 } := by
  obtain ⟨hl, hu⟩ := h
  rw [decIter, hl, hu, if_pos rfl]

theorem decIter_of_straddles {d : Decoder} (c : List Byte) (h : Straddles d.l d.u) :
    decIter c d = some {
      l := spliceIn false d.l false, u := spliceIn true d.u true, w := spliceIn d.w.msb d.w (streamBit c d.t),
      t := d.t + 1 } := by
  obtain ⟨hl31, hl30, hu31, hu30⟩ := h
  rw [decIter, hl31, hu31, if_neg (by decide), if_pos ⟨hl30, hu30⟩]

theorem decIter_of_terminal {d : Decoder} (c : List Byte) (h : Terminal d.l d.u) : decIter c d = none := by
  obtain ⟨hl, hu, hnot⟩ := h
  rw [decIter, hl, hu, if_neg (by decide), if_neg]
  rintro ⟨hl30, hu30⟩
  rw [hl30, hu30] at hnot
  exact absurd hnot (by decide)

/-- A stretch `v` of the stream whose doubling is `x` with the splices' amount put back is a window between the halves
of the interval's ends. -/
theorem exists_window_before {v p x : Nat} {b : Bool} {l u : Word} (h : 2 * v + b.toNat + 2 ^ 32 = x + 2 ^ 32 * p)
    (hl : 2 * l.toNat ≤ x) (hu : x ≤ 2 * u.toNat + 1) :
    ∃ w : Word, v + 2 ^ 31 = w.toNat + 2 ^ 31 * p ∧ 2 * w.toNat + b.toNat = x ∧ l ≤ w ∧ w ≤ u := by
  have hb := b.toNat_le
  have hlt := u.isLt
  have hw : (BitVec.ofNat 32 (x / 2)).toNat = x / 2 := by rw [BitVec.toNat_ofNat, Nat.mod_eq_of_lt (by omega)]
  refine ⟨BitVec.ofNat 32 (x / 2), ?_⟩
  rw [BitVec.le_def, BitVec.le_def, hw]
  omega

/-- Before a pass of RN_E1 the window is half of what it is after it, with the determinate bit on top. -/
theorem Coded.before_shift {c : List Byte} {e e' : Encoder} {w' : Word} {b : Bool} (hb : Determinate b e.l e.u)
    (he : encIter e = some e') (h : Coded (streamBit c) e' w') :
    ∃ w, Coded (streamBit c) e w ∧ decIter c (decoderAt e w) = some (decoderAt e' w') := by
  rw [encIter_of_determinate hb] at he
  obtain rfl := Option.some.inj he
  obtain ⟨hspells, hlw, hwu, hvalue⟩ := h
  simp only [BitVec.le_def] at hlw hwu
  have hlower := shiftIn_determinate e.l b false hb.1
  have hupper := shiftIn_determinate e.u b true hb.2
  have hput : bitsValue (streamBit c) e.bits.length (1 + e.k) + (!b).toNat = 2 ^ e.k := by
    refine bitsValue_deferred (hspells.getElem_append 0 (by simp)) fun i hi => ?_
    rw [Nat.add_assoc, Nat.add_comm 1 i, hspells.getElem_append (i + 1) (by simpa using hi)]
    simp
  have hsplit := bitsValue_add (streamBit c) e.bits.length (1 + e.k) 32
  have hlast : bitsValue (streamBit c) e.bits.length (1 + e.k + 32) =
      2 * bitsValue (streamBit c) e.bits.length (32 + e.k) + (streamBit c (e.bits.length + e.k + 32)).toNat := by
    rw [show 1 + e.k + 32 = 32 + e.k + 1 by omega, bitsValue, Nat.add_comm 32 e.k, ← Nat.add_assoc]
  have hlen : (e.bits ++ b :: List.replicate e.k (!b)).length = e.bits.length + (1 + e.k) := by
    simp only [List.length_append, List.length_cons, List.length_replicate]
    omega
  have hnot : (!b).toNat + b.toNat = 1 := by cases b <;> rfl
  simp only [hlen, Nat.add_zero, Nat.pow_zero] at hvalue
  simp only [Bool.toNat_false, Bool.toNat_true] at hlower hupper
  obtain ⟨w, hw, hdouble, hle⟩ := exists_window_before (v := bitsValue (streamBit c) e.bits.length (32 + e.k))
    (p := 2 ^ e.k) (x := w'.toNat + b.toNat * 2 ^ 32) (b := streamBit c (e.bits.length + e.k + 32))
    (l := e.l) (u := e.u) (by omega) (by omega) (by omega)
  refine ⟨w, ⟨hspells.of_append, hle.1, hle.2, hw⟩, ?_⟩
  rw [decIter_of_determinate c (d := decoderAt e w) hb]
  simp only [decoderAt, hlen, Option.some.injEq, Decoder.mk.injEq, true_and]
  refine ⟨BitVec.eq_of_toNat_eq ?_, by omega⟩
  have hlt := w'.isLt
  have hbit := (streamBit c (e.bits.length + e.k + 32)).toNat_le
  rw [shiftIn_toNat_mod]
  omega

/-- Before a pass of RN_E3 the window is half of what it is after it with `2^31` put back. -/
theorem Coded.before_splice {c : List Byte} {e e' : Encoder} {w' : Word} (hs : Straddles e.l e.u)
    (he : encIter e = some e') (h : Coded (streamBit c) e' w') :
    ∃ w, Coded (streamBit c) e w ∧ decIter c (decoderAt e w) = some (decoderAt e' w') := by
  rw [encIter_of_straddles hs] at he
  obtain rfl := Option.some.inj he
  obtain ⟨hspells, hlw, hwu, hvalue⟩ := h
  simp only [BitVec.le_def] at hlw hwu
  have ⟨hl31, hl30, hu31, hu30⟩ := hs
  have hlower := spliceIn_lower e.l false hl31 hl30
  have hupper := spliceIn_upper e.u true hu31 hu30
  have hlast : bitsValue (streamBit c) e.bits.length (32 + (e.k + 1)) =
      2 * bitsValue (streamBit c) e.bits.length (32 + e.k) + (streamBit c (e.bits.length + e.k + 32)).toNat := by
    rw [← Nat.add_assoc, bitsValue, Nat.add_comm 32 e.k, ← Nat.add_assoc]
  simp only [Nat.pow_succ 2 e.k] at hvalue
  simp only [Bool.toNat_false, Bool.toNat_true] at hlower hupper
  obtain ⟨w, hw, hdouble, hle⟩ := exists_window_before (v := bitsValue (streamBit c) e.bits.length (32 + e.k))
    (p := 2 ^ e.k) (x := w'.toNat + 2 ^ 31) (b := streamBit c (e.bits.length + e.k + 32))
    (l := e.l) (u := e.u) (by omega) (by omega) (by omega)
  refine ⟨w, ⟨hspells, hle.1, hle.2, hw⟩, ?_⟩
  have hsplice := window_splice_toNat (c := streamBit c (e.bits.length + e.k + 32)) hs hle.1 hle.2
  rw [decIter_of_straddles c (d := decoderAt e w) hs]
  simp only [decoderAt, Option.some.injEq, Decoder.mk.injEq, true_and]
  exact ⟨BitVec.eq_of_toNat_eq (by omega), by omega⟩

/-- The loop of `Decode` goes from the window before the loop of `Encode` to the window after it. -/
theorem Coded.before_renorm {c : List Byte} {n : Nat} {e : Encoder} {w' : Word} (hle : e.l ≤ e.u)
    (h : Coded (streamBit c) (encRenorm n e) w') :
    ∃ w, Coded (streamBit c) e w ∧ decRenorm c n (decoderAt e w) = decoderAt (encRenorm n e) w' := by
  induction n generalizing e with
  | zero => exact ⟨w', h, rfl⟩
  | succ n ih =>
    obtain hT | ⟨l, u, hpass⟩ := terminal_or_pass hle
    · rw [encRenorm, encIter_of_terminal hT] at h ⊢
      exact ⟨w', h, by rw [decRenorm, decIter_of_terminal c (d := decoderAt e w') hT]⟩
    · obtain ⟨e', hiter, rfl, rfl⟩ := encIter_of_pass hpass
      rw [encRenorm, hiter] at h ⊢
      obtain ⟨v, hv, hrest⟩ := ih (hpass.le hle) h
      obtain ⟨w, hw, hdec⟩ : ∃ w, Coded (streamBit c) e w ∧ decIter c (decoderAt e w) = some (decoderAt e' v) := by
        obtain ⟨b, hb⟩ | hs | hT := pattern_cases_of_le hle
        · exact hv.before_shift hb hiter
        · exact hv.before_splice hs hiter
        · rw [encIter_of_terminal hT] at hiter
          cases hiter
      exact ⟨w, hw, by rw [decRenorm, hdec]; exact hrest⟩

/-! ## One symbol, and the message -/

/-- The position under a window in a symbol's sub-interval finds that symbol (43 R184, R185). -/
theorem searchIndex_of_window {t : Table} {l u w : Word} {x : Symbol} (ht : CFValid t) (hlw : l ≤ w) (hwu : w ≤ u)
    (hlow : narrowLow l u (lowOf t x) (total t) ≤ w.toNat) (hhigh : w.toNat < narrowEnd l u (highOf t x) (total t)) :
    searchIndex t (BitVec.ofNat 32 (scaledPosition l u w (total t))) = x.val := by
  have htot := total_ge t ht
  have hpos := scaledPosition_lt l u w (total t) hlw hwu (by omega)
  obtain ⟨hl, hh⟩ := scaledPosition_iff l u w (lowOf t x) (highOf t x) (total t) hlw hwu (by omega)
  have hq := scaled_toNat hlw hwu (tot := total t) (by omega)
  generalize BitVec.ofNat 32 (scaledPosition l u w (total t)) = q at hq ⊢
  have hqt : q < total t := by rwa [BitVec.lt_def, hq]
  obtain ⟨y, hy, hin⟩ := searchIndex_spec t ht q hqt
  have hx : lowOf t x ≤ q ∧ q < highOf t x := by
    rw [BitVec.le_def, BitVec.lt_def, hq]
    exact ⟨hl.2 hlow, hh.2 hhigh⟩
  rw [hy, (existsUnique_symbol t ht q hqt).unique hin hx]

/-- `Encode` can code any symbol from a terminal interval, and stops at one (41 R132, R144). -/
theorem encSymbol_of_safe {t : Table} (ht : CFSafe t) {e : Encoder} (hT : Terminal e.l e.u) (x : Symbol) :
    ∃ e', encSymbol t x e = some e' ∧ Terminal e'.l e'.u := by
  obtain ⟨l, u, hn, -, -, -, hle, -⟩ := narrowed_of_safe t ht e.l e.u hT x
  have hend := encRenorm_terminal (e := { e with l := l, u := u }) hle (wide_after_thirty_two hle)
  exact ⟨_, by rw [encSymbol, hn], hend⟩

theorem encSymbols_of_safe {t : Table} (ht : CFSafe t) (xs : List Symbol) {e : Encoder} (hT : Terminal e.l e.u) :
    ∃ e', encSymbols t xs e = some e' ∧ Terminal e'.l e'.u := by
  induction xs generalizing e with
  | nil => exact ⟨e, rfl, hT⟩
  | cons x xs ih =>
    obtain ⟨e₁, hsym, hT₁⟩ := encSymbol_of_safe ht hT x
    obtain ⟨e', hrest, hend⟩ := ih hT₁
    exact ⟨e', by rw [encSymbols, hsym]; exact hrest, hend⟩

/-- Before a symbol is coded the window is in its sub-interval: SEARCH finds it, and the decoder goes on to the window
after it. -/
theorem Coded.before_symbol {t : Table} (ht : CFSafe t) {c : List Byte} {e e' : Encoder} {w' : Word} {x : Symbol}
    (hT : Terminal e.l e.u) (he : encSymbol t x e = some e') (h : Coded (streamBit c) e' w') :
    ∃ w l u, Coded (streamBit c) e w ∧
      searchIndex t (BitVec.ofNat 32 (scaledPosition e.l e.u w (total t))) = x.val ∧
      narrowed e.l e.u (lowOf t x) (highOf t x) (total t) = some (l, u) ∧
      decRenorm c 32 { l := l, u := u, w := w, t := e.bits.length + e.k + 32 } = decoderAt e' w' := by
  obtain ⟨l, u, hn, hl, hu, hel, hle, hue⟩ := narrowed_of_safe t ht e.l e.u hT x
  rw [encSymbol, hn] at he
  obtain rfl := Option.some.inj he
  obtain ⟨w, ⟨hspells, hlw, hwu, hvalue⟩, hdec⟩ := Coded.before_renorm (e := { e with l := l, u := u }) hle h
  have hlw' := BitVec.le_trans hel hlw
  have hwu' := BitVec.le_trans hwu hue
  refine ⟨w, l, u, ⟨hspells, hlw', hwu', hvalue⟩, searchIndex_of_window ht.1 hlw' hwu' ?_ ?_, hn, hdec⟩
  · simp only [BitVec.le_def] at hlw
    omega
  · simp only [BitVec.le_def] at hwu
    omega

/-- From the window it holds before the message, `Decode` finds the message and stops. -/
theorem Coded.before_message {t : Table} (ht : CFSafe t) {c : List Byte} {e e' : Encoder} {w' : Word} (m : List Byte)
    (hT : Terminal e.l e.u) (he : encSymbols t (messageSymbols m) e = some e') (h : Coded (streamBit c) e' w') :
    ∃ w, Coded (streamBit c) e w ∧
      ∀ out, decodeFrom t c (m.length + 1) (decoderAt e w) out = some (out ++ m) := by
  induction m generalizing e with
  | nil =>
    obtain ⟨e₁, hsym, -⟩ := encSymbol_of_safe ht hT eofSymbol
    simp only [messageSymbols, List.map_nil, List.nil_append, encSymbols, hsym] at he
    obtain rfl := Option.some.inj he
    obtain ⟨w, l, u, hw, hx, -⟩ := h.before_symbol ht hT hsym
    refine ⟨w, hw, fun out => ?_⟩
    simp only [decodeFrom, decoderAt, hx, List.append_nil]
    rfl
  | cons v m ih =>
    obtain ⟨e₁, hsym, hT₁⟩ := encSymbol_of_safe ht hT (symbolOfByte v)
    simp only [messageSymbols, List.map_cons, List.cons_append, encSymbols, hsym] at he
    obtain ⟨w₁, hw₁, hrest⟩ := ih hT₁ he
    obtain ⟨w, l, u, hw, hx, hn, hdec⟩ := hw₁.before_symbol ht hT hsym
    refine ⟨w, hw, fun out => ?_⟩
    have hv : BitVec.ofNat 8 (symbolOfByte v).val = v := BitVec.ofNat_toNat 8 v
    have hlt : (symbolOfByte v).val < 256 := v.isLt
    rw [List.length_cons, decodeFrom, decoderAt]
    simp only [hx, hlt, if_true, hv, hn, hdec, hrest, List.append_assoc, List.singleton_append]

/-! ## The stream of a message -/

theorem finishBits_length (bits : List Bool) : ∃ n, (finishBits bits).length = 8 * n ∧ n ≠ 0 := by
  refine ⟨(finishBits bits).length / 8, ?_⟩
  simp only [finishBits, List.length_append, List.length_replicate, List.length_cons, List.length_nil]
  omega

/-- The bits put, the marker's zero, its one, and the padding (42 R167). -/
theorem finishBits_eq (bits : List Bool) :
    finishBits bits = bits ++ false :: true :: List.replicate ((8 - (bits.length + 2) % 8) % 8) true := by
  rw [finishBits, List.append_assoc]
  rfl

theorem bytesBits_packBits_finishBits (bits : List Bool) :
    bytesBits (packBits (finishBits bits)) = finishBits bits := by
  obtain ⟨n, hn, -⟩ := finishBits_length bits
  exact bytesBits_packBits _ n hn

theorem packBits_finishBits_length (bits : List Bool) :
    8 * (packBits (finishBits bits)).length = (finishBits bits).length := by
  rw [← bytesBits_length, bytesBits_packBits_finishBits]

theorem packBits_finishBits_ne_nil (bits : List Bool) : packBits (finishBits bits) ≠ [] := by
  obtain ⟨n, hn, h0⟩ := finishBits_length bits
  have hlen := packBits_finishBits_length bits
  intro hnil
  rw [hnil, List.length_nil] at hlen
  omega

/-- The bytes of `Encode` are read back as the bits put, the marker and the padding (44 R208). -/
theorem spells_packBits_finishBits (bits : List Bool) :
    Spells (streamBit (packBits (finishBits bits)))
      (bits ++ false :: true :: List.replicate ((8 - (bits.length + 2) % 8) % 8) true) := by
  rw [← finishBits_eq]
  intro i hi
  have hlen : i < (bytesBits (packBits (finishBits bits))).length := by rwa [bytesBits_packBits_finishBits]
  rw [← bytesBits_getElem hlen]
  simp only [bytesBits_packBits_finishBits]

/-- After the marker's zero the stream is ones: its one, the padding, and the last bit for ever. -/
theorem streamBit_after_marker (bits : List Bool) (i : Nat) :
    streamBit (packBits (finishBits bits)) (bits.length + (i + 1)) = true := by
  have hspells := spells_packBits_finishBits bits
  have hlen := packBits_finishBits_length bits
  rw [finishBits_eq bits, List.length_append, List.length_cons, List.length_cons, List.length_replicate,
    ← finishBits_eq bits] at hlen
  induction i with
  | zero => exact hspells.getElem_append 1 (by simp)
  | succ i ih =>
    by_cases hi : i < (8 - (bits.length + 2) % 8) % 8
    · rw [hspells.getElem_append (i + 2) (by simpa using hi)]
      simp
    · rw [← Nat.add_assoc, streamBit_succ_of_le (by omega)]
      exact ih

/-- At the end of a message the decoder's window is a zero and ones, which every terminal interval holds. -/
theorem coded_at_end {e : Encoder} (hT : Terminal e.l e.u) :
    Coded (streamBit (packBits (finishBits e.bits))) e 0x7FFFFFFF := by
  have hspells := spells_packBits_finishBits e.bits
  have hmarker : bitsValue (streamBit (packBits (finishBits e.bits))) e.bits.length (1 + (31 + e.k)) + 1 =
      2 ^ (31 + e.k) := by
    refine bitsValue_deferred (b := false) (hspells.getElem_append 0 (by simp)) fun i _ => ?_
    rw [Nat.add_assoc, Nat.add_comm 1 i]
    exact streamBit_after_marker e.bits i
  obtain ⟨hl, hu, -⟩ := hT
  rw [getLsbD_31_eq_false_iff] at hl
  rw [getLsbD_31_iff] at hu
  refine ⟨hspells.of_append, ?_, ?_, ?_⟩
  · rw [BitVec.le_def]
    exact Nat.le_of_lt_succ hl
  · rw [BitVec.le_def]
    exact Nat.le_of_succ_le hu
  · have hlast : (0x7FFFFFFF : Word).toNat + 1 = 2 ^ 31 := rfl
    rw [Nat.pow_add] at hmarker
    rw [show 32 + e.k = 1 + (31 + e.k) by omega]
    omega

/-- The window that FILL loads is the one beside the encoder at the start of a session. -/
theorem Coded.decoderStart_eq {c : List Byte} {w : Word} (h : Coded (streamBit c) Encoder.start w) :
    Decoder.start c = decoderAt Encoder.start w := by
  obtain ⟨-, -, -, hvalue⟩ := h
  simp only [Encoder.start, List.length_nil, Nat.add_zero, Nat.pow_zero] at hvalue
  obtain ⟨hwindow, -⟩ := fillWindow_toNat c (Nat.le_refl 32)
  have hw : fillWindow c 32 = w := BitVec.eq_of_toNat_eq (by omega)
  rw [Decoder.start, hw]
  rfl

/-- Settles O59: the window at the end of the stream is followed back to the one that FILL loads. -/
theorem decodeUndoesEncodeMessage : Obligations.DecodeUndoesEncodeMessage := by
  intro t m ht
  have hT₀ : Terminal Encoder.start.l Encoder.start.u := terminal_start
  obtain ⟨e, he, hT⟩ := encSymbols_of_safe ht (messageSymbols m) hT₀
  obtain ⟨w, hw, hdec⟩ := (coded_at_end hT).before_message ht m hT₀ he
  refine ⟨_, by rw [encodeMessage, he], packBits_finishBits_ne_nil e.bits, ?_⟩
  rw [decodeStream, hw.decoderStart_eq]
  exact hdec []

end Sys2Proof.Machine
end

section
/-! PROOFS. Interleavings (spec/45_sequencer.md R229, R231, R232): a run under a schedule that feeds and drains the ports
is followed by the run of the same state with everything pushed at once. `pending` is what separates the two states at
any time: the moves to come of the schedule, pushed already, and the output bytes that the host has taken. -/

namespace Sys2Proof.Machine

/-! ## Runs -/

theorem run_succ {M : Host.Core} {n : Nat} {s t : M.State} (h : M.step s = .next t) : M.run (n + 1) s = M.run n t := by
  rw [Host.Core.run, h]

theorem run_add {M : Host.Core} {m n : Nat} {s t : M.State} (h : M.run m s = .next t) :
    M.run (m + n) s = M.run n t := by
  induction m generalizing s with
  | zero =>
    cases h
    rw [Nat.zero_add]
  | succ m ih =>
    obtain ⟨u, hstep, hrest⟩ := run_succ_eq_next h
    rw [Nat.add_right_comm, run_succ hstep, ih hrest]

/-- A run that has come to rest stays there. -/
theorem run_of_le {M : Host.Core} {n k : Nat} {s t : M.State} (h : M.run n s = .next t) (hrest : M.step t = .next t)
    (hk : n ≤ k) : M.run k s = .next t := by
  induction k, hk using Nat.le_induction with
  | base => exact h
  | succ k _ ih =>
    rw [run_add ih]
    exact (run_succ hrest).trans rfl

/-! ## A step of the core always has a next state, and a held one changes nothing -/

theorem exists_next_afterBit (r : BitRead) (s : State) (f : Bool → State → State) : ∃ t, afterBit r s f = .next t := by
  cases r with
  | bit b u => exact ⟨_, rfl⟩
  | noBits => exact ⟨_, rfl⟩
  | held => exact ⟨_, rfl⟩

theorem exists_next_consumeCommand (s : State) : ∃ t, consumeCommand s = .next t := by
  unfold consumeCommand
  split
  · exact ⟨_, rfl⟩
  · split
    · exact ⟨_, rfl⟩
    · unfold execStartEnc
      split <;> exact ⟨_, rfl⟩
    · unfold execStartDec
      split <;> exact ⟨_, rfl⟩
    · exact ⟨_, rfl⟩

theorem exists_next_execPhFetch (s : State) : ∃ t, execPhFetch s = .next t := by
  unfold execPhFetch
  split
  · exact ⟨_, rfl⟩
  · split <;> exact ⟨_, rfl⟩

theorem exists_next_execPhRenorm (s : State) : ∃ t, execPhRenorm s = .next t := by
  obtain ⟨b, hb⟩ | hs | hT | ⟨hl, hu⟩ := pattern_cases s.lower s.upper
  · rw [execPhRenorm_determinate hb, renormE1]
    split
    · exact ⟨_, rfl⟩
    · exact exists_next_afterBit _ _ _
  · rw [execPhRenorm_straddles hs, renormE3]
    split
    · split <;> exact ⟨_, rfl⟩
    · exact exists_next_afterBit _ _ _
  · obtain ⟨p, hterm, -⟩ := renormTerm_next s
    exact ⟨_, (execPhRenorm_terminal hT).trans hterm⟩
  · exact ⟨_, execPhRenorm_unreachable hl hu⟩

theorem exists_next_currentInstr (s : State) : ∃ t, exec (currentInstr s) s = .next t := by
  unfold currentInstr
  split
  · cases s.phase with
    | idle | done => exact exists_next_consumeCommand s
    | fetch => exact exists_next_execPhFetch s
    | narrow =>
      change ∃ t, execPhNarrow s = .next t
      unfold execPhNarrow
      split <;> exact ⟨_, rfl⟩
    | renorm => exact exists_next_execPhRenorm s
    | finish | fault => exact ⟨_, rfl⟩
    | fill => exact exists_next_afterBit _ _ _
    | scale =>
      change ∃ t, execPhScale s = .next t
      unfold execPhScale
      split <;> exact ⟨_, rfl⟩
    | search =>
      change ∃ t, execPhSearch s = .next t
      unfold execPhSearch
      split
      · split <;> exact ⟨_, rfl⟩
      · exact ⟨_, rfl⟩
  · exact ⟨_, rfl⟩

theorem afterBit_of_held {s : State} (h : getBit s = .held) (f : Bool → State → State) :
    afterBit (getBit s) s f = .next s := by
  rw [h]
  rfl

/-- RENORM waits for a bit in decode mode, where its pattern takes one (45 R231 (c)). -/
theorem execPhRenorm_of_held {s : State} (hm : s.mode = .dec)
    (htakes : RnOp.takesBit (decodeRn (rnPattern s.lower s.upper)) = true) (h : getBit s = .held) :
    execPhRenorm s = .next s := by
  have hshift (b : Bool) : renormE1 b s = .next s := by rw [renormE1_dec hm, afterBit_of_held h]
  have hsplice : renormE3 s = .next s := by rw [renormE3_dec hm, afterBit_of_held h]
  unfold execPhRenorm
  cases hr : decodeRn (rnPattern s.lower s.upper) with
  | e1b0 x y => exact hshift false
  | e1b1 x y => exact hshift true
  | e3 => exact hsplice
  | term001 y | term0111 | unreachable x y =>
    rw [hr] at htakes
    cases htakes

/-- A held step changes nothing (45 R231, log 4). -/
theorem exec_of_held {s : State} (h : s.held = true) : exec (currentInstr s) s = .next s := by
  unfold currentInstr
  split
  · cases hp : s.phase with
    | idle | done =>
      have hc : s.cmd = [] := by simpa [State.held, hp] using h
      change consumeCommand s = .next s
      rw [consumeCommand, hc]
      rfl
    | fetch => exact execPhFetch_of_nil (by simpa [State.held, hp] using h)
    | fill =>
      have hb : s.bitAvailable = false := by simpa [State.held, hp] using h
      exact afterBit_of_held ((getBit_held_iff_bitAvailable s).2 hb) _
    | renorm =>
      obtain ⟨⟨hm, htakes⟩, hb⟩ : (s.mode = .dec ∧ RnOp.takesBit (decodeRn (rnPattern s.lower s.upper)) = true) ∧
          s.bitAvailable = false := by simpa [State.held, hp] using h
      exact execPhRenorm_of_held hm htakes ((getBit_held_iff_bitAvailable s).2 hb)
    | narrow | finish | scale | search | fault => simp [State.held, hp] at h
  · rfl

theorem Effect.schedule_eq {i : Instr} {s t : State} (h : Effect s i t) : t.schedule = s.schedule := by
  cases h <;> rfl

theorem step_of_schedule_nil {s : State} (h : s.schedule = []) : step s = exec (currentInstr s) s := by
  rw [step, nextMove, h]

theorem step_of_schedule_core {s : State} {r : List Move} (h : s.schedule = .core :: r) :
    step s = exec (currentInstr { s with schedule := r }) { s with schedule := r } := by
  rw [step, nextMove, h]

theorem step_of_schedule_host {s : State} {a : HostAction} {r : List Move} (h : s.schedule = .host a :: r) :
    step s = hostAct a { s with schedule := r } := by
  rw [step, nextMove, h]

theorem run_schedule_nil {n : Nat} {s t : State} (hs : s.schedule = [])
    (h : Host.Core.run Sys2Proof.core n s = .next t) : t.schedule = [] := by
  induction n generalizing s with
  | zero =>
    cases h
    exact hs
  | succ n ih =>
    obtain ⟨u, hstep, hrest⟩ := run_succ_eq_next h
    refine ih ?_ hrest
    have hexec : exec (currentInstr s) s = .next u := (step_of_schedule_nil hs).symm.trans hstep
    rw [(exec_effect hexec).schedule_eq, hs]

/-! ## What separates a state from the one fed whole -/

/-- The margin of a state within the one where all its schedule pushes has been pushed, and where the bytes `code` and
`byte` that the host has taken stand on the outputs still. -/
def pending (code byte : List Byte) (s : State) : Margin where
  cmd := pushedCmd s.schedule
  sym := pushedSym s.schedule
  code := pushedCode s.schedule
  ends := endsStream s.schedule
  takenCode := code
  takenByte := byte
  moves := []

theorem fedWhole_eq_within (s : State) : fedWhole s = s.within (pending [] [] s) := rfl

theorem noCodeAfterEnd_true {l : List Move} (h : noCodeAfterEnd true l = true) : pushedCode l = [] := by
  induction l with
  | nil => rfl
  | cons m rest ih =>
    cases m with
    | core => exact ih h
    | host a =>
      cases a with
      | code b => cases h
      | _ => exact ih h

/-- What the host takes from the output `q` in the next move, `a` being its pop of that output. -/
def takenNow (a : HostAction) (q : State → List Byte) (s : State) : List Byte :=
  if s.schedule.head? = some (.host a) then (q s).take 1 else []

theorem drained_succ {s t : State} (a : HostAction) (q : State → List Byte) (n : Nat) (h : step s = .next t) :
    drained a q (n + 1) s = takenNow a q s ++ drained a q n t := by
  rw [drained, h]
  rfl

/-- The state fed whole that goes with `s`, where the host has taken `code` and `byte` from the outputs so far. -/
def wholeAt (code byte : List Byte) (s : State) : State := s.within (pending code byte s)

/-- The same, once the next move of `s` has led to `v`. -/
def wholeNext (code byte : List Byte) (s v : State) : State :=
  wholeAt (code ++ takenNow .popCodeOut State.codeOut s) (byte ++ takenNow .popByteOut State.byteOut s) v

theorem endsStream_cons (m : Move) (l : List Move) :
    endsStream (m :: l) = (decide (m = .host .codeEnd) || endsStream l) := rfl

theorem take_one_append_tail (l : List Byte) : l.take 1 ++ l.tail = l := by
  rw [← List.drop_one, List.take_append_drop]

/-- A move of the host that feeds or drains leads to a state with the same state fed whole. -/
theorem wholeNext_of_host {s : State} {a : HostAction} {r : List Move} (code byte : List Byte)
    (h : HostFeedsAndDrains s) (hs : s.schedule = .host a :: r) :
    ∃ v, step s = .next v ∧ HostFeedsAndDrains v ∧ v.schedule = r ∧ wholeNext code byte s v = wholeAt code byte s := by
  rw [step_of_schedule_host hs]
  obtain ⟨hall, hend⟩ := h
  rw [hs] at hall hend
  simp only [List.all_cons, Bool.and_eq_true] at hall
  obtain ⟨ha, hall⟩ := hall
  cases a with
  | reset | emptyPorts | loadTable tb => cases ha
  | cmd c | sym c | codeEnd | popCodeOut | popByteOut | readStatus =>
    refine ⟨_, rfl, ⟨hall, hend⟩, rfl, ?_⟩
    simp [wholeNext, wholeAt, pending, State.within, takenNow, hs, pushedCmd, pushedSym, pushedCode, endsStream_cons,
      take_one_append_tail]
  | code b =>
    simp only [noCodeAfterEnd, Bool.and_eq_true, Bool.not_eq_true'] at hend
    obtain ⟨hopen, hend⟩ := hend
    refine ⟨_, if_neg (by simp [hopen]), ⟨hall, hend⟩, rfl, ?_⟩
    simp [wholeNext, wholeAt, pending, State.within, takenNow, hs, pushedCmd, pushedSym, pushedCode, endsStream_cons]

/-- With nothing more to be pushed, the state fed whole is the state with the bytes taken put back. -/
theorem wholeAt_of_schedule_nil {code byte : List Byte} {s : State} (hs : s.schedule = []) :
    wholeAt code byte s = { s with codeOut := code ++ s.codeOut, byteOut := byte ++ s.byteOut } := by
  simp [wholeAt, pending, State.within, hs, pushedCmd, pushedSym, pushedCode, endsStream]

/-- A step of the core is the same step of the state fed whole, unless it is held. -/
theorem core_wholeAt {s : State} (code byte : List Byte) (h : noCodeAfterEnd s.codeInEnd s.schedule = true) :
    ∃ v, exec (currentInstr s) s = .next v ∧ v.schedule = s.schedule ∧ v.codeInEnd = s.codeInEnd ∧
      (v = s ∧ s.held = true ∨ step (wholeAt code byte s) = .next (wholeAt code byte v)) := by
  obtain ⟨v, hv⟩ := exists_next_currentInstr s
  have heffect := exec_effect hv
  have hsched := heffect.schedule_eq
  refine ⟨v, hv, hsched, heffect.codeInEnd_eq, ?_⟩
  cases hheld : s.held with
  | true =>
    rw [exec_of_held hheld] at hv
    cases hv
    exact .inl ⟨rfl, rfl⟩
  | false =>
    have hclosed (he : s.codeInEnd = true) : (pending code byte s).code = [] := noCodeAfterEnd_true (he ▸ h)
    have hwithin := exec_within hclosed hheld
    have hpending : pending code byte v = pending code byte s := by simp only [pending, hsched]
    refine .inr ?_
    rw [wholeAt, wholeAt, hpending, step_of_schedule_nil rfl, hwithin, hv]
    rfl

/-- A move leaves the state fed whole where it is, a move of the schedule's being used up, or is a step of it. -/
theorem step_wholeAt {s : State} (code byte : List Byte) (h : HostFeedsAndDrains s) :
    ∃ v, step s = .next v ∧ HostFeedsAndDrains v ∧ v.schedule = s.schedule.tail ∧
      (wholeNext code byte s v = wholeAt code byte s ∧ s.schedule ≠ [] ∨
        step (wholeAt code byte s) = .next (wholeNext code byte s v)) := by
  have ⟨hall, hend⟩ := h
  match hs : s.schedule with
  | [] =>
    obtain ⟨v, hv, hsched, hclosed, hcore⟩ := core_wholeAt code byte hend
    have hnext : wholeNext code byte s v = wholeAt code byte v := by simp [wholeNext, takenNow, hs]
    refine ⟨v, (step_of_schedule_nil hs).trans hv, ?_, hsched.trans hs, .inr ?_⟩
    · rw [HostFeedsAndDrains, hsched, hclosed]
      exact h
    · rw [hnext]
      obtain ⟨rfl, hheld⟩ | hcore := hcore
      · have hstay : (wholeAt code byte v).held = true := by
          rw [wholeAt_of_schedule_nil hs]
          exact hheld
        exact (step_of_schedule_nil rfl).trans (exec_of_held hstay)
      · exact hcore
  | .core :: r =>
    rw [hs] at hall hend
    obtain ⟨v, hv, hsched, hclosed, hcore⟩ := core_wholeAt (s := { s with schedule := r }) code byte hend
    have hwhole : wholeAt code byte s = wholeAt code byte { s with schedule := r } := by
      simp [wholeAt, pending, State.within, hs, pushedCmd, pushedSym, pushedCode, endsStream_cons]
    have hnext : wholeNext code byte s v = wholeAt code byte v := by simp [wholeNext, takenNow, hs]
    refine ⟨v, (step_of_schedule_core hs).trans hv, ?_, hsched, ?_⟩
    · rw [HostFeedsAndDrains, hsched, hclosed]
      exact ⟨hall, hend⟩
    · rw [hnext, hwhole]
      exact hcore.imp (fun ⟨hv, _⟩ => ⟨by rw [hv], by simp⟩) id
  | .host a :: r =>
    obtain ⟨v, hstep, hv, hsched, hsame⟩ := wholeNext_of_host code byte h hs
    exact ⟨v, hstep, hv, hsched, .inl ⟨hsame, by simp⟩⟩

/-- However the host feeds and drains, the state fed whole runs to the same point, held steps and moves of the host
left out. -/
theorem run_wholeAt {s : State} (k : Nat) (code byte : List Byte) (h : HostFeedsAndDrains s) :
    ∃ u j, Host.Core.run Sys2Proof.core k s = .next u ∧ u.schedule = s.schedule.drop k ∧
      k ≤ j + s.schedule.length ∧
      Host.Core.run Sys2Proof.core j (wholeAt code byte s) =
        .next (wholeAt (code ++ codeDrained k s) (byte ++ byteDrained k s) u) := by
  induction k generalizing s code byte with
  | zero => exact ⟨s, 0, rfl, rfl, Nat.zero_le _, by simp [codeDrained, byteDrained, drained, Host.Core.run]⟩
  | succ k ih =>
    obtain ⟨v, hstep, hv, hsched, hmove⟩ := step_wholeAt code byte h
    obtain ⟨u, j, hrun, hdrop, hj, hwhole⟩ := ih (code ++ takenNow .popCodeOut State.codeOut s)
      (byte ++ takenNow .popByteOut State.byteOut s) hv
    rw [List.append_assoc, List.append_assoc] at hwhole
    rw [codeDrained, byteDrained, drained_succ _ _ _ hstep, drained_succ _ _ _ hstep]
    have hrun' : Host.Core.run Sys2Proof.core (k + 1) s = .next u := (run_succ hstep).trans hrun
    have hdrop' : u.schedule = s.schedule.drop (k + 1) := by rw [hdrop, hsched, List.drop_tail]
    rw [hsched, List.length_tail] at hj
    obtain ⟨hsame, hne⟩ | hcore := hmove
    · have hpos := List.length_pos_iff.2 hne
      exact ⟨u, j, hrun', hdrop', by omega, hsame ▸ hwhole⟩
    · exact ⟨u, j + 1, hrun', hdrop', by omega, (run_succ hcore).trans hwhole⟩

/-- Where the state fed whole comes to rest, every run of the schedule comes to rest too, at the same state but for the
output bytes that the host has popped. -/
theorem run_of_fedWhole_at_rest {s t : State} {n k : Nat} (h : HostFeedsAndDrains s)
    (hrun : Host.Core.run Sys2Proof.core n (fedWhole s) = .next t) (hrest : exec (currentInstr t) t = .next t)
    (hk : s.schedule.length + n ≤ k) :
    ∃ u, Host.Core.run Sys2Proof.core k s = .next u ∧ u = { t with codeOut := u.codeOut, byteOut := u.byteOut } ∧
      codeDrained k s ++ u.codeOut = t.codeOut ∧ byteDrained k s ++ u.byteOut = t.byteOut := by
  have hnil : t.schedule = [] := run_schedule_nil rfl hrun
  have hstay : step t = .next t := (step_of_schedule_nil hnil).trans hrest
  obtain ⟨u, j, hu, hdrop, hj, hwhole⟩ := run_wholeAt k [] [] h
  have hend : u.schedule = [] := by rw [hdrop, List.drop_of_length_le (by omega)]
  have ht : Host.Core.run Sys2Proof.core j (fedWhole s) = .next t := run_of_le hrun hstay (by omega)
  rw [wholeAt_of_schedule_nil hend] at hwhole
  cases ht.symm.trans hwhole
  exact ⟨u, hu, rfl, rfl, rfl⟩

end Sys2Proof.Machine
end

section
/-! PROOFS. The encode session (spec/45_sequencer.md R227): the machine is followed beside `Encode` from START_ENC to
FINISH, one lemma for each phase. `TracksEncoder` says what the two agree on between steps. -/

namespace Sys2Proof.Machine

theorem Reaches.refl (s : State) : Reaches s s := ⟨0, rfl⟩

theorem Reaches.head {s t u : State} (h : step s = .next t) (hr : Reaches t u) : Reaches s u := by
  obtain ⟨n, hn⟩ := hr
  exact ⟨n + 1, (run_succ h).trans hn⟩

theorem Reaches.trans {s t u : State} (h : Reaches s t) (hr : Reaches t u) : Reaches s u := by
  obtain ⟨m, hm⟩ := h
  obtain ⟨n, hn⟩ := hr
  exact ⟨m + n, (run_add hm).trans hn⟩

/-- In the encode session that began at `s₀`, `s` holds the encoder `e` and has put the bits that `e` has. -/
structure TracksEncoder (s₀ : State) (e : Encoder) (s : State) : Prop where
  schedule : s.schedule = []
  fcode : s.fcode = .none
  mode : s.mode = .enc
  cfg : s.cfg = s₀.cfg
  cmd : s.cmd = s₀.cmd.tail
  lower : s.lower = e.l
  upper : s.upper = e.u
  ufc : s.ufc = e.k
  bits : bitsOut s = bytesBits s₀.codeOut ++ e.bits

section
variable {s₀ s : State} {e e' : Encoder}

theorem TracksEncoder.step_eq (h : TracksEncoder s₀ e s) {q : Phase} (hp : s.phase = q) : step s = exec q.instr s :=
  step_of_phase hp h.schedule h.fcode

/-- START_ENC begins at the start of `Encode` (45 R223). -/
theorem TracksEncoder.start {cs : List CmdCode} (hp : s.phase = .idle ∨ s.phase = .done) (hf : s.fcode = .none)
    (hs : s.schedule = []) (ht : CFSafe s.cfg.cf) (hc : s.cmd = 0b01#2 :: cs) :
    ∃ t, step s = .next t ∧ t.phase = .fetch ∧ t.symIn = s.symIn ∧ TracksEncoder s Encoder.start t := by
  have hrun : exec s.phase.instr s = execStartEnc s := exec_of_cmd_cons hp hc
  refine ⟨_, (step_of_phase rfl hs hf).trans (hrun.trans (if_pos ht)), rfl, rfl,
    ⟨hs, hf, rfl, rfl, rfl, rfl, rfl, rfl, bitsOut_of_nbits_zero _ rfl |>.trans ?_⟩⟩
  exact (List.append_nil _).symm

/-- FETCH latches the next symbol of the message (42 R162). -/
theorem TracksEncoder.fetch {x : Symbol} {rest : List SymCode} (h : TracksEncoder s₀ e s) (hp : s.phase = .fetch)
    (hx : s.symIn = BitVec.ofNat 9 x.val :: rest) :
    ∃ t, step s = .next t ∧ t.phase = .narrow ∧ t.symIn = rest ∧ LatchesHold t x ∧ TracksEncoder s₀ e t := by
  have hfetch : exec .phFetch s = _ :=
    (execPhFetch_cons hx).trans ((exec_decodeSym_symbol x s).trans (fetchSymbol_of_cons x hx))
  exact ⟨_, (h.step_eq hp).trans hfetch, rfl, rfl, ⟨symCode_toNat x, rfl, rfl⟩, h.schedule, h.fcode, h.mode, h.cfg,
    h.cmd, h.lower, h.upper, h.ufc, h.bits⟩

/-- NARROW takes the interval that `Encode` takes (41 R131). -/
theorem TracksEncoder.narrow {x : Symbol} {l u : Word} (h : TracksEncoder s₀ e s) (hp : s.phase = .narrow)
    (hx : LatchesHold s x)
    (hn : narrowed e.l e.u (lowOf s₀.cfg.cf x) (highOf s₀.cfg.cf x) (total s₀.cfg.cf) = some (l, u)) :
    ∃ t, step s = .next t ∧ t.phase = .renorm ∧ t.symIn = s.symIn ∧ t.sym = s.sym ∧
      TracksEncoder s₀ { e with l := l, u := u } t := by
  obtain ⟨-, hlow, hhigh⟩ := hx
  rw [← h.cfg, ← h.lower, ← h.upper, ← hlow, ← hhigh] at hn
  exact ⟨_, (h.step_eq hp).trans (execPhNarrow_of_some hn), rfl, rfl, rfl, h.schedule, h.fcode, h.mode, h.cfg, h.cmd,
    rfl, rfl, h.ufc, h.bits⟩

/-- A pass of the renormaliser is a pass of `Encode`, where the counter has room (42 R163, R164). -/
theorem TracksEncoder.pass (h : TracksEncoder s₀ e s) (hp : s.phase = .renorm) (hle : e.l ≤ e.u)
    (he : encIter e = some e') (hroom : e.k + 1 < 2 ^ s₀.cfg.ufcBits) :
    ∃ t, step s = .next t ∧ t.phase = .renorm ∧ t.symIn = s.symIn ∧ t.sym = s.sym ∧ TracksEncoder s₀ e' t := by
  have hstep : step s = execPhRenorm s := h.step_eq hp
  rw [hstep]
  obtain ⟨b, hb⟩ | hs | hT := pattern_cases_of_le hle
  · rw [encIter_of_determinate hb] at he
    obtain rfl := Option.some.inj he
    rw [← h.lower, ← h.upper] at hb
    refine ⟨_, (execPhRenorm_determinate hb).trans (renormE1_enc h.mode b), rfl, ?_, by simp, ?_⟩
    · rw [shiftInterval_emit_frame]
    · refine ⟨?_, by simpa using h.fcode, by simpa using h.mode, by simpa using h.cfg, ?_, by simp [h.lower],
        by simp [h.upper], rfl, ?_⟩
      · rw [shiftInterval_emit_frame]
        exact h.schedule
      · rw [shiftInterval_emit_frame]
        exact h.cmd
      · change bitsOut (emit b s) = _
        rw [bitsOut_emit, h.bits, h.ufc, List.append_assoc]
  · rw [encIter_of_straddles hs] at he
    obtain rfl := Option.some.inj he
    rw [← h.lower, ← h.upper] at hs
    have hroom' : s.ufc + 1 < 2 ^ s.cfg.ufcBits := by rwa [h.ufc, h.cfg]
    exact ⟨_, (execPhRenorm_straddles hs).trans (renormE3_of_room h.mode hroom'), rfl, rfl, rfl, h.schedule, h.fcode,
      h.mode, h.cfg, h.cmd, by simp [h.lower], by simp [h.upper], by simp [h.ufc], h.bits⟩
  · rw [encIter_of_terminal hT] at he
    cases he

/-- RN_TERM leaves the loop for FINISH after the end-of-stream symbol, else for the next symbol (41 R140). -/
theorem TracksEncoder.leave (h : TracksEncoder s₀ e s) (hp : s.phase = .renorm) (hT : Terminal e.l e.u) :
    ∃ t, step s = .next t ∧ t.phase = (if s.sym = 256#9 then .finish else .fetch) ∧ t.symIn = s.symIn ∧
      TracksEncoder s₀ e t := by
  rw [← h.lower, ← h.upper] at hT
  have hrenorm : exec .phRenorm s = _ := (execPhRenorm_terminal hT).trans (renormTerm_enc h.mode)
  exact ⟨_, (h.step_eq hp).trans hrenorm, rfl, rfl, h.schedule, h.fcode, h.mode, h.cfg, h.cmd, h.lower, h.upper, h.ufc,
    h.bits⟩

theorem encIter_le (he : encIter e = some e') (hle : e.l ≤ e.u) : e'.l ≤ e'.u := by
  obtain hT | ⟨l, u, hpass⟩ := terminal_or_pass hle
  · rw [encIter_of_terminal hT] at he
    cases he
  · obtain ⟨e₁, he₁, rfl, rfl⟩ := encIter_of_pass hpass
    rw [he₁] at he
    cases he
    exact hpass.le hle

/-- A pass defers at most one bit more. -/
theorem encIter_k_le (he : encIter e = some e') : e'.k ≤ e.k + 1 := by
  unfold encIter at he
  split at he
  · cases he
    exact Nat.zero_le _
  · split at he
    · cases he
      exact Nat.le_refl _
    · cases he

theorem encRenorm_k_le (n : Nat) (e : Encoder) : (encRenorm n e).k ≤ e.k + n := by
  induction n generalizing e with
  | zero => exact Nat.le_refl _
  | succ n ih =>
    rw [encRenorm]
    split
    next e' he =>
      have hk := encIter_k_le he
      have hrest := ih e'
      omega
    next => exact Nat.le_add_right _ _

/-- The loop of the machine is the loop of `Encode`, where the counter has room for as many bits as passes. -/
theorem TracksEncoder.renorm {n : Nat} (h : TracksEncoder s₀ e s) (hp : s.phase = .renorm) (hle : e.l ≤ e.u)
    (hT : Terminal (encRenorm n e).l (encRenorm n e).u) (hroom : e.k + n < 2 ^ s₀.cfg.ufcBits) :
    ∃ t, Reaches s t ∧ t.phase = (if s.sym = 256#9 then .finish else .fetch) ∧ t.symIn = s.symIn ∧
      TracksEncoder s₀ (encRenorm n e) t := by
  induction n generalizing s e with
  | zero =>
    obtain ⟨t, hstep, hpt, hsym, ht⟩ := h.leave hp hT
    exact ⟨t, .head hstep (.refl t), hpt, hsym, ht⟩
  | succ n ih =>
    rw [encRenorm] at hT ⊢
    cases he : encIter e with
    | none =>
      rw [he] at hT
      obtain ⟨t, hstep, hpt, hsym, ht⟩ := h.leave hp hT
      exact ⟨t, .head hstep (.refl t), hpt, hsym, ht⟩
    | some e' =>
      rw [he] at hT
      obtain ⟨v, hstep, hpv, hsymv, hsame, hv⟩ := h.pass hp hle he (by omega)
      have hk := encIter_k_le he
      obtain ⟨t, hreach, hpt, hsym, ht⟩ := ih hv hpv (encIter_le he hle) hT (by omega)
      exact ⟨t, .head hstep hreach, hsame ▸ hpt, hsym.trans hsymv, ht⟩

/-- A latched symbol is the end-of-stream symbol just where its code is 256. -/
theorem LatchesHold.sym_eq_iff {x : Symbol} (h : LatchesHold s x) : s.sym = 256#9 ↔ x = eofSymbol := by
  obtain ⟨hsym, -⟩ := h
  rw [← BitVec.toNat_inj, hsym, Fin.ext_iff]
  rfl

theorem encSymbol_k_le {t : Table} {x : Symbol} (he : encSymbol t x e = some e') : e'.k ≤ e.k + 32 := by
  unfold encSymbol at he
  split at he
  next l u _ =>
    cases he
    exact encRenorm_k_le 32 { e with l := l, u := u }
  next => cases he

/-- From FETCH, the machine codes a symbol as `Encode` does and goes on to the next, or to FINISH after the last. -/
theorem TracksEncoder.symbol {x : Symbol} {rest : List SymCode} (ht : CFSafe s₀.cfg.cf) (h : TracksEncoder s₀ e s)
    (hp : s.phase = .fetch) (hx : s.symIn = BitVec.ofNat 9 x.val :: rest) (hT : Terminal e.l e.u)
    (he : encSymbol s₀.cfg.cf x e = some e') (hroom : e.k + 32 < 2 ^ s₀.cfg.ufcBits) :
    ∃ t, Reaches s t ∧ t.phase = (if x = eofSymbol then .finish else .fetch) ∧ t.symIn = rest ∧
      TracksEncoder s₀ e' t := by
  obtain ⟨l, u, hn, -, -, -, hle, -⟩ := narrowed_of_safe s₀.cfg.cf ht e.l e.u hT x
  rw [encSymbol, hn] at he
  obtain rfl := Option.some.inj he
  have hend := encRenorm_terminal (e := { e with l := l, u := u }) hle (wide_after_thirty_two hle)
  obtain ⟨v, hfetch, hpv, hrest, hlatch, hv⟩ := h.fetch hp hx
  obtain ⟨w, hnarrow, hpw, hsymIn, hsym, hw⟩ := hv.narrow hpv hlatch hn
  obtain ⟨t, hreach, hpt, hsymIn', htracks⟩ := hw.renorm hpw hle hend hroom
  refine ⟨t, .head hfetch (.head hnarrow hreach), ?_, by rw [hsymIn', hsymIn, hrest], htracks⟩
  rw [hpt, hsym, if_congr hlatch.sym_eq_iff rfl rfl]

/-- From FETCH, the machine codes a message as `Encode` does, up to FINISH. -/
theorem TracksEncoder.message {m : List Byte} {rest : List SymCode} (ht : CFSafe s₀.cfg.cf)
    (h : TracksEncoder s₀ e s) (hp : s.phase = .fetch) (hx : s.symIn = messageCodes m ++ rest)
    (hT : Terminal e.l e.u) (he : encSymbols s₀.cfg.cf (messageSymbols m) e = some e')
    (hroom : e.k + 32 * (m.length + 1) < 2 ^ s₀.cfg.ufcBits) :
    ∃ t, Reaches s t ∧ t.phase = .finish ∧ t.symIn = rest ∧ TracksEncoder s₀ e' t := by
  induction m generalizing s e with
  | nil =>
    obtain ⟨e₁, hsym, -⟩ := encSymbol_of_safe ht hT eofSymbol
    simp only [messageSymbols, List.map_nil, List.nil_append, encSymbols, hsym] at he
    obtain rfl := Option.some.inj he
    exact h.symbol (x := eofSymbol) ht hp hx hT hsym hroom
  | cons v m ih =>
    obtain ⟨e₁, hsym, hT₁⟩ := encSymbol_of_safe ht hT (symbolOfByte v)
    simp only [messageSymbols, List.map_cons, List.cons_append, encSymbols, hsym] at he
    have hv : s.symIn = BitVec.ofNat 9 (symbolOfByte v).val :: (messageCodes m ++ rest) := by
      rw [hx, symCode_symbolOfByte]
      rfl
    have hbyte : symbolOfByte v ≠ eofSymbol := fun heof =>
      absurd (congrArg Fin.val heof) (Nat.ne_of_lt v.isLt)
    rw [List.length_cons] at hroom
    obtain ⟨w, hreach, hpw, hrest, hw⟩ := h.symbol ht hp hv hT hsym (by omega)
    rw [if_neg hbyte] at hpw
    have hk := encSymbol_k_le hsym
    obtain ⟨t, hreach', hpt, hsymIn, htracks⟩ := ih hw hpw hrest hT₁ he (by omega)
    exact ⟨t, hreach.trans hreach', hpt, hsymIn, htracks⟩

/-- Whole bytes before the bits of a session do not change its marker and padding. -/
theorem packBits_finishBits_append (out : List Byte) (bits : List Bool) :
    packBits (finishBits (bytesBits out ++ bits)) = out ++ packBits (finishBits bits) := by
  have hsplit : finishBits (bytesBits out ++ bits) = bytesBits (out ++ packBits (finishBits bits)) := by
    rw [bytesBits_append, bytesBits_packBits_finishBits, finishBits, finishBits, List.length_append, bytesBits_length]
    have hpad : (8 * out.length + bits.length + 2) % 8 = (bits.length + 2) % 8 := by omega
    rw [hpad, List.append_assoc, List.append_assoc, List.append_assoc]
  rw [hsplit, packBits_bytesBits]

/-- FINISH completes the bytes of `Encode` (42 R167). -/
theorem TracksEncoder.finish (h : TracksEncoder s₀ e s) (hp : s.phase = .finish) :
    ∃ t, step s = .next t ∧ EndOfRun t ∧ t.symIn = s.symIn ∧ t.cmd = s₀.cmd.tail ∧
      t.codeOut = s₀.codeOut ++ packBits (finishBits e.bits) := by
  refine ⟨_, h.step_eq hp, ⟨rfl, ?_⟩, ?_, ?_, ?_⟩
  · rw [marker_frame]
    exact h.fcode
  · rw [marker_frame]
  · rw [marker_frame]
    exact h.cmd
  · have hbits := bitsOut_marker s
    rw [bitsOut_of_nbits_zero _ (padFlush_nbits _), h.bits] at hbits
    change (padFlush (putBit true (putBit false s))).codeOut = _
    rw [← packBits_bytesBits (padFlush (putBit true (putBit false s))).codeOut, hbits, packBits_finishBits_append]

end

/-- The encode session of a message, fed whole, computes `Encode(M)` (45 R227). -/
theorem encodeSession_fedWhole {s : State} {m : List Byte} {cs : List CmdCode} {rest : List SymCode}
    (hp : s.phase = .idle ∨ s.phase = .done) (hf : s.fcode = .none) (ht : CFSafe s.cfg.cf)
    (hroom : 32 * (m.length + 1) < 2 ^ s.cfg.ufcBits) (hs : s.schedule = []) (hc : s.cmd = 0b01#2 :: cs)
    (hsym : s.symIn = messageCodes m ++ rest) :
    ∃ t out, Reaches s t ∧ EndOfRun t ∧ encodeMessage s.cfg.cf m = some out ∧ t.codeOut = s.codeOut ++ out ∧
      t.symIn = rest ∧ t.cmd = cs := by
  have hT₀ : Terminal Encoder.start.l Encoder.start.u := terminal_start
  obtain ⟨e, he, -⟩ := encSymbols_of_safe ht (messageSymbols m) hT₀
  obtain ⟨v, hstart, hpv, hsymv, hv⟩ := TracksEncoder.start hp hf hs ht hc
  obtain ⟨w, hreach, hpw, hsymw, hw⟩ := hv.message ht hpv (hsymv.trans hsym) hT₀ he
    (by rwa [show Encoder.start.k = 0 from rfl, Nat.zero_add])
  obtain ⟨t, hfinish, hend, hsymt, hcmd, hout⟩ := hw.finish hpw
  refine ⟨t, _, .head hstart (hreach.trans (.head hfinish (.refl t))), hend, by rw [encodeMessage, he], hout,
    hsymt.trans hsymw, ?_⟩
  rw [hcmd, hc]
  rfl

/-- At the end of a run with no command left the core is at rest (45 R231). -/
theorem EndOfRun.at_rest {t : State} (h : EndOfRun t) (hc : t.cmd = []) : exec (currentInstr t) t = .next t := by
  obtain ⟨hp, -⟩ := h
  exact exec_of_held (by simp [State.held, hp, hc])

/-- The encode session of a message, fed and drained in any interleaving, computes `Encode(M)` (45 R227, R229). -/
theorem encodeSession_interleaved {s : State} {m : List Byte} {rest : List SymCode}
    (hp : s.phase = .idle ∨ s.phase = .done) (hf : s.fcode = .none) (ht : CFSafe s.cfg.cf)
    (hroom : 32 * (m.length + 1) < 2 ^ s.cfg.ufcBits) (hs : HostFeedsAndDrains s)
    (hc : s.cmd ++ pushedCmd s.schedule = [0b01#2])
    (hsym : s.symIn ++ pushedSym s.schedule = messageCodes m ++ rest) :
    ∃ out N, encodeMessage s.cfg.cf m = some out ∧ ∀ k, N ≤ k → ∃ t, Host.Core.run Sys2Proof.core k s = .next t ∧
      EndOfRun t ∧ codeDrained k s ++ t.codeOut = s.codeOut ++ out ∧ t.symIn = rest ∧ t.cmd = [] := by
  obtain ⟨t, out, ⟨n, hrun⟩, hend, hout, hcode, hrest, hcmd⟩ :=
    encodeSession_fedWhole (s := fedWhole s) hp hf ht hroom rfl hc hsym
  refine ⟨out, s.schedule.length + n, hout, fun k hk => ?_⟩
  obtain ⟨u, hu, hsame, hcodeU, -⟩ := run_of_fedWhole_at_rest hs hrun (hend.at_rest hcmd) hk
  refine ⟨u, hu, ?_, hcodeU.trans hcode, ?_, ?_⟩ <;> rw [hsame]
  · exact hend
  · exact hrest
  · exact hcmd

end Sys2Proof.Machine
end

section
/-! PROOFS. The decode session (spec/45_sequencer.md R228): the machine is followed beside `Decode` from START_DEC to
the end-of-stream symbol, one lemma for each phase, and the round-trip law of the machine (spec/43_decoder.md R192).
`TracksDecoder` says what the two agree on between steps. -/

namespace Sys2Proof.Machine

/-- In the decode session of the stream `c` that began at `s₀`, `s` holds the decoder `d` and has pushed `out`. -/
structure TracksDecoder (c : List Byte) (s₀ : State) (out : List Byte) (d : Decoder) (s : State) : Prop where
  schedule : s.schedule = []
  fcode : s.fcode = .none
  mode : s.mode = .dec
  cfg : s.cfg = s₀.cfg
  cmd : s.cmd = s₀.cmd.tail
  lower : s.lower = d.l
  upper : s.upper = d.u
  window : s.window = d.w
  taken : StreamTaken c d.t s
  byteOut : s.byteOut = s₀.byteOut ++ out

/-- The window is inside the interval (43 R190). -/
def Decoder.Inside (d : Decoder) : Prop := d.l ≤ d.w ∧ d.w ≤ d.u

theorem Decoder.Inside.le {d : Decoder} (h : d.Inside) : d.l ≤ d.u := BitVec.le_trans h.1 h.2

/-- A pass of `Decode` keeps the window inside (43 R190). -/
theorem decIter_inside {c : List Byte} {d d' : Decoder} (h : d.Inside) (hd : decIter c d = some d') : d'.Inside := by
  obtain ⟨b, hb⟩ | hs | hT := pattern_cases_of_le h.le
  · rw [decIter_of_determinate c hb] at hd
    cases hd
    exact window_shift hb h.1 h.2
  · rw [decIter_of_straddles c hs] at hd
    cases hd
    exact window_splice hs h.1 h.2
  · rw [decIter_of_terminal c hT] at hd
    cases hd

theorem decIter_of_pass {c : List Byte} {d : Decoder} {l u : Word} (h : Pass d.l d.u l u) :
    ∃ d', decIter c d = some d' ∧ d'.l = l ∧ d'.u = u := by
  cases h with
  | shift b hb => exact ⟨_, decIter_of_determinate c hb, rfl, rfl⟩
  | splice hs => exact ⟨_, decIter_of_straddles c hs, rfl, rfl⟩

/-- Where `k` passes would take the range above `2^31`, the loop of `Decode` ends within `k` (41 R143). -/
theorem decRenorm_terminal {c : List Byte} {k : Nat} {d : Decoder} (hle : d.l ≤ d.u)
    (hwide : 2 ^ 31 < 2 ^ k * intervalRange d.l d.u) : Terminal (decRenorm c k d).l (decRenorm c k d).u := by
  induction k generalizing d with
  | zero =>
    rw [Nat.pow_zero, Nat.one_mul] at hwide
    exact terminal_of_wide hle hwide
  | succ k ih =>
    obtain hT | ⟨l, u, hpass⟩ := terminal_or_pass hle
    · rw [decRenorm, decIter_of_terminal c hT]
      exact hT
    · obtain ⟨d', hiter, rfl, rfl⟩ := decIter_of_pass (c := c) hpass
      rw [decRenorm, hiter]
      refine ih (hpass.le hle) ?_
      rwa [hpass.intervalRange_double hle, ← Nat.mul_assoc, ← Nat.pow_succ]

section
variable {c out : List Byte} {s₀ s : State} {d d' : Decoder}

theorem TracksDecoder.step_eq (h : TracksDecoder c s₀ out d s) {q : Phase} (hp : s.phase = q) :
    step s = exec q.instr s :=
  step_of_phase hp h.schedule h.fcode

/-- GETBIT takes the bit that `Decode` takes next. -/
theorem TracksDecoder.getBit (h : TracksDecoder c s₀ out d s) (hc : c ≠ []) :
    ∃ u, getBit s = .bit (streamBit c d.t) u ∧ TracksDecoder c s₀ out { d with t := d.t + 1 } u := by
  obtain ⟨u, hget, htaken⟩ := h.taken.getBit_next hc
  have hframe := (getBit_frame hget).1
  refine ⟨u, hget, ?_, ?_, ?_, ?_, ?_, ?_, ?_, ?_, htaken, ?_⟩ <;> rw [hframe]
  · exact h.schedule
  · exact h.fcode
  · exact h.mode
  · exact h.cfg
  · exact h.cmd
  · exact h.lower
  · exact h.upper
  · exact h.window
  · exact h.byteOut

/-- How far the stream has been read depends on the unpacker, `CODE_IN` and its end flag only. -/
theorem StreamTaken.congr {n : Nat} {t : State} (h : StreamTaken c n s) (hi : t.icnt = s.icnt) (hb : t.ibuf = s.ibuf)
    (hci : t.codeIn = s.codeIn) (he : t.codeInEnd = s.codeInEnd) (hl : t.lastbit = s.lastbit)
    (hh : t.havelast = s.havelast) : StreamTaken c n t := by
  obtain ⟨hicnt, hended, hleft, hlast⟩ := h
  refine ⟨hi ▸ hicnt, he ▸ hended, ?_, ?_⟩
  · rw [← hleft, bitsIn, bitsIn, hi, hb, hci]
  · rw [hl, hh]
    exact hlast

/-- START_DEC begins with an empty window (45 R224). -/
theorem TracksDecoder.start {cs : List CmdCode} (hp : s.phase = .idle ∨ s.phase = .done) (hf : s.fcode = .none)
    (hs : s.schedule = []) (ht : CFSafe s.cfg.cf) (hcmd : s.cmd = 0b10#2 :: cs) (hin : s.codeIn = c)
    (hend : s.codeInEnd = true) :
    ∃ t, step s = .next t ∧ t.phase = .fill ∧ t.fillcnt = 0 ∧
      TracksDecoder c s [] { l := 0, u := 0xFFFFFFFF, w := 0, t := 0 } t := by
  have hrun : exec s.phase.instr s = execStartDec s := exec_of_cmd_cons hp hcmd
  exact ⟨_, (step_of_phase rfl hs hf).trans (hrun.trans (if_pos ht)), rfl, rfl, hs, hf, rfl, rfl, rfl, rfl, rfl, rfl,
    streamTaken_zero rfl hin hend, (List.append_nil _).symm⟩

/-- FILL shifts the next bit of the stream in, and the thirty-second leads to SCALE (43 R182). -/
theorem TracksDecoder.fill (h : TracksDecoder c s₀ out d s) (hc : c ≠ []) (hp : s.phase = .fill) :
    ∃ t, step s = .next t ∧ t.phase = (if s.fillcnt.toNat + 1 = 32 then .scale else .fill) ∧
      t.fillcnt = s.fillcnt + 1 ∧
      TracksDecoder c s₀ out { d with w := shiftIn d.w (streamBit c d.t), t := d.t + 1 } t := by
  obtain ⟨u, hget, hu⟩ := h.getBit hc
  have hcnt := getBit_fillcnt hget
  refine ⟨_, (h.step_eq hp).trans (execPhFill_of_bit hget), ?_, ?_, hu.schedule, hu.fcode, hu.mode, hu.cfg, hu.cmd,
    hu.lower, hu.upper, ?_, hu.taken.congr rfl rfl rfl rfl rfl rfl, hu.byteOut⟩
  · rw [hcnt]
  · rw [hcnt]
  · rw [hu.window]

/-- The rest of the fill, from `n` bits on. -/
theorem TracksDecoder.fillAll {m n : Nat} (hn : n + (m + 1) = 32)
    (h : TracksDecoder c s₀ out { l := 0, u := 0xFFFFFFFF, w := fillWindow c n, t := n } s) (hc : c ≠ [])
    (hp : s.phase = .fill) (hcnt : s.fillcnt.toNat = n) :
    ∃ t, Reaches s t ∧ t.phase = .scale ∧ TracksDecoder c s₀ out (Decoder.start c) t := by
  induction m generalizing n s with
  | zero =>
    obtain ⟨t, hstep, hpt, -, ht⟩ := h.fill hc hp
    rw [hcnt, if_pos hn] at hpt
    obtain rfl : n = 31 := by omega
    exact ⟨t, .head hstep (.refl t), hpt, ht⟩
  | succ m ih =>
    obtain ⟨v, hstep, hpv, hcntv, hv⟩ := h.fill hc hp
    rw [hcnt, if_neg (by omega)] at hpv
    have hcnt' : v.fillcnt.toNat = n + 1 := by
      rw [hcntv, BitVec.toNat_add, hcnt, Nat.mod_eq_of_lt]
      · rfl
      · change n + 1 < 64
        omega
    obtain ⟨t, hreach, hpt, ht⟩ := ih (n := n + 1) (by omega) hv hpv hcnt'
    exact ⟨t, .head hstep hreach, hpt, ht⟩

/-- SCALE and SEARCH find the symbol that `Decode` finds (43 R183, R185). -/
theorem TracksDecoder.scale (h : TracksDecoder c s₀ out d s) (hp : s.phase = .scale) (hin : d.Inside)
    (ht : CFValid s₀.cfg.cf) :
    ∃ t, step s = .next t ∧ t.phase = .search ∧
      t.scaled = BitVec.ofNat 32 (scaledPosition d.l d.u d.w (total s₀.cfg.cf)) ∧
      t.scaled < total s₀.cfg.cf ∧ TracksDecoder c s₀ out d t := by
  have htot := total_ge s₀.cfg.cf ht
  have hne : total s.cfg.cf ≠ 0 := by
    rw [h.cfg]
    intro h0
    simp [h0] at htot
  have hw : WindowInside s := by
    rw [WindowInside, h.lower, h.upper, h.window]
    exact hin
  have hlt : BitVec.ofNat 32 (scaledPosition d.l d.u d.w (total s₀.cfg.cf)) < total s₀.cfg.cf := by
    rw [BitVec.lt_def, scaled_toNat hin.1 hin.2 (by omega)]
    exact scaledPosition_lt _ _ _ _ hin.1 hin.2 (by omega)
  refine ⟨_, (h.step_eq hp).trans (execPhScale_of_inside hw hne), rfl, ?_, ?_, h.schedule, h.fcode, h.mode, h.cfg,
    h.cmd, h.lower, h.upper, h.window, h.taken.congr rfl rfl rfl rfl rfl rfl, h.byteOut⟩
  · simp only [h.lower, h.upper, h.window, h.cfg]
  · simpa only [h.lower, h.upper, h.window, h.cfg] using hlt

/-- SEARCH pushes and latches a byte symbol (43 R185). -/
theorem TracksDecoder.searchByte {x : Symbol} (h : TracksDecoder c s₀ out d s) (hp : s.phase = .search)
    (hlt : s.scaled < total s₀.cfg.cf) (hx : searchIndex s₀.cfg.cf s.scaled = x.val) (hbyte : x.val < 256) :
    ∃ t, step s = .next t ∧ t.phase = .narrow ∧ LatchesHold t x ∧
      TracksDecoder c s₀ (out ++ [BitVec.ofNat 8 x.val]) d t := by
  rw [← h.cfg] at hlt hx
  have hfound : exec .phSearch s = _ := execPhSearch_of_byte hlt (hx ▸ hbyte)
  rw [hx] at hfound
  have hlatch := foundByte_latchesHold hbyte s
  rw [foundByte_eq hbyte] at hfound hlatch
  refine ⟨_, (h.step_eq hp).trans hfound, rfl, hlatch, h.schedule, h.fcode, h.mode, h.cfg, h.cmd, h.lower, h.upper,
    h.window, h.taken.congr rfl rfl rfl rfl rfl rfl, ?_⟩
  rw [h.byteOut, List.append_assoc]

/-- SEARCH ends the session at the end-of-stream symbol, with nothing pushed (43 R185). -/
theorem TracksDecoder.searchEof (h : TracksDecoder c s₀ out d s) (hp : s.phase = .search)
    (hlt : s.scaled < total s₀.cfg.cf) (hx : ¬ searchIndex s₀.cfg.cf s.scaled < 256) :
    ∃ t, step s = .next t ∧ EndOfRun t ∧ t.cmd = s₀.cmd.tail ∧ t.byteOut = s₀.byteOut ++ out := by
  rw [← h.cfg] at hlt hx
  exact ⟨_, (h.step_eq hp).trans (execPhSearch_of_eof hlt hx), ⟨rfl, h.fcode⟩, h.cmd, h.byteOut⟩

/-- NARROW takes the interval that `Decode` takes (41 R131). -/
theorem TracksDecoder.narrow {x : Symbol} {l u : Word} (h : TracksDecoder c s₀ out d s) (hp : s.phase = .narrow)
    (hx : LatchesHold s x)
    (hn : narrowed d.l d.u (lowOf s₀.cfg.cf x) (highOf s₀.cfg.cf x) (total s₀.cfg.cf) = some (l, u)) :
    ∃ t, step s = .next t ∧ t.phase = .renorm ∧ TracksDecoder c s₀ out { d with l := l, u := u } t := by
  obtain ⟨-, hlow, hhigh⟩ := hx
  rw [← h.cfg, ← h.lower, ← h.upper, ← hlow, ← hhigh] at hn
  exact ⟨_, (h.step_eq hp).trans (execPhNarrow_of_some hn), rfl, h.schedule, h.fcode, h.mode, h.cfg, h.cmd, rfl, rfl,
    h.window, h.taken.congr rfl rfl rfl rfl rfl rfl, h.byteOut⟩

/-- A pass of the renormaliser is a pass of `Decode` (43 R187, R188). -/
theorem TracksDecoder.pass (h : TracksDecoder c s₀ out d s) (hc : c ≠ []) (hp : s.phase = .renorm) (hle : d.l ≤ d.u)
    (hd : decIter c d = some d') : ∃ t, step s = .next t ∧ t.phase = .renorm ∧ TracksDecoder c s₀ out d' t := by
  have hstep : step s = execPhRenorm s := h.step_eq hp
  rw [hstep]
  obtain ⟨u, hget, hu⟩ := h.getBit hc
  obtain ⟨b, hb⟩ | hs | hT := pattern_cases_of_le hle
  · rw [decIter_of_determinate c hb] at hd
    obtain rfl := Option.some.inj hd
    rw [← h.lower, ← h.upper] at hb
    exact ⟨_, (execPhRenorm_determinate hb).trans (renormE1_of_bit h.mode hget b), rfl, hu.schedule, hu.fcode, hu.mode,
      hu.cfg, hu.cmd, by simp [hu.lower], by simp [hu.upper], by simp [hu.window],
      hu.taken.congr rfl rfl rfl rfl rfl rfl, hu.byteOut⟩
  · rw [decIter_of_straddles c hs] at hd
    obtain rfl := Option.some.inj hd
    rw [← h.lower, ← h.upper] at hs
    exact ⟨_, (execPhRenorm_straddles hs).trans (renormE3_of_bit h.mode hget), rfl, hu.schedule, hu.fcode, hu.mode,
      hu.cfg, hu.cmd, by simp [hu.lower], by simp [hu.upper], by simp [hu.window],
      hu.taken.congr rfl rfl rfl rfl rfl rfl, hu.byteOut⟩
  · rw [decIter_of_terminal c hT] at hd
    cases hd

/-- RN_TERM leaves the loop for SCALE (41 R140). -/
theorem TracksDecoder.leave (h : TracksDecoder c s₀ out d s) (hp : s.phase = .renorm) (hT : Terminal d.l d.u) :
    ∃ t, step s = .next t ∧ t.phase = .scale ∧ TracksDecoder c s₀ out d t := by
  rw [← h.lower, ← h.upper] at hT
  have hrenorm : exec .phRenorm s = _ := (execPhRenorm_terminal hT).trans (renormTerm_dec h.mode)
  exact ⟨_, (h.step_eq hp).trans hrenorm, rfl, h.schedule, h.fcode, h.mode, h.cfg, h.cmd, h.lower, h.upper, h.window,
    h.taken.congr rfl rfl rfl rfl rfl rfl, h.byteOut⟩

/-- The loop of the machine is the loop of `Decode`, and the window stays inside. -/
theorem TracksDecoder.renorm {n : Nat} (h : TracksDecoder c s₀ out d s) (hc : c ≠ []) (hp : s.phase = .renorm)
    (hin : d.Inside) (hT : Terminal (decRenorm c n d).l (decRenorm c n d).u) :
    ∃ t, Reaches s t ∧ t.phase = .scale ∧ (decRenorm c n d).Inside ∧ TracksDecoder c s₀ out (decRenorm c n d) t := by
  induction n generalizing s d with
  | zero =>
    obtain ⟨t, hstep, hpt, ht⟩ := h.leave hp hT
    exact ⟨t, .head hstep (.refl t), hpt, hin, ht⟩
  | succ n ih =>
    rw [decRenorm] at hT ⊢
    cases hd : decIter c d with
    | none =>
      rw [hd] at hT
      obtain ⟨t, hstep, hpt, ht⟩ := h.leave hp hT
      exact ⟨t, .head hstep (.refl t), hpt, hin, ht⟩
    | some d' =>
      rw [hd] at hT
      obtain ⟨v, hstep, hpv, hv⟩ := h.pass hc hp hin.le hd
      obtain ⟨t, hreach, hrest⟩ := ih hv hpv (decIter_inside hin hd) hT
      exact ⟨t, .head hstep hreach, hrest⟩

/-- NARROW to the symbol that SEARCH found leaves the window inside (43 R184). -/
theorem Decoder.Inside.narrowed {t : Table} {x : Symbol} {l u : Word} (h : d.Inside) (ht : CFValid t)
    (hx : searchIndex t (BitVec.ofNat 32 (scaledPosition d.l d.u d.w (total t))) = x.val)
    (hn : Machine.narrowed d.l d.u (lowOf t x) (highOf t x) (total t) = some (l, u)) :
    l ≤ d.w ∧ d.w ≤ u := by
  have htot := total_ge t ht
  have hq := scaled_toNat h.1 h.2 (tot := total t) (by omega)
  have hlt := scaledPosition_lt d.l d.u d.w (total t) h.1 h.2 (by omega)
  obtain ⟨y, hy, hlow, hhigh⟩ := searchIndex_spec t ht (BitVec.ofNat 32 (scaledPosition d.l d.u d.w (total t)))
    (by rwa [BitVec.lt_def, hq])
  obtain rfl : x = y := Fin.ext (hx.symm.trans hy)
  rw [BitVec.le_def, hq] at hlow
  rw [BitVec.lt_def, hq] at hhigh
  obtain ⟨hl, hh⟩ := scaledPosition_iff d.l d.u d.w (lowOf t x) (highOf t x) (total t) h.1 h.2 (by omega)
  obtain ⟨hl', hu', -⟩ := narrowed_inv _ _ _ _ _ _ _ hn
  have hge := hl.1 hlow
  have hle := hh.1 hhigh
  rw [BitVec.le_def, BitVec.le_def]
  omega

/-- From SCALE, the machine decodes as `Decode` does, up to the end-of-stream symbol. -/
theorem TracksDecoder.decode {n : Nat} {m : List Byte} (ht : CFValid s₀.cfg.cf) (hc : c ≠ [])
    (h : TracksDecoder c s₀ out d s) (hp : s.phase = .scale) (hin : d.Inside)
    (hdec : decodeFrom s₀.cfg.cf c n d out = some m) :
    ∃ t, Reaches s t ∧ EndOfRun t ∧ t.cmd = s₀.cmd.tail ∧ t.byteOut = s₀.byteOut ++ m := by
  induction n generalizing s d out with
  | zero => cases hdec
  | succ n ih =>
    obtain ⟨v, hscale, hpv, hq, hlt, hv⟩ := h.scale hp hin ht
    rw [decodeFrom, ← hq] at hdec
    obtain ⟨x, hx, -⟩ := searchIndex_spec s₀.cfg.cf ht v.scaled hlt
    by_cases hbyte : searchIndex s₀.cfg.cf v.scaled < 256
    · simp only [hbyte, if_true] at hdec
      rw [hx] at hbyte hdec
      rw [symbolOfByte_ofNat hbyte] at hdec
      obtain ⟨w, hsearch, hpw, hlatch, hw⟩ := hv.searchByte hpv hlt hx hbyte
      split at hdec
      next l u hn =>
        have hinside := hin.narrowed ht (hq ▸ hx) hn
        have hle := BitVec.le_trans hinside.1 hinside.2
        obtain ⟨r, hnarrow, hpr, hr⟩ := hw.narrow hpw hlatch hn
        have hT := decRenorm_terminal (c := c) (d := { d with l := l, u := u }) hle (wide_after_thirty_two hle)
        obtain ⟨r', hloop, hpr', hinside', hr'⟩ := hr.renorm hc hpr hinside hT
        obtain ⟨t, hreach, hrest⟩ := ih hr' hpr' hinside' hdec
        exact ⟨t, .head hscale (.head hsearch (.head hnarrow (hloop.trans hreach))), hrest⟩
      next => cases hdec
    · simp only [hbyte, if_false] at hdec
      cases hdec
      obtain ⟨t, hsearch, hrest⟩ := hv.searchEof hpv hlt hbyte
      exact ⟨t, .head hscale (.head hsearch (.refl t)), hrest⟩

end

/-- The decode session of a stream, fed whole, computes `Decode(C)` (45 R228). -/
theorem decodeSession_fedWhole {s : State} {c m : List Byte} {cs : List CmdCode} {n : Nat}
    (hp : s.phase = .idle ∨ s.phase = .done) (hf : s.fcode = .none) (ht : CFSafe s.cfg.cf) (hc : c ≠ [])
    (hdec : decodeStream s.cfg.cf n c = some m) (hs : s.schedule = []) (hcmd : s.cmd = 0b10#2 :: cs)
    (hin : s.codeIn = c) (hend : s.codeInEnd = true) :
    ∃ t, Reaches s t ∧ EndOfRun t ∧ t.byteOut = s.byteOut ++ m ∧ t.cmd = cs := by
  obtain ⟨v, hstart, hpv, hcnt, hv⟩ := TracksDecoder.start hp hf hs ht hcmd hin hend
  obtain ⟨w, hfill, hpw, hw⟩ := TracksDecoder.fillAll (m := 31) (n := 0) rfl hv hc hpv (by rw [hcnt]; rfl)
  obtain ⟨t, hreach, hdone, hcs, hout⟩ := hw.decode ht.1 hc hpw (window_in_start _) hdec
  exact ⟨t, .head hstart (hfill.trans hreach), hdone, hout, by rw [hcs, hcmd]; rfl⟩

/-- The decode session of a stream, fed and drained in any interleaving, computes `Decode(C)` (45 R228, R229). -/
theorem decodeSession_interleaved {s : State} {c m : List Byte} {n : Nat}
    (hp : s.phase = .idle ∨ s.phase = .done) (hf : s.fcode = .none) (ht : CFSafe s.cfg.cf) (hc : c ≠ [])
    (hdec : decodeStream s.cfg.cf n c = some m) (hs : HostFeedsAndDrains s)
    (hcmd : s.cmd ++ pushedCmd s.schedule = [0b10#2]) (hin : s.codeIn ++ pushedCode s.schedule = c)
    (hend : (s.codeInEnd || endsStream s.schedule) = true) :
    ∃ N, ∀ k, N ≤ k → ∃ t, Host.Core.run Sys2Proof.core k s = .next t ∧ EndOfRun t ∧
      byteDrained k s ++ t.byteOut = s.byteOut ++ m ∧ t.cmd = [] := by
  obtain ⟨t, ⟨n, hrun⟩, hdone, hout, hcs⟩ :=
    decodeSession_fedWhole (s := fedWhole s) hp hf ht hc hdec rfl hcmd hin hend
  refine ⟨s.schedule.length + n, fun k hk => ?_⟩
  obtain ⟨u, hu, hsame, -, hbyte⟩ := run_of_fedWhole_at_rest hs hrun (hdone.at_rest hcs) hk
  refine ⟨u, hu, ?_, hbyte.trans hout, ?_⟩ <;> rw [hsame]
  · exact hdone
  · exact hcs

/-- Settles O60: the encode session computes `Encode(M)`, the decode session `Decode` of it, and that is the message. -/
theorem roundTripLaw : Obligations.RoundTripLaw := by
  intro s d m cs ds hp hf ht hcode hroom hpd hfd hcf hbyte
  obtain ⟨c, henc, hc, hdec⟩ := decodeUndoesEncodeMessage s.cfg.cf m ht
  rw [← hcf] at hdec
  have htd : CFSafe d.cfg.cf := hcf ▸ ht
  refine ⟨fun hs hcmd hsym hsd hcmdd hend => ?_, fun hs hcmd hsym hsd hcmdd hend => ?_⟩
  · obtain ⟨t, out, hreach, hdone, hout, hpushed, hrest, hcs⟩ :=
      encodeSession_fedWhole (rest := []) hp hf ht hroom hs hcmd (hsym.trans (List.append_nil _).symm)
    obtain rfl : c = out := Option.some.inj (henc.symm.trans hout)
    refine ⟨t, c, hreach, hdone, hcs, hrest, henc, by rw [hpushed, hcode, List.nil_append], fun hin => ?_⟩
    obtain ⟨e, hreach', hdone', hbytes, hds⟩ := decodeSession_fedWhole hpd hfd htd hc hdec hsd hcmdd hin hend
    exact ⟨e, hreach', hdone', hds, by rw [hbytes, hbyte, List.nil_append]⟩
  · obtain ⟨out, N, hout, hrun⟩ :=
      encodeSession_interleaved (rest := []) hp hf ht hroom hs hcmd (hsym.trans (List.append_nil _).symm)
    obtain rfl : c = out := Option.some.inj (henc.symm.trans hout)
    refine ⟨c, N, henc, fun k hk => ?_, fun hin => ?_⟩
    · obtain ⟨t, ht, hdone, hpushed, hrest, hcs⟩ := hrun k hk
      exact ⟨t, ht, hdone, hcs, hrest, by rw [hpushed, hcode, List.nil_append]⟩
    · obtain ⟨K, hrunD⟩ := decodeSession_interleaved hpd hfd htd hc hdec hsd hcmdd hin hend
      refine ⟨K, fun k hk => ?_⟩
      obtain ⟨e, he, hdone, hbytes, hds⟩ := hrunD k hk
      exact ⟨e, he, hdone, hds, by rw [hbytes, hbyte, List.nil_append]⟩

end Sys2Proof.Machine
end

section
/-! PROOFS. The bit channel (spec/44_bit_channel.md R201 to R208): the packer and the unpacker bit by bit, and the
sequences of bits that pass through them. -/

namespace Sys2Proof.Machine

theorem execAll_cons_of_next {i : Instr} {s t : State} (is : List Instr) (h : exec i s = .next t) :
    execAll (i :: is) s = execAll is t := by
  rw [execAll, h]
  rfl

/-! ## PUTBIT -/

theorem putBit_of_lt_seven {s : State} (b : Bool) (h : s.nbits.toNat < 7) :
    putBit b s = { s with acc := setBit s.acc s.nbits b, nbits := s.nbits + 1 } := by
  have h7 : s.nbits ≠ 7#3 := fun h7 => Nat.ne_of_lt h (congrArg BitVec.toNat h7)
  rw [putBit, if_neg h7]

theorem putBit_of_seven {s : State} (b : Bool) (h : s.nbits.toNat = 7) :
    putBit b s = { s with codeOut := s.codeOut ++ [setBit s.acc s.nbits b], acc := 0, nbits := 0 } :=
  if_pos (BitVec.eq_of_toNat_eq h)

/-- Settles O27: below seven held bits the new one stays in `ACC`; with seven held it completes a byte. -/
theorem putbitPacksLeastSignificantFirst : Obligations.PutbitPacksLeastSignificantFirst := by
  intro s b
  have hplaced (i : Fin 8) := setBit_getLsbD s.acc s.nbits b i.val i.isLt
  refine ⟨putBit b s, rfl, bitsOut_putBit b s, putBit_frame b s, fun h => ?_, fun h => ?_, packerClean_putBit b s⟩
  · rw [putBit_of_lt_seven b h]
    refine ⟨?_, rfl, hplaced⟩
    exact BitVec.toNat_add_of_lt (Nat.succ_lt_succ h)
  · rw [putBit_of_seven b h]
    rw [h] at hplaced
    exact ⟨rfl, rfl, _, rfl, hplaced⟩

/-! ## PADFLUSH -/

theorem bitsOut_length (s : State) : (bitsOut s).length = 8 * s.codeOut.length + s.nbits.toNat := by
  have hn := s.nbits.isLt
  rw [bitsOut, List.length_append, bytesBits_length, List.length_take, byteBits_length]
  omega

/-- At a byte boundary there is nothing to complete (44 R203). -/
theorem padFlush_of_boundary {s : State} (h : s.nbits = 0) : padFlush s = s := by
  rw [padFlush, padCount, h]
  rfl

/-- The padding of a byte in progress ends with a PUTBIT that pushes it, so that `ACC` is left empty (44 R203). -/
theorem padFlush_acc {s : State} (h : 0 < padCount s) : (padFlush s).acc = 0 := by
  obtain ⟨n, hn⟩ := Nat.exists_eq_add_one.2 h
  have hlast : padFlush s = putBit true (putBits n true s) := by rw [padFlush, hn, putBits_succ_last]
  have hnbits := padFlush_nbits s
  rw [hlast] at hnbits ⊢
  exact (putBit_fills_byte hnbits).1

/-- The bytes that PADFLUSH leaves hold the bits put before and the padding. -/
theorem padFlush_codeOut_length (s : State) :
    8 * (padFlush s).codeOut.length = 8 * s.codeOut.length + s.nbits.toNat + padCount s := by
  have hbits := congrArg List.length (bitsOut_padFlush s)
  rw [bitsOut_of_nbits_zero _ (padFlush_nbits s)] at hbits
  rwa [bytesBits_length, List.length_append, List.length_replicate, bitsOut_length] at hbits

/-- Settles O28: the padding is empty at a byte boundary, and otherwise the rest of one byte. -/
theorem padflushCompletesByte : Obligations.PadflushCompletesByte := by
  intro s
  refine ⟨padFlush s, rfl, padFlush_nbits s, bitsOut_padFlush s, padFlush_frame s, padFlush_of_boundary, fun h => ?_⟩
  have hlt := s.nbits.isLt
  have hpos : 0 < s.nbits.toNat := Nat.pos_of_ne_zero fun h0 => h (BitVec.eq_of_toNat_eq h0)
  have hpad : padCount s = 8 - s.nbits.toNat := Nat.mod_eq_of_lt (by omega)
  have hlen := padFlush_codeOut_length s
  exact ⟨padFlush_acc (by omega), by omega⟩

/-! ## A sequence of bits put -/

/-- Bits put one by one go after the bits put before, and the padding after them. -/
theorem execAll_putbits_padflush (e : List Bool) (s : State) :
    ∃ u, execAll (e.map .putbit ++ [.padflush]) s = some (padFlush u) ∧ bitsOut u = bitsOut s ++ e := by
  induction e generalizing s with
  | nil => exact ⟨s, rfl, (List.append_nil _).symm⟩
  | cons b e ih =>
    obtain ⟨u, hrun, hbits⟩ := ih (putBit b s)
    refine ⟨u, hrun, ?_⟩
    rw [hbits, bitsOut_putBit, List.append_assoc]
    rfl

/-- Whole bytes before a sequence of bits stay as they are when it is packed. -/
theorem packBits_bytesBits_append (out : List Byte) (bits : List Bool) :
    packBits (bytesBits out ++ bits) = out ++ packBits bits := by
  induction out with
  | nil => rfl
  | cons b out ih => exact congrArg₂ List.cons (bitsByte_byteBits b) ih

/-- From a byte boundary, the padded bits fill the bytes pushed: the padding follows from the number of bits alone. -/
theorem bytesBits_padFlush_codeOut {s u : State} {e : List Bool} (hs : s.nbits = 0)
    (hu : bitsOut u = bitsOut s ++ e) :
    bytesBits (padFlush u).codeOut =
      bytesBits s.codeOut ++ (e ++ List.replicate ((8 - e.length % 8) % 8) true) := by
  have hlen : (bitsOut u).length % 8 = e.length % 8 := by
    rw [hu, bitsOut_of_nbits_zero s hs, List.length_append, bytesBits_length, Nat.mul_add_mod]
  rw [← bitsOut_of_nbits_zero _ (padFlush_nbits u), bitsOut_padFlush, padCount_eq, hlen, hu,
    bitsOut_of_nbits_zero s hs, List.append_assoc]

/-- Settles O29: the bytes on `CODE_OUT` are read back as the bits put and their padding, and packing undoes that. -/
theorem putBitsAppearAsPackedBytes : Obligations.PutBitsAppearAsPackedBytes := by
  intro s e hs
  obtain ⟨u, hrun, hu⟩ := execAll_putbits_padflush e s
  have hbits := bytesBits_padFlush_codeOut hs hu
  refine ⟨padFlush u, hrun, padFlush_nbits u, ?_, ?_⟩
  · rw [← packBits_bytesBits (padFlush u).codeOut, hbits, packBits_bytesBits_append]
  · have hlen := congrArg List.length hbits
    rw [List.length_append, List.length_append, List.length_replicate, bytesBits_length, bytesBits_length] at hlen
    omega

/-! ## GETBIT -/

theorem execGetbit_of_bit {b : Bool} {s u : State} (h : getBit s = .bit b u) : exec .getbit s = .next u := by
  change afterBit (getBit s) s _ = _
  rw [h, afterBit]

/-- A real bit comes out of `IBUF`, which is loaded from `CODE_IN` only when it is empty (44 R205). -/
theorem getBit_buffer {s u : State} {b : Bool} (h : getBit s = .bit b u) (hleft : bitsIn s ≠ []) :
    u.codeIn = (if s.icnt = 0 then s.codeIn.tail else s.codeIn) ∧
      u.ibuf = (if s.icnt = 0 then s.codeIn.headD 0 else s.ibuf) >>> 1 := by
  by_cases h0 : s.icnt = 0
  · rw [if_pos h0, if_pos h0]
    cases hc : s.codeIn with
    | nil => exact absurd ((bitsIn_eq_nil_iff s).2 ⟨h0, hc⟩) hleft
    | cons byte rest =>
      rw [getBit_of_byte h0 hc] at h
      cases h
      exact ⟨rfl, rfl⟩
  · rw [if_neg h0, if_neg h0]
    rw [getBit_of_buffered h0] at h
    cases h
    exact ⟨rfl, rfl⟩

/-- Settles O33: `TookBit` says which bit is taken and what it leaves; with no bit left the two flags decide. -/
theorem getbitTakesNextStreamBit : Obligations.GetbitTakesNextStreamBit := by
  intro s h8
  refine ⟨fun b rest hin => ?_, fun hnil hend hlast => ?_, fun hnil hend hlast => ?_, fun hnil hend => ?_⟩
  · have hleft : bitsIn s ≠ [] := hin ▸ List.cons_ne_nil b rest
    obtain ⟨_, u, hget, htook⟩ := getBit_of_ready s ⟨h8, .inl hleft⟩
    rw [TookBit, hin] at htook
    obtain ⟨rfl, hrest, hicnt, hframe⟩ := htook
    obtain ⟨hcode, hibuf⟩ := getBit_buffer hget hleft
    exact ⟨u, execGetbit_of_bit hget, hrest, by rw [hframe], by rw [hframe], hicnt, hcode, hibuf, hframe⟩
  · obtain ⟨_, u, hget, htook⟩ := getBit_of_ready s ⟨h8, .inr ⟨hend, hlast⟩⟩
    rw [TookBit, hnil] at htook
    obtain ⟨-, rfl⟩ := htook
    exact execGetbit_of_bit hget
  · obtain ⟨h0, hc⟩ := (bitsIn_eq_nil_iff s).1 hnil
    exact afterBit_of_exhausted _ h0 hc hend hlast
  · obtain ⟨h0, hc⟩ := (bitsIn_eq_nil_iff s).1 hnil
    exact afterBit_of_waiting _ h0 hc hend

/-- GETBIT after GETBIT takes the stream bit after bit, and none of them faults. -/
theorem execAll_getbit {c : List Byte} {k : Nat} {s : State} (n : Nat) (h : StreamTaken c k s) (hc : c ≠ []) :
    ∃ t, execAll (List.replicate n .getbit) s = some t ∧ t.fcode = s.fcode ∧ StreamTaken c (k + n) t := by
  induction n generalizing k s with
  | zero => exact ⟨s, rfl, rfl, h⟩
  | succ n ih =>
    obtain ⟨u, hget, htaken⟩ := h.getBit_next hc
    obtain ⟨t, hrun, hfcode, hend⟩ := ih htaken
    refine ⟨t, ?_, hfcode.trans ?_, by rwa [Nat.add_right_comm] at hend⟩
    · rw [List.replicate_succ, execAll_cons_of_next _ (execGetbit_of_bit hget), hrun]
    · rw [(getBit_frame hget).1]

/-- Settles O34: the last bit that `n + 1` GETBITs have taken is bit `n`. -/
theorem getbitSequenceIsStream : Obligations.GetbitSequenceIsStream := by
  intro s c hc hicnt _ hin hend n
  obtain ⟨t, hrun, hfcode, htaken⟩ := execAll_getbit (n + 1) (streamTaken_zero hicnt hin hend) hc
  obtain ⟨-, hlast⟩ := htaken.last n (Nat.zero_add _)
  exact ⟨t, hrun, hfcode, hlast⟩

end Sys2Proof.Machine
end

section
/-! PROOFS. Moves of the host against steps of the core (spec/45_sequencer.md R222, R229, R232): each move alone, a push
or a pop exchanged with a step, and what a command that waits means to a step. A push puts a margin behind the queues of
a state and a pop takes one from before its outputs, so all follow from `exec_within`. -/

namespace Sys2Proof.Machine

/-! ## One move of the host -/

theorem hostAct_code_of_open {s : State} (b : Byte) (h : s.codeInEnd = false) :
    hostAct (.code b) s = .next { s with codeIn := s.codeIn ++ [b] } :=
  if_neg (by simp [h])

theorem hostAct_emptyPorts_of_not_busy {s : State} (h : s.busy = false) :
    hostAct .emptyPorts s =
      .next { s with symIn := [], codeIn := [], codeOut := [], byteOut := [], codeInEnd := false } :=
  if_neg (by simp [h])

/-- Settles O46: each move is its equation, three of them under the condition that spares them the refusal (log 6). -/
theorem hostMovesActOnPorts : Obligations.HostMovesActOnPorts :=
  fun _ => ⟨fun _ => rfl, fun _ => rfl, hostAct_code_of_open, rfl, rfl, rfl, hostAct_emptyPorts_of_not_busy,
    fun _ hp => if_pos hp⟩

/-! ## Margins -/

/-- The margin of a state that nothing is added to, with the moves to come `l`. -/
def Margin.empty (l : List Move) : Margin where
  cmd := []
  sym := []
  code := []
  ends := false
  takenCode := []
  takenByte := []
  moves := l

/-- What the push `a` puts behind the input queues. -/
def Margin.pushed (a : HostAction) (l : List Move) : Margin :=
  { Margin.empty l with
    cmd := pushedCmd [.host a]
    sym := pushedSym [.host a]
    code := pushedCode [.host a]
    ends := endsStream [.host a] }

/-- The moves of the host that push to an input port. -/
def HostAction.Pushes (a : HostAction) : Prop :=
  (∃ c, a = .cmd c) ∨ (∃ c, a = .sym c) ∨ (∃ b, a = .code b) ∨ a = .codeEnd

/-- The host pushes no byte behind the end of the stream (44 R205, log 6). -/
theorem pushed_code_of_ended {a : HostAction} {s u : State} (l : List Move) (h : hostAct a s = .next u)
    (hend : s.codeInEnd = true) : (Margin.pushed a l).code = [] := by
  cases a with
  | code b => simp [hostAct, hend] at h
  | _ => rfl

/-- A push puts its margin behind the queues. -/
theorem hostAct_of_pushes {a : HostAction} {s : State} (ha : a.Pushes)
    (hopen : s.codeInEnd = true → (Margin.pushed a s.schedule).code = []) :
    hostAct a s = .next (s.within (.pushed a s.schedule)) := by
  cases a with
  | cmd c | sym c | codeEnd =>
    simp [hostAct, State.within, Margin.pushed, Margin.empty, pushedCmd, pushedSym, pushedCode, endsStream]
  | code b =>
    have hend : s.codeInEnd = false := Bool.eq_false_iff.2 fun he => List.cons_ne_nil b [] (hopen he)
    rw [hostAct_code_of_open b hend]
    simp [State.within, Margin.pushed, Margin.empty, pushedCmd, pushedSym, pushedCode, endsStream]
  | _ => simp [HostAction.Pushes] at ha

/-! ## A move of the host and a step of the core -/

/-- The two orders of a step of the core from `s` to `t` and the move `a` of the host from `s` to `u` meet. -/
def Exchanges (a : HostAction) (s t u : State) : Prop :=
  exec (currentInstr s) s = .next t → hostAct a s = .next u →
    ∃ v, exec (currentInstr u) u = .next v ∧ hostAct a t = .next v

theorem exchanges_of_pushes {a : HostAction} {s t u : State} (ha : a.Pushes) (hheld : s.held = false) :
    Exchanges a s t u := by
  intro hstep hact
  have hopen := pushed_code_of_ended s.schedule hact
  cases (hostAct_of_pushes ha hopen).symm.trans hact
  have heffect := exec_effect hstep
  refine ⟨t.within (.pushed a s.schedule), ?_, ?_⟩
  · rw [exec_within hopen hheld, hstep]
    rfl
  · rw [← heffect.schedule_eq]
    refine hostAct_of_pushes ha fun hend => ?_
    exact pushed_code_of_ended _ hact (heffect.codeInEnd_eq ▸ hend)

/-- A state with the bytes `code` and `byte` that the host has taken put back before its outputs. -/
def State.untaken (code byte : List Byte) (s : State) : State :=
  { s with codeOut := code ++ s.codeOut, byteOut := byte ++ s.byteOut }

/-- The bytes that the host has taken. -/
def Margin.outputs (code byte : List Byte) (l : List Move) : Margin :=
  { Margin.empty l with takenCode := code, takenByte := byte }

theorem within_outputs {code byte : List Byte} {l : List Move} {s : State} (h : s.schedule = l) :
    s.within (.outputs code byte l) = s.untaken code byte := by
  simp [State.within, State.untaken, Margin.outputs, Margin.empty, ← h]

/-- A step, held or not, does not see the bytes before its outputs. -/
theorem exec_untaken {code byte : List Byte} {s t : State} (h : exec (currentInstr s) s = .next t) :
    exec (currentInstr (s.untaken code byte)) (s.untaken code byte) = .next (t.untaken code byte) := by
  cases hheld : s.held with
  | true =>
    cases (exec_of_held hheld).symm.trans h
    exact exec_of_held hheld
  | false =>
    have hwithin := exec_within (x := .outputs code byte s.schedule) (fun _ => rfl) hheld
    rw [h, within_outputs rfl] at hwithin
    rw [hwithin, withinOut, within_outputs (exec_effect h).schedule_eq]

/-- A move that takes what was put back may be exchanged with any step. -/
theorem exchanges_of_untaken {a : HostAction} {code byte : List Byte} {s t u : State}
    (ha : ∀ v, hostAct a (v.untaken code byte) = .next v) (hs : s = u.untaken code byte) : Exchanges a s t u := by
  subst hs
  intro hstep _
  obtain ⟨v, hv⟩ := exists_next_currentInstr u
  cases hstep.symm.trans (exec_untaken hv)
  exact ⟨v, hv, ha v⟩

theorem exchanges_popCodeOut {s t u : State} (hne : s.codeOut ≠ []) : Exchanges .popCodeOut s t u := by
  intro hstep hact
  cases hact
  have hs : s = State.untaken [s.codeOut.head hne] [] { s with codeOut := s.codeOut.tail } := by
    simp [State.untaken]
  exact exchanges_of_untaken (fun _ => rfl) hs hstep rfl

theorem exchanges_popByteOut {s t u : State} (hne : s.byteOut ≠ []) : Exchanges .popByteOut s t u := by
  intro hstep hact
  cases hact
  have hs : s = State.untaken [] [s.byteOut.head hne] { s with byteOut := s.byteOut.tail } := by
    simp [State.untaken]
  exact exchanges_of_untaken (fun _ => rfl) hs hstep rfl

/-- Settles O6: move by move by the margin the move adds or takes; whole runs by following the state fed whole. -/
theorem hostMovesCommuteWithSteps : Obligations.HostMovesCommuteWithSteps := by
  refine ⟨fun s t u a ha => ?_, fun s t n hs hrun hrest k hk => run_of_fedWhole_at_rest hs hrun hrest hk⟩
  obtain ⟨hpush, hheld⟩ | ⟨rfl, hne⟩ | ⟨rfl, hne⟩ | rfl := ha
  · exact exchanges_of_pushes hpush hheld
  · exact exchanges_popCodeOut hne
  · exact exchanges_popByteOut hne
  · rintro hstep ⟨⟩
    exact ⟨t, hstep, rfl⟩

/-! ## Commands -/

/-- A step in IDLE or DONE removes the oldest command, if there is one (45 R222). -/
theorem consumeCommand_cmd {s t : State} (h : consumeCommand s = .next t) : t.cmd = s.cmd.tail := by
  obtain ⟨hnil, rfl⟩ | ⟨c, rest, -, ⟨-, h⟩ | ⟨-, h⟩ | ⟨-, h⟩ | ⟨-, h⟩⟩ := consumeCommand_cases h
  · rw [hnil, List.tail_nil]
  · cases h
    rfl
  · unfold execStartEnc at h
    split at h <;> cases h <;> rfl
  · unfold execStartDec at h
    split at h <;> cases h <;> rfl
  · cases h
    rfl

/-- Outside IDLE and DONE a hold does not depend on the commands (45 R231). -/
theorem held_withCmd {s : State} (hidle : s.phase ≠ .idle) (hdone : s.phase ≠ .done) (cs : List CmdCode) :
    State.held { s with cmd := cs } = s.held := by
  unfold State.held
  cases hp : s.phase with
  | idle => exact absurd hp hidle
  | done => exact absurd hp hdone
  | _ => rfl

/-- The commands `cs` that wait. -/
def Margin.commands (cs : List CmdCode) (l : List Move) : Margin := { Margin.empty l with cmd := cs }

theorem within_commands {cs : List CmdCode} {l : List Move} {s : State} (h : s.schedule = l) (hc : s.cmd = []) :
    s.within (.commands cs l) = { s with cmd := cs } := by
  simp [State.within, Margin.commands, Margin.empty, hc, ← h]

/-- A step outside IDLE and DONE is the same step whatever commands wait: it is that of the state with none, and they
are its margin. -/
theorem exec_withCmd {s : State} (hidle : s.phase ≠ .idle) (hdone : s.phase ≠ .done) :
    ∃ t : State, ∀ cs, exec (currentInstr s) { s with cmd := cs } = .next { t with cmd := cs } := by
  cases hheld : s.held with
  | true => exact ⟨s, fun cs => exec_of_held ((held_withCmd hidle hdone cs).trans hheld)⟩
  | false =>
    obtain ⟨t, ht⟩ := exists_next_currentInstr { s with cmd := [] }
    have heffect := exec_effect ht
    have hcmd : t.cmd = [] := by simpa using heffect.cmd_same_or_tail
    refine ⟨t, fun cs => ?_⟩
    have hwithin := exec_within (x := .commands cs s.schedule) (fun _ => rfl)
      ((held_withCmd hidle hdone []).trans hheld)
    rw [ht, withinOut, within_commands heffect.schedule_eq hcmd,
      within_commands (s := { s with cmd := [] }) rfl rfl] at hwithin
    exact hwithin

/-- Settles O10: IDLE and DONE remove the oldest command, and elsewhere the commands are part of the margin. -/
theorem commandsConsumedOnlyInIdleAndDone : Obligations.CommandsConsumedOnlyInIdleAndDone := by
  intro s t hf hstep
  refine ⟨fun hp => ?_, fun hidle hdone => ?_⟩
  · rw [currentInstr, if_pos hf] at hstep
    obtain hp | hp := hp <;> rw [hp] at hstep <;> exact consumeCommand_cmd hstep
  · obtain ⟨v, hv⟩ := exec_withCmd hidle hdone
    cases hstep.symm.trans (hv s.cmd)
    exact ⟨rfl, hv⟩

end Sys2Proof.Machine
end

section
/-! PROOFS. The step, the commands and the sessions (spec/45_sequencer.md R222 to R229): which operation a step runs,
what each command does, alone and as the step of IDLE or DONE, and what a session computes. -/

namespace Sys2Proof.Machine

/-! ## The operation a step runs -/

/-- The phase codes decode to the operations their phases name (30 R86). -/
theorem decodePh_code (p : Phase) : decodePh p.code = p.instr := by
  cases p <;> rfl

/-- Settles O1: the three heads a schedule can have, and the operation `PHASE` names. -/
theorem stepRunsSelectedOperation : Obligations.StepRunsSelectedOperation :=
  fun s => ⟨step_of_schedule_nil, fun _ => step_of_schedule_core, fun _ _ => step_of_schedule_host,
    fun hf => by rw [currentInstr, if_pos hf, decodePh_code], fun hf => by rw [currentInstr, if_neg hf]⟩

/-- Settles O2: IDLE, DONE, FETCH and RENORM each run the operation of the code they read. -/
theorem phaseRunsDecodedCode : Obligations.PhaseRunsDecodedCode :=
  fun s => ⟨fun _ _ h => ⟨exec_of_cmd_cons (.inl rfl) h, exec_of_cmd_cons (.inr rfl) h⟩,
    fun _ _ h => execPhFetch_cons h, execPhRenorm_eq s⟩

/-! ## The commands -/

section
variable {s : State} {c : CmdCode} {rest : List CmdCode}

theorem State.popCmd_of_cons (h : s.cmd = c :: rest) : s.popCmd = { s with cmd := rest } := by
  rw [State.popCmd, h, List.tail_cons]

theorem execNop_of_cons (h : s.cmd = c :: rest) : exec .nop s = .next { s with cmd := rest } :=
  congrArg Host.Outcome.next (State.popCmd_of_cons h)

theorem execCmdReserved_of_cons (h : s.cmd = c :: rest) :
    exec .cmdReserved s = .next { s with cmd := rest, fcode := .illcmd, phase := .fault } :=
  congrArg (raiseFault .illcmd) (State.popCmd_of_cons h)

theorem execStartEnc_of_safe (h : s.cmd = c :: rest) (ht : CFSafe s.cfg.cf) :
    exec .startEnc s = .next { s with
      cmd := rest, mode := .enc, lower := 0, upper := 0xFFFFFFFF, ufc := 0, acc := 0, nbits := 0,
      phase := .fetch } := by
  change execStartEnc s = _
  rw [execStartEnc, if_pos ht, State.popCmd_of_cons h]

theorem execStartEnc_of_refused (h : s.cmd = c :: rest) (ht : ¬ CFSafe s.cfg.cf) :
    exec .startEnc s = .next { s with cmd := rest, fcode := .config, phase := .fault } := by
  change execStartEnc s = _
  rw [execStartEnc, if_neg ht, State.popCmd_of_cons h]
  rfl

theorem execStartDec_of_safe (h : s.cmd = c :: rest) (ht : CFSafe s.cfg.cf) :
    exec .startDec s = .next { s with
      cmd := rest, mode := .dec, lower := 0, upper := 0xFFFFFFFF, window := 0, fillcnt := 0, icnt := 0,
      havelast := false, phase := .fill } := by
  change execStartDec s = _
  rw [execStartDec, if_pos ht, State.popCmd_of_cons h]

theorem execStartDec_of_refused (h : s.cmd = c :: rest) (ht : ¬ CFSafe s.cfg.cf) :
    exec .startDec s = .next { s with cmd := rest, fcode := .config, phase := .fault } := by
  change execStartDec s = _
  rw [execStartDec, if_neg ht, State.popCmd_of_cons h]
  rfl

end

/-- Settles O7: the two rows, and IDLE and DONE run the row their command selects. -/
theorem nopAndReservedCommand : Obligations.NopAndReservedCommand := by
  intro s c rest h
  refine ⟨execNop_of_cons h, execCmdReserved_of_cons h, ?_, ?_⟩
  · rintro rfl
    exact ⟨(exec_of_cmd_cons (.inl rfl) h).trans (execNop_of_cons h),
      (exec_of_cmd_cons (.inr rfl) h).trans (execNop_of_cons h)⟩
  · rintro rfl
    exact ⟨(exec_of_cmd_cons (.inl rfl) h).trans (execCmdReserved_of_cons h),
      (exec_of_cmd_cons (.inr rfl) h).trans (execCmdReserved_of_cons h)⟩

/-- An outcome that the check of the table decides (40 R114). -/
theorem exists_next_of_check {p : Prop} {o : Out} {a b : State} (ha : p → o = .next a) (hb : ¬ p → o = .next b) :
    ∃ t, o = .next t ∧ (p → t = a) ∧ (¬ p → t = b) := by
  by_cases hp : p
  · exact ⟨a, ha hp, fun _ => rfl, fun hn => absurd hp hn⟩
  · exact ⟨b, hb hp, fun h => absurd h hp, fun _ => rfl⟩

/-- Settles O8: IDLE and DONE run START_ENC, whose outcome the check of the table decides. -/
theorem startEncBeginsSession : Obligations.StartEncBeginsSession := by
  intro s rest h
  obtain ⟨t, hrow, hsafe, hrefused⟩ := exists_next_of_check (execStartEnc_of_safe h) (execStartEnc_of_refused h)
  exact ⟨t, hrow, (exec_of_cmd_cons (.inl rfl) h).trans hrow, (exec_of_cmd_cons (.inr rfl) h).trans hrow, hsafe,
    hrefused⟩

/-- Settles O9: IDLE and DONE run START_DEC, whose outcome the check of the table decides. -/
theorem startDecBeginsSession : Obligations.StartDecBeginsSession := by
  intro s rest h
  obtain ⟨t, hrow, hsafe, hrefused⟩ := exists_next_of_check (execStartDec_of_safe h) (execStartDec_of_refused h)
  exact ⟨t, hrow, (exec_of_cmd_cons (.inl rfl) h).trans hrow, (exec_of_cmd_cons (.inr rfl) h).trans hrow, hsafe,
    hrefused⟩

/-! ## The sessions -/

/-- Settles O57: the machine followed beside `Encode`, fed whole, and the interleaved session from it. -/
theorem encodeSessionComputesEncode : Obligations.EncodeSessionComputesEncode :=
  fun _ _ _ _ hp hf ht hroom => ⟨encodeSession_fedWhole hp hf ht hroom, encodeSession_interleaved hp hf ht hroom⟩

/-- Settles O58: the machine followed beside `Decode`, fed whole, and the interleaved session from it. -/
theorem decodeSessionComputesDecode : Obligations.DecodeSessionComputesDecode :=
  fun _ _ _ _ _ hp hf ht hc hdec =>
    ⟨decodeSession_fedWhole hp hf ht hc hdec, decodeSession_interleaved hp hf ht hc hdec⟩

end Sys2Proof.Machine
end

section
/-! PROOFS. When the core waits and where `PHASE` goes (spec/45_sequencer.md R221, R231): phase by phase from what each
step can do. -/

namespace Sys2Proof.Machine

/-! ## RENORM -/

/-- The interval is one of those whose pattern selects RN_E1 or RN_E3 (41 R136, R138). -/
abbrev InLoop (l u : Word) : Prop := (∃ b, Determinate b l u) ∨ Straddles l u

/-- A pass moves an end of the interval. -/
theorem Pass.moves {l u l' u' : Word} (h : Pass l u l' u') : ¬ (l' = l ∧ u' = u) := by
  have hl := l.isLt
  have hu := u.isLt
  rintro ⟨hl', hu'⟩
  cases h with
  | shift b hb =>
    have hlower := shiftIn_determinate l b false hb.1
    have hupper := shiftIn_determinate u b true hb.2
    rw [hl', Bool.toNat_false] at hlower
    rw [hu', Bool.toNat_true] at hupper
    have hb1 := b.toNat_le
    omega
  | splice hs =>
    have ⟨h31, h30, _⟩ := hs
    have hlower := spliceIn_lower l false h31 h30
    rw [getLsbD_31_eq_false_iff] at h31
    rw [hl', Bool.toNat_false] at hlower
    omega

/-- A step in RENORM makes a pass, or leaves the phase, or waits for a bit, whatever the interval. -/
theorem execPhRenorm_outcome {s t : State} (h : execPhRenorm s = .next t) :
    Pass s.lower s.upper t.lower t.upper ∨ t.phase ≠ .renorm ∨
      (s.mode = .dec ∧ InLoop s.lower s.upper ∧ getBit s = .held) := by
  obtain ⟨b, hb, h⟩ | ⟨hs, h⟩ | ⟨-, h⟩ | ⟨-, -, rfl⟩ := execPhRenorm_cases h
  · obtain ⟨-, rfl⟩ | ⟨hm, ⟨c, u, hu, rfl⟩ | ⟨-, rfl⟩ | ⟨hheld, rfl⟩⟩ := renormE1_cases h
    · exact .inl (by simpa using Pass.shift b hb)
    · obtain ⟨hl, hu'⟩ := getBit_interval hu
      exact .inl (by simpa [hl, hu'] using Pass.shift b hb)
    · exact .inr (.inl nofun)
    · exact .inr (.inr ⟨hm, .inl ⟨b, hb⟩, hheld⟩)
  · obtain ⟨-, ⟨-, rfl⟩ | ⟨-, rfl⟩⟩ | ⟨hm, ⟨c, u, hu, rfl⟩ | ⟨-, rfl⟩ | ⟨hheld, rfl⟩⟩ := renormE3_cases h
    · exact .inl (Pass.splice hs)
    · exact .inr (.inl nofun)
    · obtain ⟨hl, hu'⟩ := getBit_interval hu
      exact .inl (by simpa [hl, hu'] using Pass.splice hs)
    · exact .inr (.inl nofun)
    · exact .inr (.inr ⟨hm, .inr hs, hheld⟩)
  · obtain ⟨p, hterm, hout⟩ := renormTerm_next s
    cases h.symm.trans hterm
    exact .inr (.inl (leaves_loop hout).1)
  · exact .inr (.inl nofun)

/-! ## The hold rule -/

/-- The three cases of the hold rule (45 R231). -/
def Waits (s : State) : Prop :=
  ((s.phase = .idle ∨ s.phase = .done) ∧ s.cmd = []) ∨
  (s.phase = .fetch ∧ s.symIn = []) ∨
  ((s.phase = .fill ∨ (s.phase = .renorm ∧ s.mode = .dec ∧ InLoop s.lower s.upper)) ∧ getBit s = .held)

/-- `State.held` is the hold rule. -/
theorem Waits.held {s : State} (h : Waits s) : s.held = true := by
  obtain ⟨hp | hp, hc⟩ | ⟨hp, hc⟩ | ⟨hp | ⟨hp, hm, hloop⟩, hbit⟩ := h
  · simp [State.held, hp, hc]
  · simp [State.held, hp, hc]
  · simp [State.held, hp, hc]
  · have hb := (getBit_held_iff_bitAvailable s).1 hbit
    simp [State.held, hp, hb]
  · have hb := (getBit_held_iff_bitAvailable s).1 hbit
    have htakes := takesBit_of_loop hloop
    simp [State.held, hp, hm, hb, htakes]

theorem eq_nil_of_eq_tail {α : Type} {l : List α} (h : l = l.tail) : l = [] := by
  cases l with
  | nil => rfl
  | cons a r => exact absurd h (List.cons_ne_self a r)

theorem execPhFetch_symIn {s t : State} (h : execPhFetch s = .next t) : t.symIn = s.symIn.tail := by
  obtain ⟨hnil, rfl⟩ | ⟨x, rest, -, h⟩ | ⟨c, rest, -, -, rfl⟩ := execPhFetch_cases h
  · rw [hnil, List.tail_nil]
  · cases h
    rfl
  · rfl

/-- FILL counts its bit, or faults, so it changes nothing only where it waits. -/
theorem getBit_held_of_fill_unchanged {s : State} (hp : s.phase = .fill) (h : execPhFill s = .next s) :
    getBit s = .held := by
  obtain ⟨b, u, hu, heq⟩ | ⟨-, heq⟩ | ⟨hheld, -⟩ := afterBit_cases h
  · have hcnt : s.fillcnt = u.fillcnt + 1 := congrArg State.fillcnt heq
    rw [getBit_fillcnt hu] at hcnt
    bv_omega
  · cases hp.symm.trans (congrArg State.phase heq)
  · exact hheld

/-- In NARROW, FINISH, SCALE and SEARCH a step always leaves the phase (45 R221). -/
theorem phase_ne_of_exec {p : Phase} {s t : State} (hp : p = .narrow ∨ p = .finish ∨ p = .scale ∨ p = .search)
    (h : exec p.instr s = .next t) : t.phase ≠ p := by
  obtain rfl | rfl | rfl | rfl := hp
  · obtain ⟨l, u, -, rfl⟩ | ⟨-, rfl⟩ := execPhNarrow_cases h
    · nofun
    · nofun
  · cases h
    nofun
  · obtain ⟨-, -, rfl⟩ | ⟨-, rfl⟩ := execPhScale_cases h
    · nofun
    · nofun
  · obtain ⟨-, -, rfl⟩ | ⟨-, -, rfl⟩ | ⟨-, rfl⟩ := execPhSearch_cases h
    · nofun
    · nofun
    · nofun

/-- Outside FAULT a step that changes nothing waits. -/
theorem waits_of_unchanged {s : State} (hf : s.fcode = .none) (hfault : s.phase ≠ .fault)
    (h : exec (currentInstr s) s = .next s) : Waits s := by
  rw [currentInstr, if_pos hf] at h
  cases hp : s.phase with
  | idle =>
    rw [hp] at h
    exact .inl ⟨.inl hp, eq_nil_of_eq_tail (consumeCommand_cmd h)⟩
  | done =>
    rw [hp] at h
    exact .inl ⟨.inr hp, eq_nil_of_eq_tail (consumeCommand_cmd h)⟩
  | fetch =>
    rw [hp] at h
    exact .inr (.inl ⟨hp, eq_nil_of_eq_tail (execPhFetch_symIn h)⟩)
  | fill =>
    rw [hp] at h
    exact .inr (.inr ⟨.inl hp, getBit_held_of_fill_unchanged hp h⟩)
  | renorm =>
    rw [hp] at h
    obtain hpass | hout | ⟨hm, hloop, hheld⟩ := execPhRenorm_outcome h
    · exact absurd ⟨rfl, rfl⟩ hpass.moves
    · exact absurd hp hout
    · exact .inr (.inr ⟨.inr ⟨hp, hm, hloop⟩, hheld⟩)
  | narrow | finish | scale | search => exact absurd rfl (phase_ne_of_exec (by simp [hp]) h)
  | fault => exact absurd hp hfault

/-- Settles O4: a step that waits is held, and every other one changes a queue, a count, the interval or the phase. -/
theorem heldExactlyWhenWaiting : Obligations.HeldExactlyWhenWaiting := by
  intro s hf hfault
  rw [← getBit_held_iff]
  exact ⟨waits_of_unchanged hf hfault, fun h => exec_of_held (Waits.held h)⟩

/-! ## The phase graph -/

theorem consumeCommand_of_nil {s : State} (h : s.cmd = []) : consumeCommand s = .next s := by
  rw [consumeCommand, h]
  rfl

/-- The rows of IDLE and DONE for the command `c` (45 R222 to R225). -/
theorem consumeCommand_row {s t : State} {c : CmdCode} {rest : List CmdCode} (hc : s.cmd = c :: rest)
    (h : consumeCommand s = .next t) :
    (c = 0b00#2 ∧ t.phase = s.phase) ∨
    (c = 0b01#2 ∧ CFSafe s.cfg.cf ∧ t.phase = .fetch) ∨
    (c = 0b10#2 ∧ CFSafe s.cfg.cf ∧ t.phase = .fill) ∨
    ((c = 0b01#2 ∨ c = 0b10#2) ∧ ¬ CFSafe s.cfg.cf ∧ t.phase = .fault ∧ t.fcode = .config) ∨
    (c = 0b11#2 ∧ t.phase = .fault ∧ t.fcode = .illcmd) := by
  obtain ⟨hnil, -⟩ | ⟨c', rest', hc', hrow⟩ := consumeCommand_cases h
  · cases hc.symm.trans hnil
  · cases hc.symm.trans hc'
    obtain ⟨rfl, h⟩ | ⟨rfl, h⟩ | ⟨rfl, h⟩ | ⟨rfl, h⟩ := hrow
    · cases h
      exact .inl ⟨rfl, rfl⟩
    · by_cases hsafe : CFSafe s.cfg.cf
      · cases h.symm.trans (execStartEnc_of_safe hc hsafe)
        exact .inr (.inl ⟨rfl, hsafe, rfl⟩)
      · cases h.symm.trans (execStartEnc_of_refused hc hsafe)
        exact .inr (.inr (.inr (.inl ⟨.inl rfl, hsafe, rfl, rfl⟩)))
    · by_cases hsafe : CFSafe s.cfg.cf
      · cases h.symm.trans (execStartDec_of_safe hc hsafe)
        exact .inr (.inr (.inl ⟨rfl, hsafe, rfl⟩))
      · cases h.symm.trans (execStartDec_of_refused hc hsafe)
        exact .inr (.inr (.inr (.inl ⟨.inr rfl, hsafe, rfl, rfl⟩)))
    · cases h
      exact .inr (.inr (.inr (.inr ⟨rfl, rfl, rfl⟩)))

/-- The rows of FETCH for the symbol code `c` (42 R162, 30 R83). -/
theorem execPhFetch_row {s t : State} {c : SymCode} {rest : List SymCode} (hc : s.symIn = c :: rest)
    (h : execPhFetch s = .next t) :
    (c.toNat ≤ 256 ∧ t.phase = .narrow) ∨ (256 < c.toNat ∧ t.phase = .fault ∧ t.fcode = .illsym) := by
  obtain ⟨hnil, -⟩ | ⟨x, rest', hc', h⟩ | ⟨c', rest', hc', hgt, rfl⟩ := execPhFetch_cases h
  · cases hc.symm.trans hnil
  · cases hc.symm.trans hc'
    cases h
    rw [symCode_toNat]
    exact .inl ⟨Nat.le_of_lt_succ x.isLt, rfl⟩
  · cases hc.symm.trans hc'
    exact .inr ⟨hgt, rfl, rfl⟩

/-- The rows of RENORM (41 R136 to R142, 42 R165). -/
theorem execPhRenorm_row {s t : State} (hinv : MachineInv s) (hp : s.phase = .renorm)
    (h : execPhRenorm s = .next t) :
    ((∃ b, Determinate b s.lower s.upper) ∧ t.phase = .renorm) ∨
    (Straddles s.lower s.upper ∧ ¬ (s.mode = .enc ∧ s.ufc = 2 ^ s.cfg.ufcBits - 1) ∧ t.phase = .renorm) ∨
    (Straddles s.lower s.upper ∧ s.mode = .enc ∧ s.ufc = 2 ^ s.cfg.ufcBits - 1 ∧ t.phase = .fault ∧
      t.fcode = .ufcovf) ∨
    (Terminal s.lower s.upper ∧ s.mode = .enc ∧ s.sym ≠ 256#9 ∧ t.phase = .fetch) ∨
    (Terminal s.lower s.upper ∧ s.mode = .enc ∧ s.sym = 256#9 ∧ t.phase = .finish) ∨
    (Terminal s.lower s.upper ∧ s.mode = .dec ∧ t.phase = .scale) := by
  have hkeeps : RenormKeeps s := by simpa only [SessionInv, hp] using hinv.sessionInv
  have ⟨hle, hmode⟩ := hkeeps
  have hlast (hm : s.mode = .dec) : s.havelast = true := by
    obtain ⟨⟨henc, -⟩, -⟩ | ⟨-, -, hlast, -⟩ := hmode
    · cases hm.symm.trans henc
    · exact hlast
  obtain ⟨b, hb⟩ | hs | hT := pattern_cases_of_le hle
  · rw [execPhRenorm_determinate hb] at h
    refine .inl ⟨⟨b, hb⟩, ?_⟩
    obtain ⟨-, rfl⟩ | ⟨hm, ⟨c, u, hu, rfl⟩ | ⟨hno, -⟩ | ⟨-, rfl⟩⟩ := renormE1_cases h
    · rfl
    · rfl
    · exact absurd hno (getBit_ne_noBits (hlast hm))
    · exact hp
  · rw [execPhRenorm_straddles hs] at h
    obtain ⟨hm, ⟨hroom, rfl⟩ | ⟨hfull, rfl⟩⟩ | ⟨hm, hread⟩ := renormE3_cases h
    · have hmax : s.ufc ≠ 2 ^ s.cfg.ufcBits - 1 := by omega
      exact .inr (.inl ⟨hs, fun h => hmax h.2, rfl⟩)
    · have hfits := hinv.ufc_fits
      exact .inr (.inr (.inl ⟨hs, hm, by omega, rfl, rfl⟩))
    · have hdec : s.mode ≠ .enc := by simp [hm]
      refine .inr (.inl ⟨hs, fun h => hdec h.1, ?_⟩)
      obtain ⟨c, u, hu, rfl⟩ | ⟨hno, -⟩ | ⟨-, rfl⟩ := hread
      · rfl
      · exact absurd hno (getBit_ne_noBits (hlast hm))
      · exact hp
  · rw [execPhRenorm_terminal hT] at h
    obtain ⟨hm, rfl⟩ | ⟨hm, rfl⟩ := renormTerm_cases h
    · by_cases heof : s.sym = 256#9
      · exact .inr (.inr (.inr (.inr (.inl ⟨hT, hm, heof, if_pos heof⟩))))
      · exact .inr (.inr (.inr (.inl ⟨hT, hm, heof, if_neg heof⟩)))
    · exact .inr (.inr (.inr (.inr (.inr ⟨hT, hm, rfl⟩))))

/-- The rows of FILL (43 R182, 44 R206, 45 R231). -/
theorem execPhFill_row {s t : State} (hinv : MachineInv s) (hp : s.phase = .fill) (h : execPhFill s = .next t) :
    (bitsIn s = [] ∧ s.codeInEnd = false ∧ t = s) ∨
    (bitsIn s = [] ∧ s.codeInEnd = true ∧ s.havelast = false ∧ t.phase = .fault ∧ t.fcode = .nobits) ∨
    (BitReady s ∧ s.fillcnt.toNat + 1 < 32 ∧ t.phase = .fill) ∨
    (BitReady s ∧ s.fillcnt.toNat + 1 = 32 ∧ t.phase = .scale) := by
  have hsession := hinv.sessionInv
  simp only [SessionInv, hp] at hsession
  obtain ⟨-, hicnt, -, -, hcnt, -⟩ := hsession
  obtain ⟨b, u, hget, -, hready⟩ | ⟨hget, hnil, hend, hlast⟩ | ⟨hget, hnil, hopen⟩ := getBit_spec s hicnt
  · rw [execPhFill_of_bit hget, getBit_fillcnt hget] at h
    cases h
    by_cases hfull : s.fillcnt.toNat + 1 = 32
    · exact .inr (.inr (.inr ⟨hready, hfull, if_pos hfull⟩))
    · exact .inr (.inr (.inl ⟨hready, by omega, if_neg hfull⟩))
  · rw [execPhFill, hget] at h
    cases h
    exact .inr (.inl ⟨hnil, hend, hlast, rfl, rfl⟩)
  · rw [execPhFill, afterBit_of_held hget] at h
    cases h
    exact .inl ⟨hnil, hopen, rfl⟩

/-- The rows of SEARCH, which the invariant keeps from its fault (43 R185). -/
theorem execPhSearch_row {s t : State} (hfc : t.fcode ≠ .invariant) (h : execPhSearch s = .next t) :
    (t.sym ≠ 256#9 ∧ t.phase = .narrow) ∨ (t.sym = 256#9 ∧ t.phase = .done) := by
  obtain ⟨-, -, rfl⟩ | ⟨-, -, rfl⟩ | ⟨-, rfl⟩ := execPhSearch_cases h
  · refine .inl ⟨fun heof => ?_, rfl⟩
    have hbyte := congrArg BitVec.toNat heof
    simp only [foundByte, BitVec.toNat_setWidth, BitVec.toNat_ofNat] at hbyte
    omega
  · exact .inr ⟨rfl, rfl⟩
  · exact absurd rfl hfc

/-- Settles O5: row by row, the rows of `F_INVARIANT` left out by the invariant, which the step keeps. -/
theorem phaseGraph : Obligations.PhaseGraph := by
  intro s t hinv hstep
  have ⟨_, hfc, _⟩ := core_keeps_inv hinv hstep
  by_cases hfault : s.phase = .fault
  · have hi : currentInstr s = .phFault := by rw [currentInstr, hfault]; split <;> rfl
    rw [hi] at hstep
    cases hstep
    rw [hfault]
  rw [currentInstr, if_pos (hinv.fcode_none hfault)] at hstep
  cases hp : s.phase with
  | idle | done =>
    rw [hp] at hstep
    cases hc : s.cmd with
    | nil =>
      cases (consumeCommand_of_nil hc).symm.trans hstep
      exact hp
    | cons c rest => simpa only [hp] using consumeCommand_row hc hstep
  | fetch =>
    rw [hp] at hstep
    cases hc : s.symIn with
    | nil =>
      cases (execPhFetch_of_nil hc).symm.trans hstep
      exact hp
    | cons c rest => exact execPhFetch_row hc hstep
  | narrow =>
    rw [hp] at hstep
    obtain ⟨l, u, -, rfl⟩ | ⟨-, rfl⟩ := execPhNarrow_cases hstep
    · rfl
    · exact absurd rfl hfc
  | renorm => exact execPhRenorm_row hinv hp (by rwa [hp] at hstep)
  | finish =>
    rw [hp] at hstep
    cases hstep
    rfl
  | fill => exact execPhFill_row hinv hp (by rwa [hp] at hstep)
  | scale =>
    rw [hp] at hstep
    obtain ⟨-, -, rfl⟩ | ⟨-, rfl⟩ := execPhScale_cases hstep
    · rfl
    · exact absurd rfl hfc
  | search => exact execPhSearch_row hfc (by rwa [hp] at hstep)
  | fault => exact absurd hp hfault

end Sys2Proof.Machine
end

section
/-! PROOFS. Faults (spec/60_exceptions.md R245 to R247, spec/10_state.md R28): what the step that enters FAULT changes,
and that only RESET leaves it. -/

namespace Sys2Proof.Machine

/-- Only the shape of a fault writes `FCODE`, and it writes nothing else but `PHASE` and the port it popped. -/
theorem Effect.eq_of_fcode_ne {i : Instr} {s t : State} (h : Effect s i t) (hw : t.fcode ≠ s.fcode) :
    t = { s with fcode := t.fcode, phase := .fault, symIn := t.symIn, cmd := t.cmd } := by
  cases h with
  | fault => rfl
  | _ => exact absurd rfl hw

/-- Settles O42: of the shapes of `Effect` only that of a fault records one, and no shape pops more than one element. -/
theorem faultEntryDiscardsOtherWrites : Obligations.FaultEntryDiscardsOtherWrites := by
  intro i s t hnone hexec hraised
  have he := exec_effect hexec
  have hw : t.fcode ≠ s.fcode := by rwa [hnone]
  exact ⟨he.eq_of_fcode_ne hw, he.symIn_same_or_tail, he.cmd_same_or_tail⟩

/-- With a fault recorded the core's step changes nothing, whatever `PHASE` holds (60 R247). -/
theorem exec_currentInstr_of_fcode_ne_none {s : State} (h : s.fcode ≠ .none) : exec (currentInstr s) s = .next s := by
  rw [currentInstr, if_neg h]
  rfl

/-- Of the host's moves only RESET writes `FCODE` or `PHASE` (10 R37). -/
theorem hostAct_fcode_phase_cases {a : HostAction} {s t : State} (h : hostAct a s = .next t) :
    (t.fcode = s.fcode ∧ t.phase = s.phase) ∨ (a = .reset ∧ t = s.afterReset) := by
  cases a with
  | reset =>
    cases h
    exact .inr ⟨rfl, rfl⟩
  | code b | emptyPorts | loadTable tb =>
    simp only [hostAct] at h
    split at h <;> cases h
    exact .inl ⟨rfl, rfl⟩
  | _ =>
    cases h
    exact .inl ⟨rfl, rfl⟩

/-- Settles O43: a step of the core changes nothing, and a host move but RESET leaves both registers as they are. -/
theorem faultLeftOnlyByReset : Obligations.FaultLeftOnlyByReset := by
  refine ⟨fun _ => rfl, fun s t hfault hstep => ⟨?_, fun hnil => ?_⟩⟩
  · obtain ⟨r, he⟩ | ⟨a, r, hs, he⟩ := step_cases s <;> rw [he] at hstep
    · cases (exec_currentInstr_of_fcode_ne_none (s := { s with schedule := r }) hfault).symm.trans hstep
      exact .inl ⟨rfl, rfl⟩
    · obtain hkeep | ⟨rfl, rfl⟩ := hostAct_fcode_phase_cases hstep
      · exact .inl hkeep
      · exact .inr ⟨rfl, rfl, by rw [hs, List.head?_cons]⟩
  · rw [step_of_schedule_nil hnil, exec_currentInstr_of_fcode_ne_none hfault] at hstep
    cases hstep
    rfl

end Sys2Proof.Machine
end
